-- ==== Sys2Proof/Word.lean ====
section
/-! DEFINITION. The word types of the AX25PC block (spec/00_scope.md R7, R9): a byte, a half word, a register word. -/

namespace Sys2Proof

/-- Eight bits (R7: "A byte is 8 bits"). -/
abbrev Byte := BitVec 8

/-- Sixteen bits: lengths, indexes and checksums (R28, R29, R180). -/
abbrev Half := BitVec 16

/-- Thirty-two bits: every register is 32 bits wide (R20). -/
abbrev Word := BitVec 32

/-- An offset inside the block's 0x400-byte window, counted from BLOCK_BASE (R20). -/
abbrev Offset := BitVec 10

end Sys2Proof
end

