-- ==== Sys2Proof/Syntax.lean ====
section
/-! DEFINITION. The commands of the block, one constructor per row of spec/opcode_table.json (R92). -/

namespace Sys2Proof

/-- A command (R90 to R92). Every command word has the two argument fields ARG_A and ARG_B, so every constructor carries
both: a field that its command does not use must be 0, and one that is not 0 makes the command end with BAD_ARG (R91),
which is a meaning of the command and no decoding error. -/
inductive Instr where
  /-- 0x00 NOP (R270). -/
  | nop (argA : BitVec 8) (argB : BitVec 16)
  /-- 0x01 CALL_DECODE (R132). -/
  | callDecode (argA : BitVec 8) (argB : BitVec 16)
  /-- 0x02 CALL_ENCODE (R133); ARG_B is the cursor in TBUF. -/
  | callEncode (argA : BitVec 8) (cursor : BitVec 16)
  /-- 0x10 FRAME_VALIDATE (R151). -/
  | frameValidate (argA : BitVec 8) (argB : BitVec 16)
  /-- 0x11 FRAME_TO_TEXT (R153). -/
  | frameToText (argA : BitVec 8) (argB : BitVec 16)
  /-- 0x12 TEXT_TO_FRAME (R155). -/
  | textToFrame (argA : BitVec 8) (argB : BitVec 16)
  /-- 0x20 CRC16 (R186). -/
  | crc16 (argA : BitVec 8) (argB : BitVec 16)
  /-- 0x21 DUP_CHECK (R187). -/
  | dupCheck (argA : BitVec 8) (argB : BitVec 16)
  /-- 0x22 DUP_RECORD (R188). -/
  | dupRecord (argA : BitVec 8) (argB : BitVec 16)
  /-- 0x23 DUP_CHECK_RECORD (R189). -/
  | dupCheckRecord (argA : BitVec 8) (argB : BitVec 16)
  /-- 0x30 DIGI_PROCESS (R233). -/
  | digiProcess (argA : BitVec 8) (argB : BitVec 16)
  /-- 0x31 PATH_INSERT_NODE (R234); ARG_A is the field index K. -/
  | pathInsertNode (k : BitVec 8) (argB : BitVec 16)
  /-- 0x32 PATH_OVERWRITE_NODE (R235); ARG_A is the field index K. -/
  | pathOverwriteNode (k : BitVec 8) (argB : BitVec 16)
  /-- 0x40 CSMA_ACQUIRE (R257). -/
  | csmaAcquire (argA : BitVec 8) (argB : BitVec 16)
  deriving DecidableEq, Repr

end Sys2Proof
end

