-- ==== Sys2Proof/WellFormed.lean ====
section
/-! DEFINITION. Which commands are well formed: the must-be-0 argument fields of spec/opcode_table.json are 0 (R91). -/

namespace Sys2Proof

/-- Neither argument field is used (R91): both are 0. -/
def noArgs (a : BitVec 8) (b : BitVec 16) : Bool := a == 0#8 && b == 0#16

/-- A command is well formed iff every argument field it does not use is 0 (R91). A command that is not still decodes, and
ends with BAD_ARG when it runs. -/
def Instr.wellFormed : Instr → Bool
  | .nop a b => noArgs a b
  | .callDecode a b => noArgs a b
  | .callEncode a _ => a == 0#8
  | .frameValidate a b => noArgs a b
  | .frameToText a b => noArgs a b
  | .textToFrame a b => noArgs a b
  | .crc16 a b => noArgs a b
  | .dupCheck a b => noArgs a b
  | .dupRecord a b => noArgs a b
  | .dupCheckRecord a b => noArgs a b
  | .digiProcess a b => noArgs a b
  | .pathInsertNode _ b => b == 0#16
  | .pathOverwriteNode _ b => b == 0#16
  | .csmaAcquire a b => noArgs a b

end Sys2Proof
end

