-- ==== Sys2Proof/Decode.lean ====
section
/-! DEFINITION. The decoder of command words, total on every word and on every byte sequence, and the encoder (R90 to R94). -/

namespace Sys2Proof

/-- Why a decoding is rejected. -/
inductive DecodeError where
  /-- R93: the OPC field is not in the opcode map of R92. -/
  | reservedOpcode (opc : BitVec 8)
  /-- R94: a command is one whole 32-bit word; there were fewer than four bytes. -/
  | truncated (have' : Nat)
  deriving DecidableEq, Repr

/-- OPC, bits 7:0 of a command word (R90). -/
def opcField (w : Word) : BitVec 8 := w.extractLsb' 0 8

/-- ARG_A, bits 15:8 of a command word (R90). -/
def argAField (w : Word) : BitVec 8 := w.extractLsb' 8 8

/-- ARG_B, bits 31:16 of a command word (R90). -/
def argBField (w : Word) : BitVec 16 := w.extractLsb' 16 16

/-- The opcode map of R92: OPC alone selects the command; every other OPC is reserved (R93). -/
def decode (w : Word) : Except DecodeError Instr :=
  match opcField w with
  | 0x00#8 => .ok (.nop (argAField w) (argBField w))
  | 0x01#8 => .ok (.callDecode (argAField w) (argBField w))
  | 0x02#8 => .ok (.callEncode (argAField w) (argBField w))
  | 0x10#8 => .ok (.frameValidate (argAField w) (argBField w))
  | 0x11#8 => .ok (.frameToText (argAField w) (argBField w))
  | 0x12#8 => .ok (.textToFrame (argAField w) (argBField w))
  | 0x20#8 => .ok (.crc16 (argAField w) (argBField w))
  | 0x21#8 => .ok (.dupCheck (argAField w) (argBField w))
  | 0x22#8 => .ok (.dupRecord (argAField w) (argBField w))
  | 0x23#8 => .ok (.dupCheckRecord (argAField w) (argBField w))
  | 0x30#8 => .ok (.digiProcess (argAField w) (argBField w))
  | 0x31#8 => .ok (.pathInsertNode (argAField w) (argBField w))
  | 0x32#8 => .ok (.pathOverwriteNode (argAField w) (argBField w))
  | 0x40#8 => .ok (.csmaAcquire (argAField w) (argBField w))
  | opc => .error (.reservedOpcode opc)

/-- Four bytes as a word, the first in bits 7:0 (R73). -/
def wordOfBytes (b0 b1 b2 b3 : Byte) : Word :=
  b0.zeroExtend 32 ||| (b1.zeroExtend 32 <<< 8) ||| (b2.zeroExtend 32 <<< 16) ||| (b3.zeroExtend 32 <<< 24)

/-- Byte `k` of a word, counted from bits 7:0 (R73). -/
def wordByte (w : Word) (k : Nat) : Byte := (w >>> (8 * k)).truncate 8

/-- The four bytes of a word, bits 7:0 first (R73). -/
def bytesOfWord (w : Word) : List Byte := [wordByte w 0, wordByte w 1, wordByte w 2, wordByte w 3]

/-- The decoder on bytes: one command is exactly one little-endian 32-bit word (R73, R94); the rest of the bytes comes back. -/
def decodeBytes : List Byte → Except DecodeError (Instr × List Byte)
  | b0 :: b1 :: b2 :: b3 :: rest =>
    match decode (wordOfBytes b0 b1 b2 b3) with
    | .ok i => .ok (i, rest)
    | .error e => .error e
  | short => .error (.truncated short.length)

/-- OPC of a command (R92). -/
def Instr.opcode : Instr → BitVec 8
  | .nop _ _ => 0x00#8
  | .callDecode _ _ => 0x01#8
  | .callEncode _ _ => 0x02#8
  | .frameValidate _ _ => 0x10#8
  | .frameToText _ _ => 0x11#8
  | .textToFrame _ _ => 0x12#8
  | .crc16 _ _ => 0x20#8
  | .dupCheck _ _ => 0x21#8
  | .dupRecord _ _ => 0x22#8
  | .dupCheckRecord _ _ => 0x23#8
  | .digiProcess _ _ => 0x30#8
  | .pathInsertNode _ _ => 0x31#8
  | .pathOverwriteNode _ _ => 0x32#8
  | .csmaAcquire _ _ => 0x40#8

/-- ARG_A of a command (R91). -/
def Instr.argA : Instr → BitVec 8
  | .nop a _ => a
  | .callDecode a _ => a
  | .callEncode a _ => a
  | .frameValidate a _ => a
  | .frameToText a _ => a
  | .textToFrame a _ => a
  | .crc16 a _ => a
  | .dupCheck a _ => a
  | .dupRecord a _ => a
  | .dupCheckRecord a _ => a
  | .digiProcess a _ => a
  | .pathInsertNode k _ => k
  | .pathOverwriteNode k _ => k
  | .csmaAcquire a _ => a

/-- ARG_B of a command (R91). -/
def Instr.argB : Instr → BitVec 16
  | .nop _ b => b
  | .callDecode _ b => b
  | .callEncode _ c => c
  | .frameValidate _ b => b
  | .frameToText _ b => b
  | .textToFrame _ b => b
  | .crc16 _ b => b
  | .dupCheck _ b => b
  | .dupRecord _ b => b
  | .dupCheckRecord _ b => b
  | .digiProcess _ b => b
  | .pathInsertNode _ b => b
  | .pathOverwriteNode _ b => b
  | .csmaAcquire _ b => b

/-- The encoder: the one word of a command, `(B << 16) | (A << 8) | OPC` (R90, R112). -/
def encode (i : Instr) : Word :=
  (i.argB.zeroExtend 32 <<< 16) ||| (i.argA.zeroExtend 32 <<< 8) ||| i.opcode.zeroExtend 32

/-- The command the decoder reads from a row's bits; the bits at or above `nbits` are 0. -/
def decodeTableWord (nbits w : Nat) : Option Instr :=
  match decodeBytes (bytesOfWord (BitVec.ofNat 32 (w % 2 ^ nbits))) with
  | .ok (i, _) => some i
  | .error _ => none

end Sys2Proof
end

