-- ==== Sys2Proof/Config.lean ====
section
/-! DEFINITION. What a build of the block fixes (spec/00_scope.md R6), and the free values: constants with no body, of which
nothing can be proved beyond their type. -/

namespace Sys2Proof.Config

/-- MAX_PATH (R6): a frame has 0 to 8 path entries. -/
abbrev maxPath : Nat := 8

/-- MAX_ADDR (R6): destination, source and MAX_PATH path entries. -/
abbrev maxAddr : Nat := 10

/-- MIN_FRAME_LEN (R6): two address fields, control and PID. -/
abbrev minFrameLen : Nat := 16

/-- FBUF_BYTES (R6, R50). -/
abbrev fbufBytes : Nat := 256

/-- TBUF_BYTES (R6, R50). -/
abbrev tbufBytes : Nat := 512

/-- TICK_W (R6): the width of the tick and of the expiries. -/
abbrev tickW : Nat := 32

/-- A value of TICK_W bits (`tick_width`): the TICK input (R51), its snapshot (R36), an expiry (R49). It is a register word, so
the lemmas about words hold of it. -/
abbrev Tick : Type := Word

/-- A tick has TICK_W bits. -/
theorem tick_width : Tick = BitVec tickW := rfl

/-- The build parameters that have a range (R6). A state carries one value of them, which no step ever writes, so a
statement about every state speaks of every legal build. -/
structure Params where
  /-- DUP_SLOTS, 1 to 16. -/
  dupSlots : Nat
  /-- MAX_FRAME_LEN, 16 to 255. -/
  maxFrameLen : Nat
  /-- ENC_RR, the bits 6:5 that encoders write into an SSID byte. -/
  encRR : BitVec 2
  /-- SELF_MASK, the SSID-byte mask of the self-origination compare. -/
  selfMask : Byte
  deriving DecidableEq, Repr

/-- The ranges of R6 for the two parameters whose type is wider than their range. -/
def Params.wf (p : Params) : Bool :=
  decide (1 ≤ p.dupSlots) && decide (p.dupSlots ≤ 16) && decide (16 ≤ p.maxFrameLen) && decide (p.maxFrameLen ≤ 255)

/-- The default build of R6. -/
def defaultParams : Params :=
  { dupSlots := 4, maxFrameLen := 255, encRR := 0b11#2, selfMask := 0x1E#8 }

/-- BLOCK_BASE, OPEN (R6): the bus address of offset 0x000, set by the platform. Free value. DESIGN CHOICE: the spec gives no
width of a bus address; the model takes 32 bits (log entry 20). -/
opaque blockBase : Word

/-- SAMPLE_PERIOD, OPEN (R6): the time between carrier-sense samples. Timing only: no rule depends on it. Free value. -/
opaque samplePeriod : Nat

/-- CS_BUSY (R52): the n-th carrier-sense sample that the schedule does not give. Free value. -/
opaque csBusy : Nat → Bool

/-- RND (R53): the n-th random draw that the schedule does not give. Free value. -/
opaque rndDraw : Nat → Byte

/-- What a byte of FBUF or TBUF holds that nothing has written since the last hard reset (R314: "A model takes them as
arbitrary and must not assume zero"), by the number of hard resets before and the byte's offset. Free value. -/
opaque unwrittenByte : Nat → Nat → Byte

end Sys2Proof.Config
end

