-- ==== Sys2Proof/Machine/State.lean ====
section
/-! DEFINITION. The state of the block as plain data (spec/10_state.md), the reasons a step could stop, and the state right
after a hard reset (R59, R311). -/

namespace Sys2Proof.Machine

/-- The structural frame errors of VALIDATE (R150), codes 0x10 to 0x16. -/
inductive FrameErr where
  | tooShort | noTerminal | misaligned | tooFewAddr | tooManyAddr | notUi | tooLong
  deriving DecidableEq, Repr

/-- The values STATUS.ERRCODE takes (R281): "Every other value is unused and never written". -/
inductive ErrCode where
  | noError
  | badOpcode
  | badArg
  | frame (e : FrameErr)
  | encNoGt
  | encNoColon
  | encTooManyPath
  | encFrameOverflow
  | textOverflow
  | pathFull
  | frameOverflow
  deriving DecidableEq, Repr

/-- DIGI_RES.VERDICT (R109). -/
inductive Verdict where
  | drop | message | digipeat | beaconTrigger
  deriving DecidableEq, Repr

/-- DIGI_RES.REASON (R110). -/
inductive Reason where
  | noReason
  | frame (e : FrameErr)
  | pathFull
  | frameOverflow
  | selfFrame
  | duplicate
  | noPath
  | noRule
  | destSsid
  | wideInsert
  | wideOverwrite
  deriving DecidableEq, Repr

/-- A packed address field A[0..6] (R12, R95): six callsign bytes and the SSID byte A[6]. -/
structure Addr where
  c0 : Byte
  c1 : Byte
  c2 : Byte
  c3 : Byte
  c4 : Byte
  c5 : Byte
  sb : Byte
  deriving DecidableEq, Repr

/-- STATUS (R26). Reserved bits are not stored: they read 0 (R21). -/
structure Status where
  busy : Bool
  done : Bool
  err : Bool
  grant : Bool
  overrun : Bool
  wbusy : Bool
  buserr : Bool
  errcode : ErrCode
  lastop : Byte
  deriving DecidableEq, Repr

/-- CFG (R32, R33). -/
structure Cfg where
  widenMax : BitVec 4
  persist : Byte
  slotSamples : Half
  deriving DecidableEq, Repr

/-- RGN (R30). -/
structure Rgn where
  off : Half
  len : Half
  deriving DecidableEq, Repr

/-- CALLINFO (R39). -/
structure CallInfo where
  tlen : BitVec 4
  curOut : Half
  deriving DecidableEq, Repr

/-- HDR_INFO (R40). -/
structure HdrInfo where
  naddr : Byte
  npath : Byte
  payIdx : Half
  deriving DecidableEq, Repr

/-- DUP_RES (R43). -/
structure DupRes where
  hit : Bool
  recorded : Bool
  evicted : Bool
  slot : BitVec 4
  csum : Half
  deriving DecidableEq, Repr

/-- DIGI_RES (R44). -/
structure DigiRes where
  verdict : Verdict
  reason : Reason
  beaconReq : Bool
  ackFound : Bool
  grew : Bool
  dupRecorded : Bool
  field : BitVec 4
  deriving DecidableEq, Repr

/-- MSG_INFO (R45). -/
structure MsgInfo where
  remIdx : Half
  remLen : Half
  deriving DecidableEq, Repr

/-- ACK_INFO (R46). -/
structure AckInfo where
  idx : Half
  len : Byte
  deriving DecidableEq, Repr

/-- CSMA_STATE (R47, R55): "values 2 and 3 do not occur". -/
inductive CsmaState where
  | idle | wait
  deriving DecidableEq, Repr

/-- The arbiter (R55), visible in CSMA_INFO (R47). -/
structure Arbiter where
  idleCnt : Half
  attempts : Byte
  state : CsmaState
  deriving DecidableEq, Repr

/-- CNT_RX, CNT_DIGI and CNT_GRANT (R48). -/
structure Counters where
  rx : Word
  digi : Word
  grant : Word
  deriving DecidableEq, Repr

/-- One slot of the duplicate table (R49); it is empty iff `exp = 0`. -/
structure Slot where
  csum : Half
  exp : Config.Tick
  deriving DecidableEq, Repr

/-- ENGINE, the command engine's hidden state (R54). -/
inductive Engine where
  | idle | pending | csmaWait
  deriving DecidableEq, Repr

/-- One host access to the block's window, at an offset from BLOCK_BASE, in the three bus widths (R72, R74). -/
inductive Access where
  | read8 (off : Offset)
  | read16 (off : Offset)
  | read32 (off : Offset)
  | write8 (off : Offset) (v : Byte)
  | write16 (off : Offset) (v : Half)
  | write32 (off : Offset) (v : Word)
  deriving DecidableEq, Repr

/-- What the block last answered on the bus. -/
inductive BusResp where
  /-- No access has been answered yet. -/
  | silent
  /-- Data of an 8-bit read: the byte alone. The spec names no byte lanes (log entry 23). -/
  | data8 (v : Byte)
  /-- Data of a 32-bit read. -/
  | data32 (v : Word)
  /-- A write was taken (stored, ignored or dropped, as the rules of its register say). -/
  | ack
  /-- R74: the access was refused; the answer names it, and a refused read returns 0. -/
  | refused (a : Access)
  deriving DecidableEq, Repr

/-- One thing that happens next to the block (R116, R252, R51, R310): a move of one of its agents or of its environment. -/
inductive Event where
  /-- The host makes one access (R75, R77). -/
  | host (a : Access)
  /-- The command engine takes its step, if it is enabled (R116). -/
  | engine
  /-- The arbiter takes a sample event, if it is waiting (R252), with this CS_BUSY sample (R52) and, where the sample event
  draws, this value of RND (R53). -/
  | sample (csBusy : Bool) (rnd : Byte)
  /-- TICK advances by this many increments modulo 2^32 (R51). -/
  | tick (n : Config.Tick)
  /-- The platform asserts and releases the hard reset input (R310). -/
  | hardReset
  deriving DecidableEq, Repr

/-- The state of the block. The first group is what spec/10_state.md gives the machine, in its order; the last group is
the model's own. -/
structure State where
  /-- The build parameters of R6, shown in PARAMS (R24). No step writes them. -/
  params : Config.Params
  /-- CTRL.IRQ_EN (R25). -/
  irqEn : Bool
  /-- STATUS (R26). -/
  status : Status
  /-- FLEN[15:0] (R28). -/
  flen : Half
  /-- TLEN[15:0] (R29). -/
  tlen : Half
  /-- RGN (R30). -/
  rgn : Rgn
  /-- NODE[0..6] (R31). -/
  node : Addr
  /-- CFG (R32). -/
  cfg : Cfg
  /-- DUP_WINDOW (R34). -/
  dupWindow : Word
  /-- The TICK input (R51), read as TICK_NOW (R35). -/
  tick : Config.Tick
  /-- TICK_SNAP (R36): `now`. -/
  tickSnap : Config.Tick
  /-- CALLP[0..6] (R37). -/
  callp : Addr
  /-- CALLTXT[0..8] (R38), nine bytes. -/
  callTxt : List Byte
  /-- CALLINFO (R39). -/
  callInfo : CallInfo
  /-- HDR_INFO (R40). -/
  hdr : HdrInfo
  /-- PAY_LEN[15:0] (R41). -/
  payLen : Half
  /-- CRC_RES[15:0] (R42). -/
  crcRes : Half
  /-- DUP_RES (R43). -/
  dupRes : DupRes
  /-- DIGI_RES (R44). -/
  digiRes : DigiRes
  /-- MSG_INFO (R45). -/
  msgInfo : MsgInfo
  /-- ACK_INFO (R46). -/
  ackInfo : AckInfo
  /-- The arbiter's IDLE_CNT, ATTEMPTS and CSMA_STATE (R47, R55). -/
  arb : Arbiter
  /-- CNT_RX, CNT_DIGI, CNT_GRANT (R48). -/
  cnt : Counters
  /-- The duplicate table (R49), slot 0 first, DUP_SLOTS of them. -/
  table : List Slot
  /-- FBUF and TBUF (R50), by offset in the window: FB(i) at 0x100 + i, TB(i) at 0x200 + i. Strictly rising offsets; an offset
  that is not listed has not been written since the last hard reset. -/
  mem : List Host.Cell
  /-- ENGINE (R54). -/
  engine : Engine
  /-- PEND (R54). -/
  pend : Word
  /-- The model's own: what happens next, first event first. Empty: the block's own agents go on by themselves. -/
  schedule : List Event
  /-- The model's own: the last answer on the bus. -/
  busResp : BusResp
  /-- The model's own: how many hard resets there have been, the first argument of `Config.unwrittenByte`. -/
  resets : Nat
  /-- The model's own: how many samples have been taken from `Config.csBusy` and `Config.rndDraw`. -/
  samples : Nat
  deriving DecidableEq, Repr

/-- There is no fault: "The block has no traps" (R283), every error is an ERRCODE of a completed command (R280), and every
access has its answer (R21, R74). The type has no constructor, so that no step can end in one. -/
inductive Fault where
  deriving DecidableEq, Repr

/-- The reasons a step could be refused. -/
inductive Refusal where
  /-- Raised by exec's arm for an instruction that has no meaning yet; no arm raises it. Safe: the step stops. -/
  | notModelled (mnemonic : String)
  deriving DecidableEq, Repr

/-- Seven zero bytes (R31, R37). -/
def Addr.zero : Addr := ⟨0#8, 0#8, 0#8, 0#8, 0#8, 0#8, 0#8⟩

/-- STATUS = 0x00000000 (R59). -/
def Status.zero : Status :=
  { busy := false, done := false, err := false, grant := false, overrun := false, wbusy := false, buserr := false,
    errcode := .noError, lastop := 0#8 }

/-- DUP_RES = 0 (R43). -/
def DupRes.zero : DupRes := { hit := false, recorded := false, evicted := false, slot := 0#4, csum := 0#16 }

/-- DIGI_RES = 0 (R44): verdict DROP, reason NONE, no flag. -/
def DigiRes.zero : DigiRes :=
  { verdict := .drop, reason := .noReason, beaconReq := false, ackFound := false, grew := false, dupRecorded := false,
    field := 0#4 }

/-- An empty slot with no checksum (R313). -/
def Slot.empty : Slot := ⟨0#16, 0#32⟩

/-- The block right after a hard reset, of the default build (R59, R311). FBUF and TBUF list nothing: their bytes are
unspecified (R314). TICK is not reset (R318); the value shown here and the model's own fields are log entries 3, 4 and 6. -/
def State.reset : State :=
  { params := Config.defaultParams
    irqEn := false
    status := Status.zero
    flen := 0#16
    tlen := 0#16
    rgn := ⟨0#16, 0#16⟩
    node := Addr.zero
    cfg := { widenMax := 0#4, persist := 0xBF#8, slotSamples := 10#16 }
    dupWindow := 30#32
    tick := 0#32
    tickSnap := 0#32
    callp := Addr.zero
    callTxt := List.replicate 9 0#8
    callInfo := ⟨0#4, 0#16⟩
    hdr := ⟨0#8, 0#8, 0#16⟩
    payLen := 0#16
    crcRes := 0#16
    dupRes := DupRes.zero
    digiRes := DigiRes.zero
    msgInfo := ⟨0#16, 0#16⟩
    ackInfo := ⟨0#16, 0#8⟩
    arb := ⟨0#16, 0#8, .idle⟩
    cnt := ⟨0#32, 0#32, 0#32⟩
    table := List.replicate Config.defaultParams.dupSlots Slot.empty
    mem := []
    engine := .idle
    pend := 0#32
    schedule := []
    busResp := .silent
    resets := 0
    samples := 0 }

end Sys2Proof.Machine
end

