-- ==== Sys2Proof/Machine/Flags.lean ====
section
/-! DEFINITION. The codes and the register words of the status and result flags (10_state.md R26, R43, R44; 30_encoding.md
R109, R110; 60_exceptions.md R281). -/

namespace Sys2Proof.Machine

/-- The codes 0x10 to 0x16 of VALIDATE's errors (R150, R281). -/
def FrameErr.code : FrameErr → Byte
  | .tooShort => 0x10#8
  | .noTerminal => 0x11#8
  | .misaligned => 0x12#8
  | .tooFewAddr => 0x13#8
  | .tooManyAddr => 0x14#8
  | .notUi => 0x15#8
  | .tooLong => 0x16#8

/-- STATUS.ERRCODE (R281). -/
def ErrCode.code : ErrCode → Byte
  | .noError => 0x00#8
  | .badOpcode => 0x01#8
  | .badArg => 0x02#8
  | .frame e => e.code
  | .encNoGt => 0x20#8
  | .encNoColon => 0x21#8
  | .encTooManyPath => 0x22#8
  | .encFrameOverflow => 0x23#8
  | .textOverflow => 0x24#8
  | .pathFull => 0x30#8
  | .frameOverflow => 0x31#8

/-- DIGI_RES.REASON (R110). -/
def Reason.code : Reason → Byte
  | .noReason => 0x00#8
  | .frame e => e.code
  | .pathFull => 0x30#8
  | .frameOverflow => 0x31#8
  | .selfFrame => 0x40#8
  | .duplicate => 0x41#8
  | .noPath => 0x42#8
  | .noRule => 0x43#8
  | .destSsid => 0x50#8
  | .wideInsert => 0x51#8
  | .wideOverwrite => 0x52#8

/-- DIGI_RES.VERDICT (R109). -/
def Verdict.code : Verdict → BitVec 2
  | .drop => 0#2
  | .message => 1#2
  | .digipeat => 2#2
  | .beaconTrigger => 3#2

/-- CSMA_INFO.CSMA_STATE (R47). -/
def CsmaState.code : CsmaState → BitVec 2
  | .idle => 0#2
  | .wait => 1#2

/-- The value `v` in a 32-bit register with its bit 0 at bit `lo`. -/
def fieldAt {n : Nat} (v : BitVec n) (lo : Nat) : Word := v.zeroExtend 32 <<< lo

/-- The flag `b` in a 32-bit register at bit `lo`. -/
def flagAt (b : Bool) (lo : Nat) : Word := fieldAt (BitVec.ofBool b) lo

/-- The word STATUS reads (R26). -/
def Status.word (t : Status) : Word :=
  flagAt t.busy 0 ||| flagAt t.done 1 ||| flagAt t.err 2 ||| flagAt t.grant 3 ||| flagAt t.overrun 4 ||| flagAt t.wbusy 5
    ||| flagAt t.buserr 6 ||| fieldAt t.errcode.code 8 ||| fieldAt t.lastop 16

/-- A write of `v` to STATUS: 1 clears DONE, ERR, OVERRUN, WBUSY and BUSERR; 0 has no effect; every other bit is read-only
(R26, R288). -/
def Status.writeOneToClear (t : Status) (v : Word) : Status :=
  { t with
    done := t.done && !v.getLsbD 1
    err := t.err && !v.getLsbD 2
    overrun := t.overrun && !v.getLsbD 4
    wbusy := t.wbusy && !v.getLsbD 5
    buserr := t.buserr && !v.getLsbD 6 }

/-- The word DUP_RES reads (R43). -/
def DupRes.word (d : DupRes) : Word :=
  flagAt d.hit 0 ||| flagAt d.recorded 1 ||| flagAt d.evicted 2 ||| fieldAt d.slot 8 ||| fieldAt d.csum 16

/-- The word DIGI_RES reads (R44). -/
def DigiRes.word (d : DigiRes) : Word :=
  fieldAt d.verdict.code 0 ||| fieldAt d.reason.code 8 ||| flagAt d.beaconReq 16 ||| flagAt d.ackFound 17
    ||| flagAt d.grew 18 ||| flagAt d.dupRecorded 19 ||| fieldAt d.field 24

/-- IRQ = CTRL.IRQ_EN ∧ STATUS.DONE, a level output that holds no state (R56, R287). -/
def State.irq (s : State) : Bool := s.irqEn && s.status.done

end Sys2Proof.Machine
end

