-- ==== Sys2Proof/Machine/Ops.lean ====
section
/-! DEFINITION. The named operations over memory and the engine: reading and writing bytes of FBUF and TBUF, issuing a
command, and its two ends `complete()` and `fail(code)`, which take the place of exceptions (60_exceptions.md R280, R283). -/

namespace Sys2Proof.Machine

/-- What an execution answers. -/
abbrev Result := Host.Outcome State Fault Refusal

/-! ### Memory: the bytes of FBUF and TBUF that have been written -/

/-- The byte listed at an offset. -/
def Memory.lookup : List Host.Cell → Nat → Option Byte
  | [], _ => none
  | (k, b) :: rest, a => if k = a then some b else Memory.lookup rest a

/-- Writes one byte and keeps the offsets strictly rising. -/
def Memory.store : List Host.Cell → Nat → Byte → List Host.Cell
  | [], a, v => [(a, v)]
  | (k, b) :: rest, a, v =>
    if a < k then (a, v) :: (k, b) :: rest
    else if a = k then (a, v) :: rest
    else (k, b) :: Memory.store rest a v

/-- Writes bytes at `a`, `a + 1`, and so on. -/
def Memory.storeAll (m : List Host.Cell) (a : Nat) : List Byte → List Host.Cell
  | [] => m
  | b :: bs => Memory.storeAll (Memory.store m a b) (a + 1) bs

/-- The canonical form of a memory: offsets strictly rising, all inside FBUF and TBUF (0x100 to 0x3FF, R50). An offset that is
not listed holds no value (log entry 3), so no entry repeats what an unlisted offset reads as. -/
abbrev Memory.wf (m : List Host.Cell) : Prop :=
  (m.map Prod.fst).Pairwise (· < ·) ∧ ∀ c ∈ m, 0x100 ≤ c.1 ∧ c.1 < 0x400

/-- The byte at an offset of FBUF or TBUF. One that nothing has written since the last hard reset is a free value (R314). -/
def State.byteAt (s : State) (off : Nat) : Byte :=
  (Memory.lookup s.mem off).getD (Config.unwrittenByte s.resets off)

/-- FB(i) (R8, R50). -/
def State.fb (s : State) (i : Nat) : Byte := s.byteAt (0x100 + i)

/-- TB(i) (R8, R50). -/
def State.tb (s : State) (i : Nat) : Byte := s.byteAt (0x200 + i)

/-- FB[a .. a + n) (R8). -/
def State.fbs (s : State) (a n : Nat) : List Byte := (List.range n).map fun j => s.fb (a + j)

/-- TB[a .. a + n) (R8). -/
def State.tbs (s : State) (a n : Nat) : List Byte := (List.range n).map fun j => s.tb (a + j)

/-- Writes bytes from an offset on. -/
def State.setBytes (s : State) (off : Nat) (bs : List Byte) : State := { s with mem := Memory.storeAll s.mem off bs }

/-- FB(i + j) <- bs[j] (R8). -/
def State.setFb (s : State) (i : Nat) (bs : List Byte) : State := s.setBytes (0x100 + i) bs

/-- TB(i + j) <- bs[j] (R8). -/
def State.setTb (s : State) (i : Nat) (bs : List Byte) : State := s.setBytes (0x200 + i) bs

/-! ### The command engine -/

/-- Issue of a command word (R113). -/
def State.issue (s : State) (w : Word) : State :=
  { s with
    status := { s.status with
      busy := true, done := false, err := false, grant := false, errcode := .noError, lastop := opcField w }
    pend := w
    engine := .pending }

/-- TICK_SNAP <- TICK, the first thing the engine's step does (R116, R36). -/
def State.latchTick (s : State) : State := { s with tickSnap := s.tick }

/-- `now` (R11): the tick snapshot. -/
def State.now (s : State) : Config.Tick := s.tickSnap

/-- `complete()` (R11, R114): ends the command with ERR = 0 and ERRCODE = 0x00 (R280). -/
def State.complete (s : State) : State :=
  { s with
    status := { s.status with busy := false, done := true, err := false, errcode := .noError }
    engine := .idle }

/-- `fail(code)` (R11, R114): ends the command with ERR = 1 and ERRCODE = code, and changes nothing else (R284). -/
def State.fail (s : State) (code : ErrCode) : State :=
  { s with
    status := { s.status with busy := false, done := true, err := true, errcode := code }
    engine := .idle }

/-- The engine's answer to a word with a reserved OPC (R93). -/
def State.failReserved (s : State) : State := s.fail .badOpcode

/-! ### Header geometry -/

/-- Writes HDR_INFO for `naddr` address fields and PAY_LEN = FLEN - PAY_IDX (R40, R41, R151). -/
def State.setHeader (s : State) (naddr payIdx : Nat) : State :=
  { s with
    hdr := { naddr := BitVec.ofNat 8 naddr, npath := BitVec.ofNat 8 (naddr - 2), payIdx := BitVec.ofNat 16 payIdx }
    payLen := s.flen - BitVec.ofNat 16 payIdx }

/-! ### Reset -/

/-- The soft reset (R312): every piece of state takes its reset value, but FBUF and TBUF keep their contents and the TICK
input is not affected (R318). The build and the model's own fields are no state of the block that a reset could change. -/
def State.softReset (s : State) : State :=
  { State.reset with
    params := s.params
    table := List.replicate s.params.dupSlots Slot.empty
    tick := s.tick
    mem := s.mem
    schedule := s.schedule
    busResp := s.busResp
    resets := s.resets
    samples := s.samples }

/-- The hard reset (R311): as the soft reset, and FBUF and TBUF hold unspecified bytes (R314). -/
def State.hardReset (s : State) : State :=
  { s.softReset with mem := [], resets := s.resets + 1 }

end Sys2Proof.Machine
end

