-- ==== Sys2Proof/Machine/Operands.lean ====
section
/-! DEFINITION. The operand forms of the commands: argument fields (R91), characters (R10), address fields of the frame
buffer (R12), the frame, its payload and its text, and the checksum region (R185). -/

namespace Sys2Proof.Machine

/-! ### Characters (00_scope.md R10) -/

/-- `isDigit(c)`. -/
def isDigit (c : Byte) : Bool := decide (0x30 ≤ c.toNat) && decide (c.toNat ≤ 0x39)

/-- `isAlnum(c)`. -/
def isAlnum (c : Byte) : Bool :=
  isDigit c || (decide (0x41 ≤ c.toNat) && decide (c.toNat ≤ 0x5A)) || (decide (0x61 ≤ c.toNat) && decide (c.toNat ≤ 0x7A))

/-- `dec(n)` for the SSIDs 0 to 15. -/
def dec (n : Nat) : List Byte :=
  if n < 10 then [BitVec.ofNat 8 (0x30 + n)] else [BitVec.ofNat 8 (0x30 + n / 10), BitVec.ofNat 8 (0x30 + n % 10)]

/-! ### Argument fields (30_encoding.md R91) -/

/-- A command that uses neither argument field was given a non-zero one. -/
def argsUsed (a : BitVec 8) (b : BitVec 16) : Bool := a != 0#8 || b != 0#16

/-! ### Address fields (00_scope.md R12, 30_encoding.md R95) -/

/-- `call(A)`. -/
def Addr.call (A : Addr) : List Byte := [A.c0, A.c1, A.c2, A.c3, A.c4, A.c5]

/-- The seven bytes A[0..6]. -/
def Addr.bytes (A : Addr) : List Byte := [A.c0, A.c1, A.c2, A.c3, A.c4, A.c5, A.sb]

/-- `ssid(A) = A[6][4:1]`. -/
def Addr.ssid (A : Addr) : BitVec 4 := A.sb.extractLsb' 1 4

/-- `E(A) = A[6][0]`. -/
def Addr.e (A : Addr) : Bool := A.sb.getLsbD 0

/-- `H(A) = A[6][7]`. -/
def Addr.h (A : Addr) : Bool := A.sb.getLsbD 7

/-- `rr(A) = A[6][6:5]`. -/
def Addr.rr (A : Addr) : BitVec 2 := A.sb.extractLsb' 5 2

/-- An SSID byte with its bit 7 cleared (R154: "D[6][7] <- 0"). -/
def clearH (b : Byte) : Byte := b &&& 0x7F#8

/-- An SSID byte with its bit 0 set (R154: "last(addrs)[6][0] <- 1"). -/
def setE (b : Byte) : Byte := b ||| 0x01#8

/-- A byte with its bit 0 cleared (R224: "FB(7K-1)[0] <- 0"). -/
def clearE (b : Byte) : Byte := b &&& 0xFE#8

/-- An SSID byte with its SSID replaced: only bits 4:1 change (R225, R229). -/
def withSsid (b : Byte) (n : BitVec 4) : Byte := (b &&& 0xE1#8) ||| (n.zeroExtend 8 <<< 1)

/-- The SSID byte of the node's address in a path: the node's bits 6:1, H = 1, and the E bit given (R224, R231). -/
def nodeSsidByte (node : Addr) (e : Bool) : Byte :=
  (node.sb &&& 0x7E#8) ||| 0x80#8 ||| (BitVec.ofBool e).zeroExtend 8

/-- The node's address as a path entry (R224, R231). -/
def nodeEntry (node : Addr) (e : Bool) : Addr := { node with sb := nodeSsidByte node e }

/-- `field(k)`, FB[7k .. 7k+7). -/
def State.field (s : State) (k : Nat) : Addr :=
  ⟨s.fb (7 * k), s.fb (7 * k + 1), s.fb (7 * k + 2), s.fb (7 * k + 3), s.fb (7 * k + 4), s.fb (7 * k + 5), s.fb (7 * k + 6)⟩

/-! ### Frame, text and region -/

/-- The payload FB[payIdx .. FLEN) (R211). -/
def State.payload (s : State) (payIdx : Nat) : List Byte := s.fbs payIdx (s.flen.toNat - payIdx)

/-- The text TB[0 .. TLEN). -/
def State.text (s : State) : List Byte := s.tbs 0 s.tlen.toNat

/-- The checksum region is legal (R185). -/
def State.regionLegal (s : State) : Bool := decide (s.rgn.off.toNat + s.rgn.len.toNat ≤ Config.fbufBytes)

/-- The bytes of the checksum region (R185). -/
def State.region (s : State) : List Byte := s.fbs s.rgn.off.toNat s.rgn.len.toNat

end Sys2Proof.Machine
end

