-- ==== Sys2Proof/Machine/Bus.lean ====
section
/-! DEFINITION. The host's accesses to the block's window (spec/10_state.md R20 to R50, spec/20_memory.md, spec/45_control.md R271
to R273). -/

namespace Sys2Proof.Machine

/-- The offset in the block's window of a bus address, if it lies in the window (R20: 0x400 bytes from BLOCK_BASE). The
accesses of this file are given by offset. DESIGN CHOICE: a bus address has 32 bits and the window wraps modulo 2^32; the spec
gives no width (log entry 20). -/
def busOffset (addr : Word) : Option Offset :=
  let d := addr - Config.blockBase
  if d.toNat < 0x400 then some (d.truncate 10) else none

/-! ### Reads (no read has a side effect, R21) -/

/-- Bytes 0 to 3 of NODE or CALLP, byte 0 in bits 7:0 (R31, R37). -/
def packLo (A : Addr) : Word := wordOfBytes A.c0 A.c1 A.c2 A.c3

/-- Bytes 4 to 6 of NODE or CALLP; bits 31:24 are reserved (R31, R37). -/
def packHi (A : Addr) : Word := wordOfBytes A.c4 A.c5 A.sb 0x00#8

/-- CALLTXT word `w` (R38). -/
def callTxtWord (t : List Byte) (w : Nat) : Word :=
  wordOfBytes (t.getD (4 * w) 0#8) (t.getD (4 * w + 1) 0#8) (t.getD (4 * w + 2) 0#8) (t.getD (4 * w + 3) 0#8)

/-- PARAMS (R24). -/
def paramsWord (p : Config.Params) : Word :=
  fieldAt (BitVec.ofNat 8 p.dupSlots) 0 ||| fieldAt (BitVec.ofNat 8 p.maxFrameLen) 8 ||| fieldAt p.encRR 16 ||| fieldAt p.selfMask 24

/-- What a 32-bit read of a register at a word offset 0x000 to 0x07C gives (R20 to R48). -/
def State.readReg (s : State) (off : Nat) : Word :=
  match off with
  | 0x000 => 0x35325841#32
  | 0x004 => 0x00010000#32
  | 0x008 => paramsWord s.params
  | 0x00C => flagAt s.irqEn 0
  | 0x010 => s.status.word
  | 0x014 => 0#32
  | 0x018 => fieldAt s.flen 0
  | 0x01C => fieldAt s.tlen 0
  | 0x020 => fieldAt s.rgn.off 0 ||| fieldAt s.rgn.len 16
  | 0x024 => packLo s.node
  | 0x028 => packHi s.node
  | 0x02C => fieldAt s.cfg.widenMax 0 ||| fieldAt s.cfg.persist 8 ||| fieldAt s.cfg.slotSamples 16
  | 0x030 => s.dupWindow
  | 0x034 => s.tick
  | 0x038 => s.tickSnap
  | 0x03C => packLo s.callp
  | 0x040 => packHi s.callp
  | 0x044 => callTxtWord s.callTxt 0
  | 0x048 => callTxtWord s.callTxt 1
  | 0x04C => fieldAt (s.callTxt.getD 8 0#8) 0
  | 0x050 => fieldAt s.callInfo.tlen 0 ||| fieldAt s.callInfo.curOut 16
  | 0x054 => fieldAt s.hdr.naddr 0 ||| fieldAt s.hdr.npath 8 ||| fieldAt s.hdr.payIdx 16
  | 0x058 => fieldAt s.payLen 0
  | 0x05C => fieldAt s.crcRes 0
  | 0x060 => s.dupRes.word
  | 0x064 => s.digiRes.word
  | 0x068 => fieldAt s.msgInfo.remIdx 0 ||| fieldAt s.msgInfo.remLen 16
  | 0x06C => fieldAt s.ackInfo.idx 0 ||| fieldAt s.ackInfo.len 16
  | 0x070 => fieldAt s.arb.idleCnt 0 ||| fieldAt s.arb.attempts 16 ||| fieldAt s.arb.state.code 24
  | 0x074 => s.cnt.rx
  | 0x078 => s.cnt.digi
  | 0x07C => s.cnt.grant
  | _ => 0#32

/-- The duplicate-table window's word at offset 0x080 + `4 * w` (R49): CSUM and EXP in turn; a slot that is not built reads 0. -/
def State.readDupWord (s : State) (w : Nat) : Word :=
  let x := s.table.getD (w / 2) Slot.empty
  if w % 2 = 0 then fieldAt x.csum 0 else x.exp

/-- The byte at an offset of the duplicate-table window, FBUF or TBUF (R72, R73). -/
def State.readWindowByte (s : State) (off : Nat) : Byte :=
  if off < 0x100 then wordByte (s.readDupWord ((off - 0x80) / 4)) (off % 4) else s.byteAt off

/-- What a legal 32-bit read at a word offset gives (R73: little-endian). -/
def State.readWord (s : State) (off : Nat) : Word :=
  if off < 0x80 then s.readReg off
  else wordOfBytes (s.readWindowByte off) (s.readWindowByte (off + 1)) (s.readWindowByte (off + 2))
    (s.readWindowByte (off + 3))

/-! ### Writes -/

/-- A write to a buffer or a configuration register: dropped with WBUSY while BUSY = 1 (R78), else done. -/
def State.guarded (s : State) (f : State → State) : State :=
  if s.status.busy then { s with status := { s.status with wbusy := true } } else f s

/-- A write to CMD (R27): issue (R113), or dropped with OVERRUN while BUSY = 1 (R115). -/
def State.writeCmd (s : State) (w : Word) : State :=
  if s.status.busy then { s with status := { s.status with overrun := true } } else s.issue w

/-- A write to CTRL (R25): SRST wins (R271); else CNT_CLR clears the counters (R272) and bit 0 is stored (R273). -/
def State.writeCtrl (s : State) (v : Word) : State :=
  if v.getLsbD 1 then s.softReset
  else
    { s with
      irqEn := v.getLsbD 0
      cnt := if v.getLsbD 2 then ⟨0#32, 0#32, 0#32⟩ else s.cnt }

/-- NODE or CALLP with bytes 0 to 3 written (R31, R37). -/
def Addr.withLo (A : Addr) (v : Word) : Addr :=
  { A with c0 := wordByte v 0, c1 := wordByte v 1, c2 := wordByte v 2, c3 := wordByte v 3 }

/-- NODE or CALLP with bytes 4 to 6 written (R31, R37); bits 31:24 are ignored (R21). -/
def Addr.withHi (A : Addr) (v : Word) : Addr :=
  { A with c4 := wordByte v 0, c5 := wordByte v 1, sb := wordByte v 2 }

/-- CFG as written (R32): reserved bits are ignored, and SLOT_SAMPLES = 0 stores 1 (R33). -/
def cfgOfWord (v : Word) : Cfg :=
  let n : Half := v.extractLsb' 16 16
  { widenMax := v.extractLsb' 0 4
    persist := v.extractLsb' 8 8
    slotSamples := if n = 0#16 then 1#16 else n }

/-- A 32-bit write to a register at a word offset 0x000 to 0x07C (R20). Read-only registers ignore it (R21). CALLP is not among
the registers R78 guards (log entry 10). -/
def State.writeReg (s : State) (off : Nat) (v : Word) : State :=
  match off with
  | 0x00C => s.writeCtrl v
  | 0x010 => { s with status := s.status.writeOneToClear v }
  | 0x014 => s.writeCmd v
  | 0x018 => s.guarded fun s => { s with flen := v.extractLsb' 0 16 }
  | 0x01C => s.guarded fun s => { s with tlen := v.extractLsb' 0 16 }
  | 0x020 => s.guarded fun s => { s with rgn := ⟨v.extractLsb' 0 16, v.extractLsb' 16 16⟩ }
  | 0x024 => s.guarded fun s => { s with node := s.node.withLo v }
  | 0x028 => s.guarded fun s => { s with node := s.node.withHi v }
  | 0x02C => s.guarded fun s => { s with cfg := cfgOfWord v }
  | 0x030 => s.guarded fun s => { s with dupWindow := v }
  | 0x03C => { s with callp := s.callp.withLo v }
  | 0x040 => { s with callp := s.callp.withHi v }
  | _ => s

/-- A write of bytes into the window from offset 0x080 on: the duplicate-table window ignores it (R49), FBUF and TBUF take it
unless BUSY = 1 (R78). -/
def State.writeWindow (s : State) (off : Nat) (bs : List Byte) : State :=
  if off < 0x100 then s else s.guarded fun s => s.setBytes off bs

/-- A legal 32-bit write at a word offset (R73). -/
def State.writeWord (s : State) (off : Nat) (v : Word) : State :=
  if off < 0x80 then s.writeReg off v else s.writeWindow off (bytesOfWord v)

/-! ### Accesses -/

/-- The accesses of R72: 8-bit at any offset of the duplicate-table window, FBUF and TBUF; 32-bit at a multiple of 4. -/
def Access.legal : Access → Bool
  | .read8 off => decide (0x80 ≤ off.toNat)
  | .write8 off _ => decide (0x80 ≤ off.toNat)
  | .read16 _ => false
  | .write16 _ _ => false
  | .read32 off => decide (off.toNat % 4 = 0)
  | .write32 off _ => decide (off.toNat % 4 = 0)

/-- A refused access (R74): nothing is written, BUSERR is set, and the answer on the bus names the access. -/
def State.refuse (s : State) (a : Access) : State :=
  { s with status := { s.status with buserr := true }, busResp := .refused a }

/-- One host access, atomic with respect to the engine (R75). DESIGN CHOICE: whether an access is legal is decided before
whether a write is dropped or ignored; the spec gives no precedence. So a write outside R72 while BUSY = 1, which falls under R74
and R78 alike, sets BUSERR and leaves WBUSY (log entry 21); and a write outside R72 to a read-only register or field or to the
duplicate-table window, which falls under R74 and under R21 or R49 alike, sets BUSERR at any BUSY (log entry 22). -/
def State.hostAccess (s : State) (a : Access) : State :=
  if a.legal then
    match a with
    | .read8 off => { s with busResp := .data8 (s.readWindowByte off.toNat) }
    | .read32 off => { s with busResp := .data32 (s.readWord off.toNat) }
    | .write8 off v => { s.writeWindow off.toNat [v] with busResp := .ack }
    | .write32 off v => { s.writeWord off.toNat v with busResp := .ack }
    | .read16 _ => s.refuse a
    | .write16 _ _ => s.refuse a
  else s.refuse a

/-- The 32 bits an answer puts on the bus: a refused read returns 0 (R74). DESIGN CHOICE: the byte of an 8-bit read stands in bits
7:0 at every offset, with 0 above it, and the answer to a write, taken or refused, carries 0, as does a bus on which nothing has
been answered; the spec names no byte lanes and no data of a write's answer (log entry 23). -/
def BusResp.value : BusResp → Word
  | .silent => 0#32
  | .data8 v => v.zeroExtend 32
  | .data32 v => v
  | .ack => 0#32
  | .refused _ => 0#32

/-- TICK advances (R51). -/
def State.advanceTick (s : State) (n : Config.Tick) : State := { s with tick := s.tick + n }

end Sys2Proof.Machine
end

