-- ==== Sys2Proof/Machine/Callsign.lean ====
section
/-! DEFINITION. The callsign codec (spec/40_callsign.md). -/

namespace Sys2Proof.Machine

/-- The character at the head of the text is `c`; the end of the text is no character (END, R130). -/
def headIs (c : Byte) : List Byte → Bool
  | [] => false
  | x :: _ => x == c

/-- The SSID value of a digit run: `s <- (10·s + (at(j) - 0x30)) mod 16` from `s = 0` (R130). -/
def ssidOfDigits (ds : List Byte) : Nat := ds.foldl (fun n c => (10 * n + (c.toNat - 0x30)) % 16) 0

/-- Six callsign bytes from at most six characters: each shifted left by one bit, the rest shifted space (R96, R97). -/
def callByte (cs : List Byte) (i : Nat) : Byte :=
  match cs[i]? with
  | some c => c <<< 1
  | none => 0x40#8

/-- ENCODE on the text from the cursor on (R130): the packed field and the number of bytes consumed. -/
def encodeCall (encRR : BitVec 2) (t : List Byte) : Addr × Nat :=
  let cs := (t.take 6).takeWhile isAlnum
  let t1 := t.drop cs.length
  let ds := if headIs 0x2D#8 t1 then (t1.drop 1).takeWhile isDigit else []
  let n1 := if headIs 0x2D#8 t1 then 1 + ds.length else 0
  let h := headIs 0x2A#8 (t1.drop n1)
  let sb : Byte :=
    ((BitVec.ofBool h).zeroExtend 8 <<< 7) ||| (encRR.zeroExtend 8 <<< 5) ||| (BitVec.ofNat 8 (ssidOfDigits ds) <<< 1)
  (⟨callByte cs 0, callByte cs 1, callByte cs 2, callByte cs 3, callByte cs 4, callByte cs 5, sb⟩,
    cs.length + n1 + (if h then 1 else 0))

/-- Strips the spaces at the end (R131: "strip trailing pad"). -/
def stripPad (t : List Byte) : List Byte := (t.reverse.dropWhile (· == 0x20#8)).reverse

/-- DECODE (R131). -/
def decodeCall (A : Addr) : List Byte :=
  stripPad (A.call.map fun c : Byte => c >>> 1) ++ (if A.ssid = 0#4 then [] else 0x2D#8 :: dec A.ssid.toNat)

/-- CALL_DECODE (R132). -/
def execCallDecode (a : BitVec 8) (b : BitVec 16) (s : State) : Result :=
  if argsUsed a b then .next (s.fail .badArg)
  else
    let t := decodeCall s.callp
    .next { s with
      callTxt := t ++ List.replicate (9 - t.length) 0x00#8
      callInfo := { s.callInfo with tlen := BitVec.ofNat 4 t.length } }.complete

/-- CALL_ENCODE (R133); the checks in the order of R285. -/
def execCallEncode (a : BitVec 8) (cursor : BitVec 16) (s : State) : Result :=
  if a != 0#8 then .next (s.fail .badArg)
  else if decide (Config.tbufBytes < s.tlen.toNat) || decide (s.tlen.toNat < cursor.toNat) then .next (s.fail .badArg)
  else
    let r := encodeCall s.params.encRR (s.text.drop cursor.toNat)
    .next { s with
      callp := r.1
      callInfo := { s.callInfo with curOut := BitVec.ofNat 16 (cursor.toNat + r.2) } }.complete

end Sys2Proof.Machine
end

