-- ==== Sys2Proof/Machine/Control.lean ====
section
/-! DEFINITION. The control command NOP (spec/45_control.md R270). -/

namespace Sys2Proof.Machine

/-- NOP (R270). -/
def execNop (a : BitVec 8) (b : BitVec 16) (s : State) : Result :=
  if argsUsed a b then .next (s.fail .badArg) else .next s.complete

end Sys2Proof.Machine
end

