-- ==== Sys2Proof/Machine/Csma.lean ====
section
/-! DEFINITION. The channel-access arbiter (spec/44_csma.md). -/

namespace Sys2Proof.Machine

/-- Start of the wait (R251): STATUS.BUSY stays 1 and no completion happens. -/
def State.startWait (s : State) : State :=
  { s with arb := { idleCnt := 0#16, attempts := 0#8, state := .wait }, engine := .csmaWait }

/-- CSMA_ACQUIRE (R257): its execution step only starts the wait; sample events do the rest. -/
def execCsmaAcquire (a : BitVec 8) (b : BitVec 16) (s : State) : Result :=
  if argsUsed a b then .next (s.fail .badArg) else .next s.startWait

/-- `ATTEMPTS <- min(ATTEMPTS + 1, 255)` (R253). -/
def satIncr (n : Byte) : Byte := if n = 0xFF#8 then 0xFF#8 else n + 1#8

/-- Grant (R254): GRANT <- 1, CNT_GRANT counts, the arbiter is idle, and the command completes. -/
def State.grant (s : State) : State :=
  { s with
    status := { s.status with grant := true }
    cnt := { s.cnt with grant := s.cnt.grant + 1#32 }
    arb := { s.arb with state := .idle } }.complete

/-- The draw `r` exceeds the threshold (R253: the comparison is strict). -/
def drawGrants (persist r : Byte) : Bool := decide (persist.toNat < r.toNat)

/-- How many of the 256 values of a draw grant. With uniform draws, R258's probability of a grant is this number of 256ths. -/
def grantingDraws (persist : Byte) : Nat := (List.range 256).countP fun r => drawGrants persist (BitVec.ofNat 8 r)

/-- A draw of `r` (R253): the grant if `r > CFG.PERSIST` (R254), else a new slot (R255). -/
def State.drawChannel (s : State) (r : Byte) : State :=
  let s1 := { s with arb := { s.arb with attempts := satIncr s.arb.attempts } }
  if drawGrants s.cfg.persist r then s1.grant else { s1 with arb := { s1.arb with idleCnt := 0#16 } }

/-- One sample event with the sample `busy` and, if it draws, the draw `r` (R252). -/
def State.sampleChannel (s : State) (busy : Bool) (r : Byte) : State :=
  if busy then { s with arb := { s.arb with idleCnt := 0#16 } }
  else
    let s1 := { s with arb := { s.arb with idleCnt := s.arb.idleCnt + 1#16 } }
    if s1.arb.idleCnt = s.cfg.slotSamples then s1.drawChannel r else s1

/-- A sample event happens only while the arbiter waits (R252). -/
def State.sampleEvent (s : State) (busy : Bool) (r : Byte) : State :=
  match s.engine with
  | .csmaWait => s.sampleChannel busy r
  | .idle => s
  | .pending => s

/-- A sample event whose CS_BUSY and RND the schedule does not give: both are free values (R52, R53). -/
def State.freeSample (s : State) : State :=
  { s with samples := s.samples + 1 }.sampleEvent (Config.csBusy s.samples) (Config.rndDraw s.samples)

end Sys2Proof.Machine
end

