-- ==== Sys2Proof/Machine/DupCache.lean ====
section
/-! DEFINITION. The duplicate-suppression cache (spec/42_dupcache.md). -/

namespace Sys2Proof.Machine

/-! ### The checksum -/

/-- One pass of the inner loop of CRC on `(c, b)` (R180). -/
def crcBit (p : Half × Byte) : Half × Byte :=
  (if p.1.getLsbD 0 != p.2.getLsbD 0 then (p.1 >>> 1) ^^^ 0x8408#16 else p.1 >>> 1, p.2 >>> 1)

/-- Eight passes for one byte (R180). -/
def crcByte (c : Half) (b : Byte) : Half :=
  (crcBit (crcBit (crcBit (crcBit (crcBit (crcBit (crcBit (crcBit (c, b))))))))).1

/-- CRC(s) (R180): seed 0xFFFF, no final XOR. -/
def crc (s : List Byte) : Half := s.foldl crcByte 0xFFFF#16

/-! ### The table -/

/-- PASSED(d, now): `sext_32(d -32 now) < 0` (R181). -/
def passed (d now : Config.Tick) : Bool := decide ((d - now).toInt < 0)

/-- SWEEP(now) on one slot (R182). -/
def Slot.sweep (now : Config.Tick) (x : Slot) : Slot := if x.exp ≠ 0#32 ∧ passed x.exp now then Slot.empty else x

/-- SWEEP(now) (R182). -/
def sweepTable (now : Config.Tick) (t : List Slot) : List Slot := t.map (Slot.sweep now)

/-- LOOKUP(cs) (R183): the least index of a live slot with this checksum. -/
def lookupTable (cs : Half) (t : List Slot) : Option Nat := t.findIdx? fun x => x.exp != 0#32 && x.csum == cs

/-- `key(i) = sext_32(EXP[i] -32 now)` (R184). -/
def Slot.key (now : Config.Tick) (x : Slot) : Int := (x.exp - now).toInt

/-- The least index of a slot with the least key, and that key (R184). -/
def oldestSlot (now : Config.Tick) : List Slot → Option (Nat × Int)
  | [] => none
  | x :: rest =>
    match oldestSlot now rest with
    | none => some (0, x.key now)
    | some (j, k) => if x.key now ≤ k then some (0, x.key now) else some (j + 1, k)

/-- Which slot INSERT writes, and whether it evicts (R184): the least empty slot, else the oldest. -/
def insertIndex (now : Config.Tick) (t : List Slot) : Nat × Bool :=
  match t.findIdx? fun x => x.exp == 0#32 with
  | some i => (i, false)
  | none => (((oldestSlot now t).map Prod.fst).getD 0, true)

/-- The record INSERT writes (R184). A deadline that wraps to 0 is stored as computed (R325). -/
def newSlot (cs : Half) (now : Config.Tick) (window : Word) : Slot := ⟨cs, now + window⟩

/-- SWEEP(now) of the block's table (R182). -/
def State.sweep (s : State) : State := { s with table := sweepTable s.now s.table }

/-- INSERT(cs, now) into the block's table (R184). -/
def State.insert (s : State) (cs : Half) : State :=
  { s with table := s.table.set (insertIndex s.now s.table).1 (newSlot cs s.now s.dupWindow) }

/-! ### The commands -/

/-- CRC16 (R186). -/
def execCrc16 (a : BitVec 8) (b : BitVec 16) (s : State) : Result :=
  if argsUsed a b then .next (s.fail .badArg)
  else if !s.regionLegal then .next (s.fail .badArg)
  else .next { s with crcRes := crc s.region }.complete

/-- The DUP_RES of a lookup that found `r` (R187). -/
def dupResOfLookup (r : Option Nat) (cs : Half) : DupRes :=
  { hit := r.isSome, recorded := false, evicted := false, slot := BitVec.ofNat 4 (r.getD 0), csum := cs }

/-- The DUP_RES of a record made in slot `p.1` (R188). -/
def dupResOfInsert (p : Nat × Bool) (cs : Half) : DupRes :=
  { hit := false, recorded := true, evicted := p.2, slot := BitVec.ofNat 4 p.1, csum := cs }

/-- DUP_CHECK (R187). -/
def execDupCheck (a : BitVec 8) (b : BitVec 16) (s : State) : Result :=
  if argsUsed a b then .next (s.fail .badArg)
  else if !s.regionLegal then .next (s.fail .badArg)
  else
    let cs := crc s.region
    let s1 := s.sweep
    .next { s1 with dupRes := dupResOfLookup (lookupTable cs s1.table) cs }.complete

/-- DUP_RECORD (R188). -/
def execDupRecord (a : BitVec 8) (b : BitVec 16) (s : State) : Result :=
  if argsUsed a b then .next (s.fail .badArg)
  else if !s.regionLegal then .next (s.fail .badArg)
  else
    let cs := crc s.region
    let s1 := s.sweep
    .next { s1.insert cs with dupRes := dupResOfInsert (insertIndex s1.now s1.table) cs }.complete

/-- DUP_CHECK_RECORD (R189). -/
def execDupCheckRecord (a : BitVec 8) (b : BitVec 16) (s : State) : Result :=
  if argsUsed a b then .next (s.fail .badArg)
  else if !s.regionLegal then .next (s.fail .badArg)
  else
    let cs := crc s.region
    let s1 := s.sweep
    match lookupTable cs s1.table with
    | some i => .next { s1 with dupRes := dupResOfLookup (some i) cs }.complete
    | none => .next { s1.insert cs with dupRes := dupResOfInsert (insertIndex s1.now s1.table) cs }.complete

end Sys2Proof.Machine
end

