-- ==== Sys2Proof/Machine/Frame.lean ====
section
/-! DEFINITION. The frame parser and the codec between the binary frame and monitor text (spec/41_frame.md). -/

namespace Sys2Proof.Machine

/-- The least index below `n` whose byte of FBUF has bit 0 set (R150, R99). -/
def State.firstTerminal (s : State) (n : Nat) : Option Nat := (List.range n).find? fun i => (s.fb i).getLsbD 0

/-- VALIDATE (R150): the number of address fields, or the first failing check's error. PAY_IDX is `7 * NADDR + 2`. -/
def State.validate (s : State) : Except FrameErr Nat :=
  let flen := s.flen.toNat
  if s.params.maxFrameLen < flen then .error .tooLong
  else if flen < Config.minFrameLen then .error .tooShort
  else
    match s.firstTerminal flen with
    | none => .error .noTerminal
    | some i =>
      let naddr := (i + 1) / 7
      if (i + 1) % 7 ≠ 0 then .error .misaligned
      else if naddr < 2 then .error .tooFewAddr
      else if Config.maxAddr < naddr then .error .tooManyAddr
      else if flen < 7 * naddr + 2 then .error .tooShort
      else if s.fb (7 * naddr) ≠ 0x03#8 then .error .notUi
      else .ok naddr

/-- PAY_IDX of a frame with `naddr` address fields (R40, R150). -/
def payIdxOf (naddr : Nat) : Nat := 7 * naddr + 2

/-- FRAME_VALIDATE (R151). -/
def execFrameValidate (a : BitVec 8) (b : BitVec 16) (s : State) : Result :=
  if argsUsed a b then .next (s.fail .badArg)
  else
    match s.validate with
    | .error e => .next (s.fail (.frame e))
    | .ok naddr => .next (s.setHeader naddr (payIdxOf naddr)).complete

/-- The text of path entry `k` in monitor text: its comma, its callsign and its `*` if H = 1 (R152). -/
def State.pathText (s : State) (k : Nat) : List Byte :=
  0x2C#8 :: decodeCall (s.field k) ++ (if (s.field k).h then [0x2A#8] else [])

/-- F2T (R152) of a frame with `naddr` address fields. -/
def State.monitorText (s : State) (naddr : Nat) : List Byte :=
  decodeCall (s.field 1) ++ 0x3E#8 :: decodeCall (s.field 0)
    ++ ((List.range (naddr - 2)).map fun j => s.pathText (j + 2)).flatten
    ++ 0x3A#8 :: s.payload (payIdxOf naddr)

/-- FRAME_TO_TEXT (R153). -/
def execFrameToText (a : BitVec 8) (b : BitVec 16) (s : State) : Result :=
  if argsUsed a b then .next (s.fail .badArg)
  else
    match s.validate with
    | .error e => .next (s.fail (.frame e))
    | .ok naddr =>
      let t := s.monitorText naddr
      if Config.tbufBytes < t.length then .next (s.fail .textOverflow)
      else .next ({ s.setTb 0 t with tlen := BitVec.ofNat 16 t.length }.setHeader naddr (payIdxOf naddr)).complete

/-- The path loop of T2F (R154) on the text after `>`: it answers the address fields and the payload. A character that is
neither `,` nor `:` is passed over. -/
def pathLoop (encRR : BitVec 2) : List Addr → List Byte → Except ErrCode (List Addr × List Byte)
  | _, [] => .error .encNoColon
  | addrs, c :: rest =>
    if c = 0x3A#8 then .ok (addrs, rest)
    else if c = 0x2C#8 then
      if addrs.length = Config.maxAddr then .error .encTooManyPath
      else pathLoop encRR (addrs ++ [(encodeCall encRR rest).1]) rest
    else pathLoop encRR addrs rest

/-- Sets the end-of-field bit of the last address and of no other (R154). -/
def markLast : List Addr → List Addr
  | [] => []
  | [A] => [{ A with sb := setE A.sb }]
  | A :: B :: rest => A :: markLast (B :: rest)

/-- T2F (R154): the number of address fields and the frame. -/
def frameOfText (encRR : BitVec 2) (maxFrameLen : Nat) (t : List Byte) : Except ErrCode (Nat × List Byte) :=
  match t.findIdx? (· == 0x3E#8) with
  | none => .error .encNoGt
  | some g =>
    let src := (encodeCall encRR t).1
    let dst := (encodeCall encRR (t.drop (g + 1))).1
    match pathLoop encRR [{ dst with sb := clearH dst.sb }, { src with sb := clearH src.sb }] (t.drop (g + 1)) with
    | .error e => .error e
    | .ok (addrs, pay) =>
      let f := ((markLast addrs).map Addr.bytes).flatten ++ [0x03#8, 0xF0#8] ++ pay
      if maxFrameLen < f.length then .error .encFrameOverflow else .ok (addrs.length, f)

/-- TEXT_TO_FRAME (R155). -/
def execTextToFrame (a : BitVec 8) (b : BitVec 16) (s : State) : Result :=
  if argsUsed a b then .next (s.fail .badArg)
  else if Config.tbufBytes < s.tlen.toNat then .next (s.fail .badArg)
  else
    match frameOfText s.params.encRR s.params.maxFrameLen s.text with
    | .error e => .next (s.fail e)
    | .ok (naddr, f) =>
      .next ({ s.setFb 0 f with flen := BitVec.ofNat 16 f.length }.setHeader naddr (payIdxOf naddr)).complete

end Sys2Proof.Machine
end

