-- ==== Sys2Proof/Machine/Digipeat.lean ====
section
/-! DEFINITION. The digipeat rule engine and the path mutator (spec/43_digipeat.md). -/

namespace Sys2Proof.Machine

/-! ### Path mutation -/

/-- INSERT_NODE(K) (R224): clears E on the preceding entry, shifts the tail up by 7, writes the node's entry, grows FLEN. -/
def State.insertNode (s : State) (k : Nat) : State :=
  let e := (s.fb (7 * k - 1)).getLsbD 0
  let tail := s.fbs (7 * k) (s.flen.toNat - 7 * k)
  let s1 := s.setFb (7 * k - 1) [clearE (s.fb (7 * k - 1))]
  let s2 := s1.setFb (7 * k + 7) tail
  let s3 := s2.setFb (7 * k) (nodeEntry s.node e).bytes
  { s3 with flen := s.flen + 7#16 }

/-- OVERWRITE_NODE(k) (R231). -/
def State.overwriteNode (s : State) (k : Nat) : State := s.setFb (7 * k) (nodeEntry s.node (s.field k).e).bytes

/-- `ssid(field(k)) <- n`: only FB(7k+6)[4:1] changes (R225, R229). -/
def State.setSsid (s : State) (k : Nat) (n : BitVec 4) : State := s.setFb (7 * k + 6) [withSsid (s.fb (7 * k + 6)) n]

/-- The bounds check before an insertion into a frame of `naddr` address fields (R222, R234): what forbids it. -/
inductive RoomErr where
  | pathFull | frameOverflow
  deriving DecidableEq, Repr

/-- R222: first the path, then the frame length. -/
def State.noRoom (s : State) (naddr : Nat) : Option RoomErr :=
  if naddr - 2 = Config.maxPath then some .pathFull
  else if s.params.maxFrameLen < s.flen.toNat + 7 then some .frameOverflow
  else none

/-- ERRCODE of a failed bounds check (R234). -/
def RoomErr.errCode : RoomErr → ErrCode
  | .pathFull => .pathFull
  | .frameOverflow => .frameOverflow

/-- DIGI_RES.REASON of a failed bounds check (R222). -/
def RoomErr.reason : RoomErr → Reason
  | .pathFull => .pathFull
  | .frameOverflow => .frameOverflow

/-- The insertion point from `k` on (R223): skips entries with H = 1 while the entry before has E = 0. `fuel` bounds the walk by
the number of address fields; a valid frame's last E bit ends it before. -/
def State.insertionPoint (s : State) : Nat → Nat → Nat
  | 0, k => k
  | fuel + 1, k => if !(s.field (k - 1)).e && (s.field k).h then s.insertionPoint fuel (k + 1) else k

/-! ### What the steps test -/

/-- Step 2 (R213): the frame's source is the node, its SSID bytes compared under SELF_MASK. -/
def State.isSelf (s : State) : Bool :=
  (s.field 1).call == s.node.call && ((s.field 1).sb &&& s.params.selfMask) == (s.node.sb &&& s.params.selfMask)

/-- pad9(t): spaces up to nine bytes (R215). -/
def pad9 (t : List Byte) : List Byte := t ++ List.replicate (9 - t.length) 0x20#8

/-- MSGPFX of a node (R215). -/
def messagePrefix (node : Addr) : List Byte := 0x3A#8 :: pad9 (decodeCall node) ++ [0x3A#8]

/-- The pattern `?APRS?` (R220). -/
def beaconPattern : List Byte := [0x3F#8, 0x41#8, 0x50#8, 0x52#8, 0x53#8, 0x3F#8]

/-- `t` begins with `p` (R216, R220). -/
def startsWith (t p : List Byte) : Bool := t.take p.length == p

/-- The ACK tag of a message remainder (R219): the index of the `{` (0x7B) and the number of digits after it. -/
def ackTag : List Byte → Option (Nat × Nat)
  | [] => none
  | c :: rest =>
    if c == 0x7B#8 && (rest.head?.any isDigit) then some (0, (rest.takeWhile isDigit).length)
    else (ackTag rest).map fun p => (p.1 + 1, p.2)

/-- The candidate of step 8 (R227): the first path entry with H = 0. -/
def State.candidate (s : State) (naddr : Nat) : Option Nat :=
  (List.range' 2 (naddr - 2)).find? fun k => !(s.field k).h

/-- WIDE match (R228): `W` is WIDEn with 1 ≤ n ≤ wmax, and its SSID N has 1 ≤ N ≤ wmax and N ≤ n. -/
def wideMatch (wmax : BitVec 4) (W : Addr) : Bool :=
  let c := W.c4 >>> 1
  let n := c.toNat - 0x30
  let N := W.ssid.toNat
  W.c0 == 0xAE#8 && W.c1 == 0x92#8 && W.c2 == 0x88#8 && W.c3 == 0x8A#8
    && isDigit c && decide (0x31 ≤ c.toNat) && decide (c.toNat ≤ 0x30 + wmax.toNat)
    && W.c5 == 0x40#8
    && decide (1 ≤ N) && decide (N ≤ wmax.toNat) && decide (N ≤ n)

/-! ### How the rule engine ends -/

/-- A drop (R211 to R214, R222, R226 to R228); with BEACON_REQ = 1 it becomes BEACON_TRIGGER and keeps its reason (R232). -/
def State.digiDrop (s : State) (beacon : Bool) (r : Reason) : State :=
  { s with
    digiRes := { DigiRes.zero with
      verdict := if beacon then .beaconTrigger else .drop
      reason := r
      beaconReq := beacon } }

/-- A directed message to the node (R216 to R219); `p` is PAY_IDX. -/
def State.digiMessage (s : State) (p : Nat) : State :=
  let rem := s.payload (p + 11)
  let tag := ackTag rem
  { s with
    digiRes := { DigiRes.zero with verdict := .message, ackFound := tag.isSome }
    msgInfo := { remIdx := BitVec.ofNat 16 (p + 11), remLen := BitVec.ofNat 16 (s.flen.toNat - (p + 11)) }
    ackInfo :=
      match tag with
      | some (j, n) => { idx := BitVec.ofNat 16 (p + 11 + j + 1), len := BitVec.ofNat 8 n }
      | none => { idx := 0#16, len := 0#8 } }

/-- The end of every digipeat (R225, R229, R230) on the mutated frame: the checksum is recorded, the results are written and
CNT_DIGI counts. -/
def State.digiRepeat (s : State) (cs : Half) (beacon : Bool) (r : Reason) (grew : Bool) (k : Nat) : State :=
  { s.insert cs with
    digiRes :=
      { verdict := .digipeat, reason := r, beaconReq := beacon, ackFound := false, grew := grew, dupRecorded := true,
        field := BitVec.ofNat 4 k }
    cnt := { s.cnt with digi := s.cnt.digi + 1#32 } }

/-- Inserts the node as field `k` of a frame of `naddr` address fields and describes the grown frame (R224, R212). -/
def State.grow (s : State) (naddr k : Nat) : State :=
  (s.insertNode k).setHeader (naddr + 1) (payIdxOf (naddr + 1))

/-- Step 6 (R225). -/
def State.digiDest (s : State) (naddr : Nat) (cs : Half) (beacon : Bool) : State :=
  match s.noRoom naddr with
  | some e => s.digiDrop beacon e.reason
  | none =>
    let s1 := s.setSsid 0 ((s.field 0).ssid - 1#4)
    let k := s1.insertionPoint naddr 2
    (s1.grow naddr k).digiRepeat cs beacon .destSsid true k

/-- Step 8 on a matching candidate `k` (R229, R230). -/
def State.digiWide (s : State) (naddr k : Nat) (cs : Half) (beacon : Bool) : State :=
  let n := (s.field k).ssid
  if n - 1#4 ≠ 0#4 then
    match s.noRoom naddr with
    | some e => s.digiDrop beacon e.reason
    | none => ((s.setSsid k (n - 1#4)).grow naddr k).digiRepeat cs beacon .wideInsert true k
  else (s.overwriteNode k).digiRepeat cs beacon .wideOverwrite false k

/-- Steps 6 to 8 (R221 to R232). -/
def State.digiRules (s : State) (naddr : Nat) (cs : Half) (beacon : Bool) : State :=
  let d := (s.field 0).ssid
  if d ≠ 0#4 ∧ d.toNat ≤ s.cfg.widenMax.toNat then s.digiDest naddr cs beacon
  else if naddr = 2 then s.digiDrop beacon .noPath
  else
    match s.candidate naddr with
    | none => s.digiDrop beacon .noRule
    | some k =>
      if wideMatch s.cfg.widenMax (s.field k) then s.digiWide naddr k cs beacon
      else s.digiDrop beacon .noRule

/-- Steps 2 to 8 on an accepted frame of `naddr` address fields (R213 to R232). -/
def State.digiAccepted (s : State) (naddr : Nat) : State :=
  if s.isSelf then s.digiDrop false .selfFrame
  else
    let pay := s.payload (payIdxOf naddr)
    let cs := crc pay
    let s1 := s.sweep
    match lookupTable cs s1.table with
    | some _ => s1.digiDrop false .duplicate
    | none =>
      if startsWith pay (messagePrefix s1.node) then s1.digiMessage (payIdxOf naddr)
      else s1.digiRules naddr cs (startsWith pay beaconPattern)

/-- DIGI_PROCESS's first writes: MSG_INFO <- 0 and ACK_INFO <- 0 (R233). -/
def State.clearMessage (s : State) : State := { s with msgInfo := ⟨0#16, 0#16⟩, ackInfo := ⟨0#16, 0#8⟩ }

/-- Step 1 accepted the frame: it is counted and described (R212). -/
def State.digiCount (s : State) (naddr : Nat) : State :=
  { s with cnt := { s.cnt with rx := s.cnt.rx + 1#32 } }.setHeader naddr (payIdxOf naddr)

/-- DIGI_PROCESS (R233). Every outcome of the rules is a verdict and no error (R286). -/
def execDigiProcess (a : BitVec 8) (b : BitVec 16) (s : State) : Result :=
  if argsUsed a b then .next (s.fail .badArg)
  else
    match s.validate with
    | .error e => .next (s.clearMessage.digiDrop false (.frame e)).complete
    | .ok naddr => .next ((s.clearMessage.digiCount naddr).digiAccepted naddr).complete

/-- PATH_INSERT_NODE (R234); the checks in the order of R285. -/
def execPathInsertNode (k : BitVec 8) (b : BitVec 16) (s : State) : Result :=
  if b != 0#16 then .next (s.fail .badArg)
  else
    match s.validate with
    | .error e => .next (s.fail (.frame e))
    | .ok naddr =>
      if k.toNat < 2 ∨ naddr < k.toNat then .next (s.fail .badArg)
      else
        match s.noRoom naddr with
        | some e => .next (s.fail e.errCode)
        | none => .next (s.grow naddr k.toNat).complete

/-- PATH_OVERWRITE_NODE (R235); the checks in the order of R285. -/
def execPathOverwriteNode (k : BitVec 8) (b : BitVec 16) (s : State) : Result :=
  if b != 0#16 then .next (s.fail .badArg)
  else
    match s.validate with
    | .error e => .next (s.fail (.frame e))
    | .ok naddr =>
      if k.toNat < 2 ∨ naddr - 1 < k.toNat then .next (s.fail .badArg)
      else .next ((s.overwriteNode k.toNat).setHeader naddr (payIdxOf naddr)).complete

end Sys2Proof.Machine
end

