-- ==== Sys2Proof/Machine/Dispatch.lean ====
section
/-! DEFINITION. Which meaning each command has (spec/30_encoding.md R92). -/

namespace Sys2Proof.Machine

def exec (i : Instr) (s : State) : Host.Outcome State Fault Refusal :=
  match i with
  | .nop a b => Sys2Proof.Machine.execNop a b s
  | .callDecode a b => Sys2Proof.Machine.execCallDecode a b s
  | .callEncode a c => Sys2Proof.Machine.execCallEncode a c s
  | .frameValidate a b => Sys2Proof.Machine.execFrameValidate a b s
  | .frameToText a b => Sys2Proof.Machine.execFrameToText a b s
  | .textToFrame a b => Sys2Proof.Machine.execTextToFrame a b s
  | .crc16 a b => Sys2Proof.Machine.execCrc16 a b s
  | .dupCheck a b => Sys2Proof.Machine.execDupCheck a b s
  | .dupRecord a b => Sys2Proof.Machine.execDupRecord a b s
  | .dupCheckRecord a b => Sys2Proof.Machine.execDupCheckRecord a b s
  | .digiProcess a b => Sys2Proof.Machine.execDigiProcess a b s
  | .pathInsertNode k b => Sys2Proof.Machine.execPathInsertNode k b s
  | .pathOverwriteNode k b => Sys2Proof.Machine.execPathOverwriteNode k b s
  | .csmaAcquire a b => Sys2Proof.Machine.execCsmaAcquire a b s

end Sys2Proof.Machine
end

