-- ==== Sys2Proof/Machine/Step.lean ====
section
/-! DEFINITION. One step of the block: the next event of the schedule, or a move of the block's own agents. -/

namespace Sys2Proof.Machine

/-- The engine's step on a pending command (R116): latch the tick, decode PEND, run the command; a reserved OPC completes with
BAD_OPCODE (R93). -/
def runPending (s : State) : Host.Outcome State Fault Refusal :=
  match decode s.pend with
  | .ok i => exec i s.latchTick
  | .error _ => .next s.latchTick.failReserved

/-- The engine's step, enabled when ENGINE = PENDING (R116). -/
def engineStep (s : State) : Host.Outcome State Fault Refusal :=
  match s.engine with
  | .pending => runPending s
  | .idle => .next s
  | .csmaWait => .next s

/-- One event. -/
def eventStep (e : Event) (s : State) : Host.Outcome State Fault Refusal :=
  match e with
  | .host a => .next (s.hostAccess a)
  | .engine => engineStep s
  | .sample busy r => .next (s.sampleEvent busy r)
  | .tick n => .next (s.advanceTick n)
  | .hardReset => .next s.hardReset

/-- With no event scheduled the block goes on by itself: a pending command runs (R116), a waiting arbiter samples (R252), an
idle block waits for a CMD write (R317). -/
def ownStep (s : State) : Host.Outcome State Fault Refusal :=
  match s.engine with
  | .pending => runPending s
  | .csmaWait => .next s.freeSample
  | .idle => .next s

/-- One step of the block (log entry 1). -/
def step (s : State) : Host.Outcome State Fault Refusal :=
  match s.schedule with
  | [] => ownStep s
  | e :: rest => eventStep e { s with schedule := rest }

/-- `s` with the command word `w` issued (R113) and the engine's step as the next event (log entry 2). -/
def State.withFetchWord (s : State) (nbits w : Nat) : State :=
  { s.issue (BitVec.ofNat 32 (w % 2 ^ nbits)) with schedule := .engine :: s.schedule }

end Sys2Proof.Machine
end

