-- ==== Sys2Proof/Safety.lean ====
section
/-! DEFINITION. The terms the claims are stated in: the two ends of a command, what a valid frame is, what the rule engine has
established when it reaches its rules, what a path mutation leaves in every byte, and the invariant of the block. Each is
written from the rules in its own words, not by calling the meaning it is used to judge. -/

namespace Sys2Proof.Spec

open Sys2Proof.Machine

/-! ### The two ends of a command (R114, R280) -/

/-- `s` after `complete()`: ERR = 0, ERRCODE = 0x00, DONE = 1, BUSY = 0, ENGINE = IDLE, and nothing else changed. -/
def completed (s : State) : State :=
  { s with
    status := { s.status with busy := false, done := true, err := false, errcode := .noError }
    engine := .idle }

/-- `s` after `fail(code)`: ERR = 1, ERRCODE = code, DONE = 1, BUSY = 0, ENGINE = IDLE, and nothing else changed (R284). -/
def failed (s : State) (code : ErrCode) : State :=
  { s with
    status := { s.status with busy := false, done := true, err := true, errcode := code }
    engine := .idle }

/-- The error codes a command with this opcode can end with (R282), and NONE. -/
def raises (opc : Byte) : List ErrCode :=
  let frameCodes : List ErrCode :=
    [.frame .tooShort, .frame .noTerminal, .frame .misaligned, .frame .tooFewAddr, .frame .tooManyAddr, .frame .notUi,
      .frame .tooLong]
  if opc ∈ [0x00#8, 0x01#8, 0x30#8, 0x40#8, 0x02#8, 0x20#8, 0x21#8, 0x22#8, 0x23#8] then [.noError, .badArg]
  else if opc ∈ [0x10#8, 0x32#8] then [.noError, .badArg] ++ frameCodes
  else if opc = 0x11#8 then [.noError, .badArg, .textOverflow] ++ frameCodes
  else if opc = 0x12#8 then [.noError, .badArg, .encNoGt, .encNoColon, .encTooManyPath, .encFrameOverflow]
  else if opc = 0x31#8 then [.noError, .badArg, .pathFull, .frameOverflow] ++ frameCodes
  else [.badOpcode]

/-! ### Frames (R150, R104) -/

/-- Byte `i` of FBUF is the first byte of FB[0 .. FLEN) with bit 0 set (R150). -/
def FirstTerminal (s : State) (i : Nat) : Prop :=
  i < s.flen.toNat ∧ (s.fb i).getLsbD 0 = true ∧ ∀ j, j < i → (s.fb j).getLsbD 0 = false

/-- FB[0 .. FLEN) is a valid frame of `n` address fields (R150). -/
structure FrameShape (s : State) (n : Nat) : Prop where
  notLong : s.flen.toNat ≤ s.params.maxFrameLen
  notShort : 16 ≤ s.flen.toNat
  terminal : FirstTerminal s (7 * n - 1)
  minAddr : 2 ≤ n
  maxAddr : n ≤ 10
  whole : 7 * n + 2 ≤ s.flen.toNat
  control : s.fb (7 * n) = 0x03#8

/-- The conditions of R150's error codes, each with the negation of the checks before it. -/
def FrameError (s : State) : FrameErr → Prop
  | .tooLong => s.params.maxFrameLen < s.flen.toNat
  | .tooShort =>
    s.flen.toNat ≤ s.params.maxFrameLen ∧
      (s.flen.toNat < 16 ∨ ∃ n, 2 ≤ n ∧ n ≤ 10 ∧ 16 ≤ s.flen.toNat ∧ FirstTerminal s (7 * n - 1) ∧ s.flen.toNat < 7 * n + 2)
  | .noTerminal =>
    s.flen.toNat ≤ s.params.maxFrameLen ∧ 16 ≤ s.flen.toNat ∧ ∀ j, j < s.flen.toNat → (s.fb j).getLsbD 0 = false
  | .misaligned =>
    s.flen.toNat ≤ s.params.maxFrameLen ∧ 16 ≤ s.flen.toNat ∧ ∃ i, FirstTerminal s i ∧ (i + 1) % 7 ≠ 0
  | .tooFewAddr => s.flen.toNat ≤ s.params.maxFrameLen ∧ 16 ≤ s.flen.toNat ∧ FirstTerminal s 6
  | .tooManyAddr =>
    s.flen.toNat ≤ s.params.maxFrameLen ∧ 16 ≤ s.flen.toNat ∧ ∃ n, 10 < n ∧ FirstTerminal s (7 * n - 1)
  | .notUi =>
    s.flen.toNat ≤ s.params.maxFrameLen ∧ 16 ≤ s.flen.toNat ∧
      ∃ n, 2 ≤ n ∧ n ≤ 10 ∧ FirstTerminal s (7 * n - 1) ∧ 7 * n + 2 ≤ s.flen.toNat ∧ s.fb (7 * n) ≠ 0x03#8

/-- The invariant of R104 on `n` address fields: exactly the last one has its E bit set. -/
def LastOnly (s : State) (n : Nat) : Prop := ∀ k, k < n → (s.field k).e = decide (k = n - 1)

/-- `s` with HDR_INFO and PAY_LEN describing a frame of `n` address fields (R40, R41). -/
def described (s : State) (n : Nat) : State :=
  { s with
    hdr := ⟨BitVec.ofNat 8 n, BitVec.ofNat 8 (n - 2), BitVec.ofNat 16 (7 * n + 2)⟩
    payLen := BitVec.ofNat 16 (s.flen.toNat - (7 * n + 2)) }

/-! ### Text -/

/-- The characters of a natural's decimal spelling, without leading zeros (R10). -/
def decimal (n : Nat) : List Byte := (Nat.toDigits 10 n).map fun c => BitVec.ofNat 8 c.toNat

/-- The value of a run of decimal digits. -/
def digitsValue (ds : List Byte) : Nat := Nat.ofDigits 10 (ds.reverse.map fun c => c.toNat - 0x30)

/-- Upper-case letters and digits (R134, R156). -/
def isUpperOrDigit (c : Byte) : Bool :=
  (decide (0x30 ≤ c.toNat) && decide (c.toNat ≤ 0x39)) || (decide (0x41 ≤ c.toNat) && decide (c.toNat ≤ 0x5A))

/-- A canonical callsign text: `call`, and `-dec(ssid)` when `ssid` is not 0 (R107, R156). -/
structure CallText where
  call : List Byte
  ssid : Nat
  deriving DecidableEq, Repr

/-- 0 to 6 upper-case letters and digits, and an SSID of 0 to 15 (R156). -/
def CallText.canonical (c : CallText) : Prop :=
  c.call.length ≤ 6 ∧ (∀ x ∈ c.call, isUpperOrDigit x = true) ∧ c.ssid < 16

/-- The characters of a canonical callsign text (R107). -/
def CallText.chars (c : CallText) : List Byte := c.call ++ (if c.ssid = 0 then [] else 0x2D#8 :: decimal c.ssid)

/-- Monitor text `SRC>DST,PATH*:payload` (R106); a path entry comes with whether it carries `*`. -/
def monitorText (src dst : CallText) (path : List (CallText × Bool)) (payload : List Byte) : List Byte :=
  src.chars ++ 0x3E#8 :: dst.chars
    ++ path.flatMap (fun p => 0x2C#8 :: p.1.chars ++ (if p.2 then [0x2A#8] else []))
    ++ 0x3A#8 :: payload

/-! ### The duplicate table -/

/-- The deadline `d` lies strictly before `now` in wraparound order (R181): `d - now` modulo 2^32 is at least 2^31. -/
abbrev expired (d now : Word) : Prop := 2 ^ 31 ≤ (d.toNat + 2 ^ 32 - now.toNat) % 2 ^ 32

/-- The table after SWEEP(now) (R182). -/
def swept (now : Word) (t : List Slot) : List Slot :=
  t.map fun x => if x.exp ≠ 0#32 ∧ expired x.exp now then ⟨0#16, 0#32⟩ else x

/-- Slot `i` of the table is live and holds this checksum (R183). -/
def LiveAt (t : List Slot) (cs : Half) (i : Nat) : Prop := ∃ x, t[i]? = some x ∧ x.exp ≠ 0#32 ∧ x.csum = cs

/-- Slot `i` is the first empty slot (R184). -/
def FirstEmpty (t : List Slot) (i : Nat) : Prop :=
  (∃ x, t[i]? = some x ∧ x.exp = 0#32) ∧ ∀ j x, j < i → t[j]? = some x → x.exp ≠ 0#32

/-- No slot is empty and slot `i` is the one with the oldest deadline, the first of equals (R184). -/
def Oldest (t : List Slot) (now : Word) (i : Nat) : Prop :=
  (∀ x ∈ t, x.exp ≠ 0#32) ∧
    ∃ x, t[i]? = some x ∧
      ∀ j y, t[j]? = some y →
        (x.exp - now).toInt ≤ (y.exp - now).toInt ∧ ((y.exp - now).toInt = (x.exp - now).toInt → i ≤ j)

/-- INSERT writes slot `i`, evicting iff `ev` (R184). -/
def InsertsAt (t : List Slot) (now : Word) (i : Nat) (ev : Bool) : Prop :=
  (ev = false ∧ FirstEmpty t i) ∨ (ev = true ∧ Oldest t now i)

/-! ### The rule engine -/

/-- The payload of a frame of `n` address fields (R211). -/
def payloadOf (s : State) (n : Nat) : List Byte := s.fbs (7 * n + 2) (s.flen.toNat - (7 * n + 2))

/-- Step 2 does not apply (R213). -/
def NotSelf (s : State) : Prop :=
  ¬ ((s.field 1).call = s.node.call ∧ (s.field 1).sb &&& s.params.selfMask = s.node.sb &&& s.params.selfMask)

/-- The node's 11-byte message prefix (R215): `:`, the node's text padded with spaces to nine bytes, `:`. -/
def msgPfx (node : Addr) : List Byte :=
  [0x3A#8] ++ decodeCall node ++ List.replicate (9 - (decodeCall node).length) 0x20#8 ++ [0x3A#8]

/-- The payload begins with `?APRS?` (R220). -/
def isQuery (pay : List Byte) : Bool := [0x3F#8, 0x41#8, 0x50#8, 0x52#8, 0x53#8, 0x3F#8].isPrefixOf pay

/-- `s` after step 1 of DIGI_PROCESS accepted a frame of `n` address fields (R212, R233). -/
def accepted (s : State) (n : Nat) : State :=
  { described s n with
    msgInfo := ⟨0#16, 0#16⟩
    ackInfo := ⟨0#16, 0#8⟩
    cnt := { s.cnt with rx := s.cnt.rx + 1#32 } }

/-- Steps 1 to 4 let the frame pass (R211 to R216): it is valid, not the node's own, its payload's checksum is in no live slot
after the sweep, and it is no message to the node. -/
structure ReachesRules (s : State) (n : Nat) : Prop where
  shape : FrameShape s n
  notSelf : NotSelf s
  fresh : ∀ i, ¬ LiveAt (swept s.tickSnap s.table) (crc (payloadOf s n)) i
  notMessage : ¬ msgPfx s.node <+: payloadOf s n

/-- Step 6 applies (R221). -/
def DestApplies (s : State) : Prop := 0 < (s.field 0).ssid.toNat ∧ (s.field 0).ssid.toNat ≤ s.cfg.widenMax.toNat

/-- An insertion into a frame of `n` address fields has room (R222). -/
def HasRoom (s : State) (n : Nat) : Prop := n - 2 < 8 ∧ s.flen.toNat + 7 ≤ s.params.maxFrameLen

/-- `k` is the insertion point of step 6 in a frame of `n` address fields (R223): the first path index whose entry has H = 0,
or `n` when every path entry has H = 1. -/
def InsertionPoint (s : State) (n k : Nat) : Prop :=
  2 ≤ k ∧ k ≤ n ∧ (∀ j, 2 ≤ j → j < k → (s.field j).h = true) ∧ (k < n → (s.field k).h = false)

/-- `k` is the candidate of step 8 in a frame of `n` address fields (R227). -/
def Candidate (s : State) (n k : Nat) : Prop :=
  2 ≤ k ∧ k < n ∧ (s.field k).h = false ∧ ∀ j, 2 ≤ j → j < k → (s.field j).h = true

/-- The address is WIDEn-N with 1 ≤ n ≤ wmax and 1 ≤ N ≤ n (R228). In a valid frame the callsign bytes are shifted
characters, so `n` is a digit of the fifth. -/
def IsWide (wmax : BitVec 4) (A : Addr) (n : Nat) : Prop :=
  1 ≤ n ∧ n ≤ 9 ∧ n ≤ wmax.toNat ∧
    A.call = [0xAE#8, 0x92#8, 0x88#8, 0x8A#8, BitVec.ofNat 8 (2 * (0x30 + n)), 0x40#8] ∧
    1 ≤ A.ssid.toNat ∧ A.ssid.toNat ≤ n

/-- The SSID byte of the node as a path entry with E = e (R224, R231): bits 6:1 of NODE[6], H = 1. -/
def nodeSsid (node : Addr) (e : Bool) : Byte := (node.sb &&& 0x7E#8) ||| (if e then 0x81#8 else 0x80#8)

/-- Byte `j` of FBUF after INSERT_NODE(K) (R224). -/
def insertedByte (s : State) (K j : Nat) : Byte :=
  if j = 7 * K - 1 then s.fb j &&& 0xFE#8
  else if j < 7 * K then s.fb j
  else if j < 7 * K + 6 then s.node.call.getD (j - 7 * K) 0#8
  else if j = 7 * K + 6 then nodeSsid s.node ((s.fb (7 * K - 1)).getLsbD 0)
  else if j < s.flen.toNat + 7 then s.fb (j - 7)
  else s.fb j

/-- Byte `j` of FBUF after OVERWRITE_NODE(k) (R231). -/
def overwrittenByte (s : State) (k j : Nat) : Byte :=
  if j < 7 * k then s.fb j
  else if j < 7 * k + 6 then s.node.call.getD (j - 7 * k) 0#8
  else if j = 7 * k + 6 then nodeSsid s.node ((s.fb (7 * k + 6)).getLsbD 0)
  else s.fb j

/-! ### The checksum -/

/-- The bits of a byte sequence in the order CRC takes them: byte after byte, each from bit 0 up (R180). -/
def bitsOf (l : List Byte) : List Bool := l.flatMap fun b => (List.range 8).map fun k => b.getLsbD k

/-- What CRC does with one bit (R180). -/
def crcStep (c : Half) (x : Bool) : Half := if c.getLsbD 0 = x then c >>> 1 else (c >>> 1) ^^^ 0x8408#16

/-! ### What reads show -/

/-- The number a byte sequence is, its first byte the least significant (R73). -/
def littleEndian : List Byte → Nat
  | [] => 0
  | b :: bs => b.toNat + 256 * littleEndian bs

/-- The registers at 0x000 to 0x07C but STATUS, and the number a 32-bit read of each gives (R20 to R25, R27 to R48); the bits that
no field names are 0. -/
def registerValues (s : State) : List (Offset × Nat) :=
  [(0x000#10, 0x35325841), (0x004#10, 0x00010000),
    (0x008#10, s.params.dupSlots + s.params.maxFrameLen * 2 ^ 8 + s.params.encRR.toNat * 2 ^ 16 +
      s.params.selfMask.toNat * 2 ^ 24),
    (0x00C#10, s.irqEn.toNat), (0x014#10, 0), (0x018#10, s.flen.toNat), (0x01C#10, s.tlen.toNat),
    (0x020#10, s.rgn.off.toNat + s.rgn.len.toNat * 2 ^ 16),
    (0x024#10, littleEndian [s.node.c0, s.node.c1, s.node.c2, s.node.c3]),
    (0x028#10, littleEndian [s.node.c4, s.node.c5, s.node.sb]),
    (0x02C#10, s.cfg.widenMax.toNat + s.cfg.persist.toNat * 2 ^ 8 + s.cfg.slotSamples.toNat * 2 ^ 16),
    (0x030#10, s.dupWindow.toNat), (0x034#10, s.tick.toNat), (0x038#10, s.tickSnap.toNat),
    (0x03C#10, littleEndian [s.callp.c0, s.callp.c1, s.callp.c2, s.callp.c3]),
    (0x040#10, littleEndian [s.callp.c4, s.callp.c5, s.callp.sb]),
    (0x044#10, littleEndian (s.callTxt.take 4)), (0x048#10, littleEndian ((s.callTxt.drop 4).take 4)),
    (0x04C#10, littleEndian ((s.callTxt.drop 8).take 1)),
    (0x050#10, s.callInfo.tlen.toNat + s.callInfo.curOut.toNat * 2 ^ 16),
    (0x054#10, s.hdr.naddr.toNat + s.hdr.npath.toNat * 2 ^ 8 + s.hdr.payIdx.toNat * 2 ^ 16),
    (0x058#10, s.payLen.toNat), (0x05C#10, s.crcRes.toNat),
    (0x060#10, s.dupRes.hit.toNat + s.dupRes.recorded.toNat * 2 + s.dupRes.evicted.toNat * 2 ^ 2 + s.dupRes.slot.toNat * 2 ^ 8 +
      s.dupRes.csum.toNat * 2 ^ 16),
    (0x064#10, s.digiRes.verdict.code.toNat + s.digiRes.reason.code.toNat * 2 ^ 8 + s.digiRes.beaconReq.toNat * 2 ^ 16 +
      s.digiRes.ackFound.toNat * 2 ^ 17 + s.digiRes.grew.toNat * 2 ^ 18 + s.digiRes.dupRecorded.toNat * 2 ^ 19 +
      s.digiRes.field.toNat * 2 ^ 24),
    (0x068#10, s.msgInfo.remIdx.toNat + s.msgInfo.remLen.toNat * 2 ^ 16),
    (0x06C#10, s.ackInfo.idx.toNat + s.ackInfo.len.toNat * 2 ^ 16),
    (0x070#10, s.arb.idleCnt.toNat + s.arb.attempts.toNat * 2 ^ 16 + (if s.arb.state = .wait then 2 ^ 24 else 0)),
    (0x074#10, s.cnt.rx.toNat), (0x078#10, s.cnt.digi.toNat), (0x07C#10, s.cnt.grant.toNat)]

/-- The read-only registers (R20). -/
def readOnly : List Offset :=
  [0x000#10, 0x004#10, 0x008#10, 0x034#10, 0x038#10, 0x044#10, 0x048#10, 0x04C#10, 0x050#10, 0x054#10, 0x058#10, 0x05C#10,
    0x060#10, 0x064#10, 0x068#10, 0x06C#10, 0x070#10, 0x074#10, 0x078#10, 0x07C#10]

/-! ### The wait -/

/-- The samples a step from a wait takes: that of a sample event, or a free one when nothing is scheduled (log entry 1). -/
def sampleTaken (s : State) : List Bool :=
  match s.schedule with
  | [] => [Config.csBusy s.samples]
  | .sample b _ :: _ => [b]
  | .host _ :: _ => []
  | .engine :: _ => []
  | .tick _ :: _ => []
  | .hardReset :: _ => []

/-- IDLE_CNT counts idle samples at the end of `h`, the samples of the wait so far, the latest first (R55, R252). -/
def IdleTrail (s : State) (h : List Bool) : Prop :=
  s.arb.idleCnt.toNat ≤ h.length ∧ ∀ b ∈ h.take s.arb.idleCnt.toNat, b = false

/-- The samples of whole idle slots of `n` samples, one slot for each draw of `rs`; only the last sample of a slot draws. -/
def slotsOf (n : Nat) (rs : List Byte) : List (Bool × Byte) :=
  rs.flatMap fun r => List.replicate (n - 1) (false, 0x00#8) ++ [(false, r)]

/-- All sequences of `k` draws, each once. -/
def drawSequences : Nat → List (List Byte)
  | 0 => [[]]
  | k + 1 => (List.range 256).flatMap fun r => (drawSequences k).map fun rs => BitVec.ofNat 8 r :: rs

/-! ### Steps -/

/-- `s` with `e` as the next event. -/
def before (e : Event) (s : State) : State := { s with schedule := e :: s.schedule }

/-- `s` with these sample events next. -/
def beforeSamples (l : List (Bool × Byte)) (s : State) : State :=
  { s with schedule := l.map (fun x => Event.sample x.1 x.2) ++ s.schedule }

/-- These sample events end the wait of `s` with a grant. -/
def grantedBy (s : State) (l : List (Bool × Byte)) : Bool :=
  match Host.Core.run Sys2Proof.core l.length (beforeSamples l s) with
  | .next t => decide (t.engine = .idle) && t.status.grant
  | .fault _ => false
  | .refused _ => false

/-! ### The invariant -/

/-- The invariant of the block: what no step breaks. -/
structure Inv (s : State) : Prop where
  /-- The build is one that R6 allows. -/
  build : s.params.wf = true
  /-- The memory is in canonical form, inside FBUF and TBUF. -/
  memory : Memory.wf s.mem
  /-- R54: "ENGINE = IDLE iff STATUS.BUSY = 0". -/
  busy : s.status.busy = false ↔ s.engine = .idle
  /-- R55: "CSMA_STATE = WAIT iff ENGINE = CSMA_WAIT". -/
  waiting : s.arb.state = .wait ↔ s.engine = .csmaWait
  /-- Between issue and completion DONE, ERR, GRANT and ERRCODE are clear (R113, R114). -/
  quiet : s.status.busy = true →
    s.status.done = false ∧ s.status.err = false ∧ s.status.grant = false ∧ s.status.errcode = .noError
  /-- LASTOP is the opcode field of the last issued command (R26, R113). -/
  lastOp : s.status.lastop = opcField s.pend
  /-- Only CSMA_ACQUIRE waits (R54). -/
  waitOp : s.engine = .csmaWait → opcField s.pend = 0x40#8
  /-- GRANT is set only by CSMA_ACQUIRE (R26). -/
  grantOp : s.status.grant = true → opcField s.pend = 0x40#8
  /-- ERR goes with an error code (R280). -/
  errCode : s.status.err = true → s.status.errcode ≠ .noError
  /-- R33: "So a slot is at least one idle sample long". -/
  slot : s.cfg.slotSamples ≠ 0#16
  /-- R252: while the arbiter waits, IDLE_CNT is below SLOT_SAMPLES between sample events. -/
  idleCount : s.engine = .csmaWait → s.arb.idleCnt.toNat < s.cfg.slotSamples.toNat
  /-- R49: the table has DUP_SLOTS slots. -/
  tableSize : s.table.length = s.params.dupSlots
  /-- R38, R39: CALLTXT has nine characters, those at or beyond CALLTLEN are 0x00. -/
  callText : s.callTxt.length = 9 ∧ s.callInfo.tlen.toNat ≤ 9 ∧
    ∀ j, s.callInfo.tlen.toNat ≤ j → j < 9 → s.callTxt[j]? = some 0x00#8
  /-- R40: HDR_INFO is 0 or describes a frame of 2 to 10 address fields. -/
  header : s.hdr = ⟨0#8, 0#8, 0#16⟩ ∨
    ∃ n, 2 ≤ n ∧ n ≤ 10 ∧ s.hdr = ⟨BitVec.ofNat 8 n, BitVec.ofNat 8 (n - 2), BitVec.ofNat 16 (7 * n + 2)⟩
  /-- R225, R229, R230: exactly a digipeat records. -/
  recorded : s.digiRes.dupRecorded = true ↔ s.digiRes.verdict = .digipeat
  /-- R232: BEACON_TRIGGER comes only with BEACON_REQ. -/
  trigger : s.digiRes.verdict = .beaconTrigger → s.digiRes.beaconReq = true
  /-- R219: only a message has an ACK tag. -/
  ackTag : s.digiRes.ackFound = true → s.digiRes.verdict = .message

end Sys2Proof.Spec
end

