-- ==== Sys2Proof/Certificates/Slice0/Obligations.lean ====
section
/-! DEFINITION. The statements for the provers. Each docstring names the rules of spec/ it formalises. The forms of a command with
a non-zero unused argument field are stated once for all commands in `UnusedArgumentFieldFails`. How an event reaches the
block (`before e s`: `e` is the next entry of the schedule) and the answer `busResp` are the model's own form (log entries 1 and
16), not the spec's. -/

open Sys2Proof Sys2Proof.Machine Sys2Proof.Spec

/-! ### Encoding -/

/-- R90, R92: no bit of a command word is dropped; every command with every value of both argument fields is decoded back from
its word, and from its word's bytes whatever follows them. -/
def Obligations.DecodeInvertsEncode : Prop :=
  ∀ (i : Instr) (rest : List Byte),
    decode (encode i) = .ok i ∧ decodeBytes (bytesOfWord (encode i) ++ rest) = .ok (i, rest)

/-- R92 to R94: a word that decodes is the word of the command it decodes to, so no two words are one command; exactly the words
whose OPC is not in the opcode map are rejected, and the rejection names the OPC. -/
def Obligations.EveryWordIsOneCommandOrReserved : Prop :=
  ∀ w : Word,
    (∀ i, decode w = .ok i → encode i = w) ∧
    (opcField w ∉ [0x00#8, 0x01#8, 0x02#8, 0x10#8, 0x11#8, 0x12#8, 0x20#8, 0x21#8, 0x22#8, 0x23#8, 0x30#8, 0x31#8, 0x32#8,
        0x40#8] ↔ ∃ e, decode w = .error e) ∧
      ∀ e, decode w = .error e → e = .reservedOpcode (opcField w)

/-- Words of 95_test_vectors.md and the commands they stand for. -/
def Obligations.SpecWordsDecode : Prop :=
  decode 0x00010000#32 = .ok (.nop 0#8 1#16) ∧
  decode 0x00000001#32 = .ok (.callDecode 0#8 0#16) ∧
  decode 0x00090002#32 = .ok (.callEncode 0#8 9#16) ∧
  decode 0x00000102#32 = .ok (.callEncode 1#8 0#16) ∧
  decode 0x00000012#32 = .ok (.textToFrame 0#8 0#16) ∧
  decode 0x00000023#32 = .ok (.dupCheckRecord 0#8 0#16) ∧
  decode 0x0000FF30#32 = .ok (.digiProcess 0xFF#8 0#16) ∧
  decode 0x00000231#32 = .ok (.pathInsertNode 2#8 0#16) ∧
  decode 0x00000432#32 = .ok (.pathOverwriteNode 4#8 0#16) ∧
  decode 0x00000040#32 = .ok (.csmaAcquire 0#8 0#16) ∧
  decode 0x00000005#32 = .error (.reservedOpcode 0x05#8)

/-! ### The engine -/

/-- R116, R93: the engine's step on a pending command latches the tick, decodes PEND and runs the command; a reserved OPC ends
with BAD_OPCODE and changes nothing else; CSMA_ACQUIRE only starts its wait; an engine that is not pending does nothing. The
step happens when the schedule says so, or by itself when nothing is scheduled (log entry 1). -/
def Obligations.EngineStepRunsThePendingCommand : Prop :=
  ∀ s : State,
    (s.engine = .pending →
      (∀ i, decode s.pend = .ok i →
        step (before .engine s) = exec i { s with tickSnap := s.tick } ∧
        (s.schedule = [] → step s = exec i { s with tickSnap := s.tick })) ∧
      (∀ e, decode s.pend = .error e →
        step (before .engine s) = .next (failed { s with tickSnap := s.tick } .badOpcode) ∧
        (s.schedule = [] → step s = .next (failed { s with tickSnap := s.tick } .badOpcode))) ∧
      (s.pend = 0x00000040#32 →
        step (before .engine s) =
          .next { s with tickSnap := s.tick, arb := ⟨0#16, 0#8, .wait⟩, engine := .csmaWait })) ∧
    (s.engine ≠ .pending → step (before .engine s) = .next s)

/-- R113, R115: a CMD write issues its word when BUSY = 0, and is dropped with OVERRUN when BUSY = 1. -/
def Obligations.CmdWriteIssuesOrOverruns : Prop :=
  ∀ (s : State) (w : Word),
    (s.status.busy = false →
      step (before (.host (.write32 0x014#10 w)) s) =
        .next { s with
          status := { s.status with
            busy := true, done := false, err := false, grant := false, errcode := .noError, lastop := w.extractLsb' 0 8 }
          pend := w
          engine := .pending
          busResp := .ack }) ∧
    (s.status.busy = true →
      step (before (.host (.write32 0x014#10 w)) s) =
        .next { s with status := { s.status with overrun := true }, busResp := .ack })

/-- R91: a command given a non-zero argument field it does not use ends with BAD_ARG and changes nothing else. Only CALL_ENCODE
(0x02) uses ARG_B, only PATH_INSERT_NODE (0x31) and PATH_OVERWRITE_NODE (0x32) use ARG_A. -/
def Obligations.UnusedArgumentFieldFails : Prop :=
  ∀ (i : Instr) (s : State),
    ((i.argA ≠ 0#8 ∧ i.opcode ≠ 0x31#8 ∧ i.opcode ≠ 0x32#8) ∨ (i.argB ≠ 0#16 ∧ i.opcode ≠ 0x02#8)) →
    exec i s = .next (failed s .badArg)

/-- R284: a command that fails, a reserved opcode among them, changes STATUS.BUSY, DONE, ERR and ERRCODE, ENGINE and TICK_SNAP
and nothing else. (ERR is 0 while a command is pending: `Inv.quiet`.) -/
def Obligations.FailureChangesOnlyStatus : Prop :=
  ∀ s t : State, s.engine = .pending → s.status.err = false →
    step (before .engine s) = .next t → t.status.err = true →
    t = failed { s with tickSnap := s.tick } t.status.errcode ∧ t.status.errcode ≠ .noError

/-- R282: the codes each command can end with. (ERRCODE is 0x00 while a command is pending: `Inv.quiet`.) -/
def Obligations.ErrorCodesFollowTheRaiseMatrix : Prop :=
  ∀ s t : State, s.engine = .pending → s.status.errcode = .noError →
    step (before .engine s) = .next t → t.status.errcode ∈ raises (opcField s.pend)

/-- R280, R287: an executed command has completed or failed, the engine is idle, and IRQ is 1 iff it is enabled; only CSMA_ACQUIRE
goes on, into its wait. -/
def Obligations.ExecutedCommandCompletesOrFails : Prop :=
  ∀ s t : State, s.engine = .pending → step (before .engine s) = .next t →
    (s.pend = 0x00000040#32 ∧ t.engine = .csmaWait ∧ t.status = s.status) ∨
    (t.engine = .idle ∧ t.status.busy = false ∧ t.status.done = true ∧ t.irq = s.irqEn ∧
      ((t.status.err = false ∧ t.status.errcode = .noError) ∨ (t.status.err = true ∧ t.status.errcode ≠ .noError)))

/-- No step of the block, from any state and under any event, ends in a fault or a refusal. The spec says that the block has no
traps (R283); that the type of faults is empty is read from that (log entry 18, DEDUCED), and that an access outside R72 is a next
state, where R74 calls it a refusal outcome, is the model's choice (log entry 7). -/
def Obligations.EveryStepHasANextState : Prop :=
  ∀ s : State, ∃ t, step s = .next t

/-- R28, R29, R37 to R50, R58, R323: no command writes the build, the configuration, the tick, its snapshot or the sticky and
issue flags; and only the named commands write each length, result register, counter, the table and the buffers. -/
def Obligations.CommandsWriteOnlyTheirOwnState : Prop :=
  ∀ (i : Instr) (s t : State), s.params.wf = true → exec i s = .next t →
    (t.params = s.params ∧ t.irqEn = s.irqEn ∧ t.rgn = s.rgn ∧ t.node = s.node ∧ t.cfg = s.cfg ∧
      t.dupWindow = s.dupWindow ∧ t.tick = s.tick ∧ t.tickSnap = s.tickSnap ∧ t.pend = s.pend ∧ t.schedule = s.schedule ∧
      t.busResp = s.busResp ∧ t.resets = s.resets ∧ t.samples = s.samples ∧ t.status.lastop = s.status.lastop ∧
      t.status.grant = s.status.grant ∧ t.status.overrun = s.status.overrun ∧ t.status.wbusy = s.status.wbusy ∧
      t.status.buserr = s.status.buserr) ∧
    (i.opcode ∉ [0x21#8, 0x22#8, 0x23#8, 0x30#8] → t.table = s.table) ∧
    (i.opcode ≠ 0x11#8 → t.tlen = s.tlen ∧ ∀ j, j < 512 → t.tb j = s.tb j) ∧
    (i.opcode ∉ [0x12#8, 0x30#8, 0x31#8, 0x32#8] → ∀ j, j < 256 → t.fb j = s.fb j) ∧
    (i.opcode ∉ [0x12#8, 0x30#8, 0x31#8] → t.flen = s.flen) ∧
    (i.opcode ≠ 0x02#8 → t.callp = s.callp ∧ t.callInfo.curOut = s.callInfo.curOut) ∧
    (i.opcode ≠ 0x01#8 → t.callTxt = s.callTxt ∧ t.callInfo.tlen = s.callInfo.tlen) ∧
    (i.opcode ∉ [0x10#8, 0x11#8, 0x12#8, 0x30#8, 0x31#8, 0x32#8] → t.hdr = s.hdr ∧ t.payLen = s.payLen) ∧
    (i.opcode ≠ 0x20#8 → t.crcRes = s.crcRes) ∧
    (i.opcode ∉ [0x21#8, 0x22#8, 0x23#8] → t.dupRes = s.dupRes) ∧
    (i.opcode ≠ 0x30#8 → t.digiRes = s.digiRes ∧ t.msgInfo = s.msgInfo ∧ t.ackInfo = s.ackInfo ∧ t.cnt = s.cnt) ∧
    (i.opcode ≠ 0x40#8 → t.arb = s.arb)

/-- R36, R51: a tick event adds its increment to TICK modulo 2^32 and changes nothing else, no other step moves TICK, and a command
reads time only through the snapshot: with another value on the TICK input it does exactly the same. That ticks are events of
the schedule is the model's choice (log entry 1). -/
def Obligations.TickMovesByItsEventsAndCommandsReadTheSnapshot : Prop :=
  (∀ (s : State) (n : Config.Tick),
    step (before (.tick n) s) = .next { s with tick := BitVec.ofNat 32 ((s.tick.toNat + n.toNat) % 2 ^ 32) }) ∧
  (∀ s t : State, step s = .next t → t.tick ≠ s.tick → ∃ n rest, s.schedule = .tick n :: rest) ∧
  ∀ (i : Instr) (s t : State) (x : Config.Tick), exec i s = .next t → exec i { s with tick := x } = .next { t with tick := x }

/-! ### NOP and the callsign codec -/

/-- R270: NOP completes and changes nothing else; the word 0x00000000 is NOP, and its step samples the tick. -/
def Obligations.NopOnlyCompletes : Prop :=
  ∀ s : State,
    (∀ a b, (a ≠ 0#8 ∨ b ≠ 0#16) → exec (.nop a b) s = .next (failed s .badArg)) ∧
    exec (.nop 0#8 0#16) s = .next (completed s) ∧
    (s.engine = .pending → s.pend = 0x00000000#32 →
      step (before .engine s) = .next (completed { s with tickSnap := s.tick }))

/-- R131, R132: the text of CALLP is its call characters up to the last that is no space, then `-` and the SSID in decimal when
the SSID is not 0; CALLTXT beyond it is 0x00, and nothing else changes. -/
def Obligations.CallDecodeGivesTheCallText : Prop :=
  ∀ (s : State) (n : Nat), n ≤ 6 →
    (∀ i, n ≤ i → i < 6 → s.callp.call.getD i 0#8 >>> 1 = 0x20#8) →
    (∀ m, n = m + 1 → s.callp.call.getD m 0#8 >>> 1 ≠ 0x20#8) →
    ∀ t : List Byte,
      t = (s.callp.call.take n).map (fun c : Byte => c >>> 1) ++
        (if s.callp.ssid = 0#4 then [] else 0x2D#8 :: decimal s.callp.ssid.toNat) →
      exec (.callDecode 0#8 0#16) s =
        .next (completed { s with
          callTxt := t ++ List.replicate (9 - t.length) 0x00#8
          callInfo := { s.callInfo with tlen := BitVec.ofNat 4 t.length } })

/-- R130, R133: CALL_ENCODE reads the longest call, `-digits` and `*` at the cursor; `call`, `digits`, `dash`, `star` and `rest` are
the parts of the text, each as long as it can be. CALLP takes the shifted characters, padding, H from `*`, ENC_RR, the digits'
value modulo 16 and E = 0; CUR_OUT is just past what was read. A bad cursor or TLEN fails. -/
def Obligations.CallEncodeReadsTheLongestCall : Prop :=
  ∀ (s : State) (cursor : BitVec 16),
    ((512 < s.tlen.toNat ∨ s.tlen.toNat < cursor.toNat) →
      exec (.callEncode 0#8 cursor) s = .next (failed s .badArg)) ∧
    ∀ (call digits rest : List Byte) (dash star : Bool),
      s.tlen.toNat ≤ 512 → cursor.toNat ≤ s.tlen.toNat →
      s.tbs cursor.toNat (s.tlen.toNat - cursor.toNat) =
        call ++ (if dash then 0x2D#8 :: digits else []) ++ (if star then [0x2A#8] else []) ++ rest →
      call.length ≤ 6 → (∀ c ∈ call, isAlnum c = true) → (∀ c ∈ digits, isDigit c = true) → (dash = false → digits = []) →
      (call.length < 6 → dash = false → star = false → ∀ c ∈ rest.head?, isAlnum c = false) →
      (dash = false → star = false → ∀ c ∈ rest.head?, c ≠ 0x2D#8) →
      (dash = true → star = false → ∀ c ∈ rest.head?, isDigit c = false) →
      (star = false → ∀ c ∈ rest.head?, c ≠ 0x2A#8) →
      ∃ A : Addr,
        A.call = call.map (fun c : Byte => c <<< 1) ++ List.replicate (6 - call.length) 0x40#8 ∧
        A.h = star ∧ A.rr = s.params.encRR ∧ A.ssid = BitVec.ofNat 4 (digitsValue digits) ∧ A.e = false ∧
        exec (.callEncode 0#8 cursor) s =
          .next (completed { s with
            callp := A
            callInfo := { s.callInfo with
              curOut := BitVec.ofNat 16
                (cursor.toNat + call.length + (if dash then 1 + digits.length else 0) + (if star then 1 else 0)) } })

/-- R134: a call of at most six letters and digits, in either case, with a canonical SSID, survives CALL_ENCODE and
CALL_DECODE unchanged. -/
def Obligations.CallTextRoundTrips : Prop :=
  ∀ (s : State) (cursor : BitVec 16) (c : CallText),
    s.tlen.toNat ≤ 512 → cursor.toNat ≤ s.tlen.toNat →
    c.call.length ≤ 6 → (∀ x ∈ c.call, isAlnum x = true) → c.ssid < 16 →
    s.tbs cursor.toNat (s.tlen.toNat - cursor.toNat) = c.chars →
    ∃ t u, exec (.callEncode 0#8 cursor) s = .next t ∧ exec (.callDecode 0#8 0#16) t = .next u ∧
      t.callInfo.curOut = s.tlen ∧ u.callTxt.take u.callInfo.tlen.toNat = c.chars

/-! ### Frames -/

/-- R150, R151: FRAME_VALIDATE of a valid frame of `n` address fields reports its geometry and changes nothing else. -/
def Obligations.FrameValidateReportsTheGeometry : Prop :=
  ∀ (s : State) (n : Nat), FrameShape s n →
    exec (.frameValidate 0#8 0#16) s =
      .next (completed { s with
        hdr := ⟨BitVec.ofNat 8 n, BitVec.ofNat 8 (n - 2), BitVec.ofNat 16 (7 * n + 2)⟩
        payLen := BitVec.ofNat 16 (s.flen.toNat - (7 * n + 2)) })

/-- R150, R211: each structural error, in the order of its checks, is the ERRCODE of the four commands that need a valid frame,
and the reason of a DIGI_PROCESS drop that writes nothing but DIGI_RES, MSG_INFO and ACK_INFO. -/
def Obligations.MalformedFramesAreRefusedOrDropped : Prop :=
  ∀ (s : State) (e : FrameErr), FrameError s e →
    exec (.frameValidate 0#8 0#16) s = .next (failed s (.frame e)) ∧
    exec (.frameToText 0#8 0#16) s = .next (failed s (.frame e)) ∧
    (∀ k, exec (.pathInsertNode k 0#16) s = .next (failed s (.frame e))) ∧
    (∀ k, exec (.pathOverwriteNode k 0#16) s = .next (failed s (.frame e))) ∧
    exec (.digiProcess 0#8 0#16) s =
      .next (completed { s with
        digiRes := { DigiRes.zero with reason := .frame e }
        msgInfo := ⟨0#16, 0#16⟩
        ackInfo := ⟨0#16, 0#8⟩ })

/-- R150, R151: FRAME_VALIDATE decides every buffer content: it reports the geometry of `n` address fields exactly when the frame is
valid with `n` of them, fails with a code exactly when the frame has that structural error, and one of the two happens. -/
def Obligations.EveryFrameHasOneOutcome : Prop :=
  ∀ s : State, ∃ t, exec (.frameValidate 0#8 0#16) s = .next t ∧
    (∀ n, n ≤ 10 → (FrameShape s n ↔ t = completed (described s n))) ∧
    (∀ e, FrameError s e ↔ t = failed s (.frame e)) ∧
    ((∃ n, n ≤ 10 ∧ FrameShape s n) ∨ ∃ e, FrameError s e)

/-- R152, R153: FRAME_TO_TEXT of a valid frame writes its monitor text, TLEN and the geometry, and no other byte; the text never
overflows TBUF in a legal build. -/
def Obligations.FrameToTextWritesTheMonitorText : Prop :=
  ∀ (s : State) (n : Nat) (x : List Byte), s.params.wf = true → FrameShape s n →
    x = decodeCall (s.field 1) ++ [0x3E#8] ++ decodeCall (s.field 0) ++
      (List.range' 2 (n - 2)).flatMap
        (fun k => [0x2C#8] ++ decodeCall (s.field k) ++ (if (s.field k).h then [0x2A#8] else [])) ++
      [0x3A#8] ++ s.fbs (7 * n + 2) (s.flen.toNat - (7 * n + 2)) →
    ∃ t, exec (.frameToText 0#8 0#16) s = .next t ∧
      t.text = x ∧ (∀ j, x.length ≤ j → t.tb j = s.tb j) ∧ (∀ j, j < 256 → t.fb j = s.fb j) ∧
      { t with mem := s.mem } = completed (described { s with tlen := BitVec.ofNat 16 x.length } n)

/-- R154, R155: TEXT_TO_FRAME of `src>dst,path...:payload` writes the encoded fields (destination first, H only on path entries, E
only on the last), 0x03, 0xF0 and the payload, FLEN and the geometry, and no other byte; a frame that is too long fails. -/
def Obligations.TextToFrameWritesTheFrame : Prop :=
  ∀ (s : State) (src dst payload : List Byte) (path : List (List Byte)) (as : List Addr) (len : Nat),
    s.params.wf = true → s.tlen.toNat ≤ 512 →
    s.text = src ++ 0x3E#8 :: dst ++ path.flatMap (fun p => 0x2C#8 :: p) ++ 0x3A#8 :: payload →
    0x3E#8 ∉ src → (0x2C#8 ∉ dst ∧ 0x3A#8 ∉ dst) → (∀ p ∈ path, 0x2C#8 ∉ p ∧ 0x3A#8 ∉ p) → path.length ≤ 8 →
    as = (dst :: src :: path).map (fun p => (encodeCall s.params.encRR p).1) →
    len = 7 * as.length + 2 + payload.length →
    (len ≤ s.params.maxFrameLen →
      ∃ t, exec (.textToFrame 0#8 0#16) s = .next t ∧
        (∀ k A, as[k]? = some A →
          (t.field k).call = A.call ∧ (t.field k).ssid = A.ssid ∧ (t.field k).rr = A.rr ∧
          (t.field k).h = (A.h && decide (2 ≤ k)) ∧ (t.field k).e = decide (k + 1 = as.length)) ∧
        t.fb (7 * as.length) = 0x03#8 ∧ t.fb (7 * as.length + 1) = 0xF0#8 ∧
        t.fbs (7 * as.length + 2) payload.length = payload ∧
        (∀ j, len ≤ j → t.fb j = s.fb j) ∧
        { t with mem := s.mem } = completed (described { s with flen := BitVec.ofNat 16 len } as.length)) ∧
    (s.params.maxFrameLen < len → exec (.textToFrame 0#8 0#16) s = .next (failed s .encFrameOverflow))

/-- R154, R155: TEXT_TO_FRAME's failures: a bad TLEN, no `>`, no `:` after at most eight commas, a ninth comma before the `:`. -/
def Obligations.TextToFrameFailures : Prop :=
  ∀ s : State,
    (512 < s.tlen.toNat → exec (.textToFrame 0#8 0#16) s = .next (failed s .badArg)) ∧
    (s.tlen.toNat ≤ 512 →
      (0x3E#8 ∉ s.text → exec (.textToFrame 0#8 0#16) s = .next (failed s .encNoGt)) ∧
      ∀ src r : List Byte, s.text = src ++ 0x3E#8 :: r → 0x3E#8 ∉ src →
        (0x3A#8 ∉ r → r.count 0x2C#8 ≤ 8 → exec (.textToFrame 0#8 0#16) s = .next (failed s .encNoColon)) ∧
        (∀ r1 r2, r = r1 ++ 0x2C#8 :: r2 → 0x3A#8 ∉ r1 → r1.count 0x2C#8 = 8 →
          exec (.textToFrame 0#8 0#16) s = .next (failed s .encTooManyPath)))

/-- R104, R154: whatever text it accepts, TEXT_TO_FRAME leaves a valid frame whose only E bit is on the last address field, and
HDR_INFO says how many fields it has. -/
def Obligations.TextToFrameLeavesAValidFrame : Prop :=
  ∀ s t : State, s.params.wf = true → exec (.textToFrame 0#8 0#16) s = .next t → t.status.err = false →
    FrameShape t t.hdr.naddr.toNat ∧ LastOnly t t.hdr.naddr.toNat

/-- R156: canonical monitor text with at most eight path entries whose frame fits goes through TEXT_TO_FRAME and FRAME_TO_TEXT
and comes back byte for byte. -/
def Obligations.MonitorTextRoundTrips : Prop :=
  ∀ (s : State) (src dst : CallText) (path : List (CallText × Bool)) (payload : List Byte),
    s.params.wf = true → s.tlen.toNat ≤ 512 → s.text = Spec.monitorText src dst path payload →
    src.canonical → dst.canonical → (∀ p ∈ path, p.1.canonical) → path.length ≤ 8 →
    7 * (path.length + 2) + 2 + payload.length ≤ s.params.maxFrameLen →
    ∃ t u, exec (.textToFrame 0#8 0#16) s = .next t ∧ t.status.err = false ∧
      exec (.frameToText 0#8 0#16) t = .next u ∧ u.status.err = false ∧
      u.text = Spec.monitorText src dst path payload

/-! ### The duplicate-suppression cache -/

/-- R185, R186: CRC16 writes the checksum of a legal region to CRC_RES and changes nothing else; an illegal region fails, in
every command of the cache. -/
def Obligations.Crc16ChecksumsTheRegion : Prop :=
  ∀ s : State,
    (s.rgn.off.toNat + s.rgn.len.toNat ≤ 256 →
      exec (.crc16 0#8 0#16) s =
        .next (completed { s with crcRes := crc (s.fbs s.rgn.off.toNat s.rgn.len.toNat) })) ∧
    (256 < s.rgn.off.toNat + s.rgn.len.toNat →
      exec (.crc16 0#8 0#16) s = .next (failed s .badArg) ∧
      exec (.dupCheck 0#8 0#16) s = .next (failed s .badArg) ∧
      exec (.dupRecord 0#8 0#16) s = .next (failed s .badArg) ∧
      exec (.dupCheckRecord 0#8 0#16) s = .next (failed s .badArg))

/-- R180: the checksum takes the bits of the bytes in order, each byte from bit 0 up, from the seed 0xFFFF through the step with the
polynomial 0x8408; the spec's check value; and two byte sequences that differ in exactly one byte have different checksums. That
each byte starts at bit 0 and that there is no final XOR are the spec's own reading, marked so in R180 (D17). -/
def Obligations.CrcTakesEveryBitInOrder : Prop :=
  (∀ l : List Byte, crc l = (bitsOf l).foldl crcStep 0xFFFF#16) ∧
  crc [] = 0xFFFF#16 ∧ crc ((List.range 9).map fun k => BitVec.ofNat 8 (0x31 + k)) = 0x6F91#16 ∧
  ∀ (xs ys : List Byte) (b c : Byte), crc (xs ++ b :: ys) = crc (xs ++ c :: ys) → b = c

/-- R182, R183, R187: DUP_CHECK sweeps the table and reports the first live slot with the region's checksum, or a miss. -/
def Obligations.DupCheckReportsTheFirstLiveMatch : Prop :=
  ∀ (s : State) (cs : Half) (T : List Slot),
    s.rgn.off.toNat + s.rgn.len.toNat ≤ 256 → cs = crc (s.fbs s.rgn.off.toNat s.rgn.len.toNat) →
    T = swept s.tickSnap s.table →
    (∀ i, LiveAt T cs i → (∀ j, j < i → ¬ LiveAt T cs j) →
      exec (.dupCheck 0#8 0#16) s =
        .next (completed { s with table := T, dupRes := ⟨true, false, false, BitVec.ofNat 4 i, cs⟩ })) ∧
    ((∀ i, ¬ LiveAt T cs i) →
      exec (.dupCheck 0#8 0#16) s = .next (completed { s with table := T, dupRes := ⟨false, false, false, 0#4, cs⟩ }))

/-- R182, R184, R188: DUP_RECORD sweeps the table and writes the checksum and its deadline to the first empty slot, or, when none
is empty, over the oldest one; a table with a slot always has such a slot. -/
def Obligations.DupRecordWritesOneSlot : Prop :=
  ∀ (s : State) (cs : Half) (T : List Slot),
    s.rgn.off.toNat + s.rgn.len.toNat ≤ 256 → cs = crc (s.fbs s.rgn.off.toNat s.rgn.len.toNat) →
    T = swept s.tickSnap s.table →
    (s.table ≠ [] → ∃ i ev, InsertsAt T s.tickSnap i ev) ∧
    ∀ i ev, InsertsAt T s.tickSnap i ev →
      exec (.dupRecord 0#8 0#16) s =
        .next (completed { s with
          table := T.set i ⟨cs, s.tickSnap + s.dupWindow⟩
          dupRes := ⟨false, true, ev, BitVec.ofNat 4 i, cs⟩ })

/-- R189: DUP_CHECK_RECORD answers a hit as DUP_CHECK does, without refreshing the slot, and records a miss as DUP_RECORD does. -/
def Obligations.DupCheckRecordChecksThenRecords : Prop :=
  ∀ (s : State) (cs : Half) (T : List Slot),
    s.rgn.off.toNat + s.rgn.len.toNat ≤ 256 → cs = crc (s.fbs s.rgn.off.toNat s.rgn.len.toNat) →
    T = swept s.tickSnap s.table →
    (∀ i, LiveAt T cs i → (∀ j, j < i → ¬ LiveAt T cs j) →
      exec (.dupCheckRecord 0#8 0#16) s =
        .next (completed { s with table := T, dupRes := ⟨true, false, false, BitVec.ofNat 4 i, cs⟩ })) ∧
    ((∀ i, ¬ LiveAt T cs i) → ∀ i ev, InsertsAt T s.tickSnap i ev →
      exec (.dupCheckRecord 0#8 0#16) s =
        .next (completed { s with
          table := T.set i ⟨cs, s.tickSnap + s.dupWindow⟩
          dupRes := ⟨false, true, ev, BitVec.ofNat 4 i, cs⟩ }))

/-- R190: a second DUP_CHECK of the same region at the same `now` changes nothing more and reports the same. -/
def Obligations.DupCheckIsIdempotent : Prop :=
  ∀ s t : State, exec (.dupCheck 0#8 0#16) s = .next t → exec (.dupCheck 0#8 0#16) t = .next t

/-- R191: on an empty table of N slots, N + 1 records of distinct checksums at strictly increasing ticks, none of which expires,
keep the N latest and evict the first. `T + d k` is the tick of the k-th record, wrapped. -/
def Obligations.EvictionKeepsTheLatestRecords : Prop :=
  ∀ (N : Nat) (st : Nat → State) (cs : Nat → Half) (T W : Word) (d : Nat → Nat),
    0 < N → (∀ i j, i < j → j ≤ N → d i < d j) → d N ≤ d 0 + W.toNat → W.toNat < 2 ^ 31 →
    (∀ i j, i ≤ N → j ≤ N → cs i = cs j → i = j) →
    (∀ k, k ≤ N →
      (st k).tickSnap = T + BitVec.ofNat 32 (d k) ∧ (st k).dupWindow = W ∧ T + BitVec.ofNat 32 (d k) + W ≠ 0#32 ∧
      (st k).rgn.off.toNat + (st k).rgn.len.toNat ≤ 256 ∧
      crc ((st k).fbs (st k).rgn.off.toNat (st k).rgn.len.toNat) = cs k) →
    (st 0).table = List.replicate N ⟨0#16, 0#32⟩ →
    (∀ k, k < N → ∃ t, exec (.dupRecord 0#8 0#16) (st k) = .next t ∧ (st (k + 1)).table = t.table) →
    ∃ t, exec (.dupRecord 0#8 0#16) (st N) = .next t ∧ t.dupRes.evicted = true ∧
      (∀ k, 1 ≤ k → k ≤ N → ∃ i, LiveAt t.table (cs k) i) ∧ ∀ i, ¬ LiveAt t.table (cs 0) i

/-- R325: a record whose deadline wraps to 0 is an empty slot at once: the same checksum misses and the next record evicts
nothing. -/
def Obligations.DeadlineThatWrapsToZeroIsEmpty : Prop :=
  ∀ s t : State,
    s.rgn.off.toNat + s.rgn.len.toNat ≤ 256 → s.table ≠ [] → s.tickSnap + s.dupWindow = 0#32 →
    (∀ i, ¬ LiveAt (swept s.tickSnap s.table) (crc (s.fbs s.rgn.off.toNat s.rgn.len.toNat)) i) →
    exec (.dupRecord 0#8 0#16) s = .next t →
    ∃ u v, exec (.dupCheck 0#8 0#16) t = .next u ∧ u.dupRes.hit = false ∧
      exec (.dupRecord 0#8 0#16) t = .next v ∧ v.dupRes.recorded = true ∧ v.dupRes.evicted = false

/-! ### The digipeat rule engine -/

/-- R212 to R214: a valid frame whose source is the node is dropped as SELF before the table is touched; one that is not the node's
own and whose payload checksum is live after the sweep is dropped as DUPLICATE, and the sweep stays. -/
def Obligations.OwnAndDuplicateFramesAreDropped : Prop :=
  ∀ (s : State) (n : Nat), FrameShape s n →
    ((s.field 1).call = s.node.call → (s.field 1).sb &&& s.params.selfMask = s.node.sb &&& s.params.selfMask →
      exec (.digiProcess 0#8 0#16) s =
        .next (completed { accepted s n with digiRes := { DigiRes.zero with reason := .selfFrame } })) ∧
    ∀ i, NotSelf s → LiveAt (swept s.tickSnap s.table) (crc (payloadOf s n)) i →
      exec (.digiProcess 0#8 0#16) s =
        .next (completed { accepted s n with
          table := swept s.tickSnap s.table
          digiRes := { DigiRes.zero with reason := .duplicate } })

/-- R215 to R219: a fresh frame whose payload is the node's message prefix and a remainder ends as MESSAGE, with the place of
the remainder and of its first ACK tag; the frame is unchanged and nothing is recorded. -/
def Obligations.DirectedMessageIsReported : Prop :=
  ∀ (s : State) (n : Nat) (rem : List Byte) (base : State), FrameShape s n → NotSelf s →
    (∀ i, ¬ LiveAt (swept s.tickSnap s.table) (crc (payloadOf s n)) i) →
    payloadOf s n = msgPfx s.node ++ rem →
    base = { accepted s n with
      table := swept s.tickSnap s.table
      msgInfo := ⟨BitVec.ofNat 16 (7 * n + 13), BitVec.ofNat 16 rem.length⟩ } →
    (∀ pre digits post : List Byte, rem = pre ++ 0x7B#8 :: digits ++ post → digits ≠ [] →
      (∀ c ∈ digits, isDigit c = true) → (∀ c ∈ post.head?, isDigit c = false) →
      (∀ j c, j < pre.length → rem[j]? = some 0x7B#8 → rem[j + 1]? = some c → isDigit c = false) →
      exec (.digiProcess 0#8 0#16) s =
        .next (completed { base with
          digiRes := { DigiRes.zero with verdict := .message, ackFound := true }
          ackInfo := ⟨BitVec.ofNat 16 (7 * n + 13 + pre.length + 1), BitVec.ofNat 8 digits.length⟩ })) ∧
    ((∀ j c, rem[j]? = some 0x7B#8 → rem[j + 1]? = some c → isDigit c = false) →
      exec (.digiProcess 0#8 0#16) s =
        .next (completed { base with
          digiRes := { DigiRes.zero with verdict := .message }
          ackInfo := ⟨0#16, 0#8⟩ }))

/-- R220 to R225: a frame that reaches the rules and whose destination SSID is in range is digipeated: the destination SSID is
decremented (its byte loses 2), the node is inserted at the insertion point, the payload checksum is recorded. -/
def Obligations.DestinationSsidDigipeats : Prop :=
  ∀ (s : State) (n k i : Nat) (ev : Bool) (T : List Slot),
    s.params.wf = true → ReachesRules s n → DestApplies s → HasRoom s n → InsertionPoint s n k →
    T = swept s.tickSnap s.table → InsertsAt T s.tickSnap i ev →
    ∃ t, exec (.digiProcess 0#8 0#16) s = .next t ∧
      t.fb 6 = s.fb 6 - 2#8 ∧ (∀ j, j ≠ 6 → t.fb j = insertedByte s k j) ∧
      { t with mem := s.mem } = completed { accepted s n with
        flen := BitVec.ofNat 16 (s.flen.toNat + 7)
        hdr := ⟨BitVec.ofNat 8 (n + 1), BitVec.ofNat 8 (n - 1), BitVec.ofNat 16 (7 * n + 9)⟩
        table := T.set i ⟨crc (payloadOf s n), s.tickSnap + s.dupWindow⟩
        digiRes := ⟨.digipeat, .destSsid, isQuery (payloadOf s n), false, true, true, BitVec.ofNat 4 k⟩
        cnt := { s.cnt with rx := s.cnt.rx + 1#32, digi := s.cnt.digi + 1#32 } }

/-- R227 to R229: a candidate WIDEn-N with N at least 2 is decremented (its SSID byte loses 2 and moves up by 7) and the node is
inserted ahead of it. -/
def Obligations.WideHopInsertsTheNode : Prop :=
  ∀ (s : State) (n k w i : Nat) (ev : Bool) (T : List Slot),
    s.params.wf = true → ReachesRules s n → ¬ DestApplies s → Candidate s n k → IsWide s.cfg.widenMax (s.field k) w →
    2 ≤ (s.field k).ssid.toNat → HasRoom s n → T = swept s.tickSnap s.table → InsertsAt T s.tickSnap i ev →
    ∃ t, exec (.digiProcess 0#8 0#16) s = .next t ∧
      t.fb (7 * k + 13) = s.fb (7 * k + 6) - 2#8 ∧ (∀ j, j ≠ 7 * k + 13 → t.fb j = insertedByte s k j) ∧
      { t with mem := s.mem } = completed { accepted s n with
        flen := BitVec.ofNat 16 (s.flen.toNat + 7)
        hdr := ⟨BitVec.ofNat 8 (n + 1), BitVec.ofNat 8 (n - 1), BitVec.ofNat 16 (7 * n + 9)⟩
        table := T.set i ⟨crc (payloadOf s n), s.tickSnap + s.dupWindow⟩
        digiRes := ⟨.digipeat, .wideInsert, isQuery (payloadOf s n), false, true, true, BitVec.ofNat 4 k⟩
        cnt := { s.cnt with rx := s.cnt.rx + 1#32, digi := s.cnt.digi + 1#32 } }

/-- R230, R231: a candidate WIDEn-1 is overwritten with the node, its E bit kept; FLEN does not change. -/
def Obligations.LastWideHopIsOverwritten : Prop :=
  ∀ (s : State) (n k w i : Nat) (ev : Bool) (T : List Slot),
    s.params.wf = true → ReachesRules s n → ¬ DestApplies s → Candidate s n k → IsWide s.cfg.widenMax (s.field k) w →
    (s.field k).ssid.toNat = 1 → T = swept s.tickSnap s.table → InsertsAt T s.tickSnap i ev →
    ∃ t, exec (.digiProcess 0#8 0#16) s = .next t ∧
      (∀ j, t.fb j = overwrittenByte s k j) ∧
      { t with mem := s.mem } = completed { accepted s n with
        table := T.set i ⟨crc (payloadOf s n), s.tickSnap + s.dupWindow⟩
        digiRes := ⟨.digipeat, .wideOverwrite, isQuery (payloadOf s n), false, false, true, BitVec.ofNat 4 k⟩
        cnt := { s.cnt with rx := s.cnt.rx + 1#32, digi := s.cnt.digi + 1#32 } }

/-- R222, R226 to R228, R232: the drops of a frame that reaches the rules, each with its reason; with the query `?APRS?` the verdict is
BEACON_TRIGGER. The frame is unchanged and nothing is recorded. -/
def Obligations.RuleDropsAndTheBeaconTrigger : Prop :=
  ∀ (s : State) (n : Nat) (q : Bool) (dropped : Reason → State), ReachesRules s n → q = isQuery (payloadOf s n) →
    (∀ r, dropped r = completed { accepted s n with
      table := swept s.tickSnap s.table
      digiRes := ⟨if q then .beaconTrigger else .drop, r, q, false, false, false, 0#4⟩ }) →
    (DestApplies s → n = 10 → exec (.digiProcess 0#8 0#16) s = .next (dropped .pathFull)) ∧
    (DestApplies s → n < 10 → s.params.maxFrameLen < s.flen.toNat + 7 →
      exec (.digiProcess 0#8 0#16) s = .next (dropped .frameOverflow)) ∧
    (¬ DestApplies s → n = 2 → exec (.digiProcess 0#8 0#16) s = .next (dropped .noPath)) ∧
    (¬ DestApplies s → 2 < n → (∀ k, 2 ≤ k → k < n → (s.field k).h = true) →
      exec (.digiProcess 0#8 0#16) s = .next (dropped .noRule)) ∧
    (∀ k, ¬ DestApplies s → Candidate s n k → (∀ w, ¬ IsWide s.cfg.widenMax (s.field k) w) →
      exec (.digiProcess 0#8 0#16) s = .next (dropped .noRule)) ∧
    (∀ k w, ¬ DestApplies s → Candidate s n k → IsWide s.cfg.widenMax (s.field k) w → 2 ≤ (s.field k).ssid.toNat →
      n = 10 → exec (.digiProcess 0#8 0#16) s = .next (dropped .pathFull)) ∧
    (∀ k w, ¬ DestApplies s → Candidate s n k → IsWide s.cfg.widenMax (s.field k) w → 2 ≤ (s.field k).ssid.toNat →
      n < 10 → s.params.maxFrameLen < s.flen.toNat + 7 →
      exec (.digiProcess 0#8 0#16) s = .next (dropped .frameOverflow))

/-- R224, R234: PATH_INSERT_NODE on a valid frame: its failures in their order, and otherwise every byte of the spliced frame, FLEN
and the geometry; nothing else changes. -/
def Obligations.PathInsertSplicesTheNode : Prop :=
  ∀ (s : State) (n : Nat) (k : BitVec 8), s.params.wf = true → FrameShape s n →
    ((k.toNat < 2 ∨ n < k.toNat) → exec (.pathInsertNode k 0#16) s = .next (failed s .badArg)) ∧
    (2 ≤ k.toNat → k.toNat ≤ n → n = 10 → exec (.pathInsertNode k 0#16) s = .next (failed s .pathFull)) ∧
    (2 ≤ k.toNat → k.toNat ≤ n → n < 10 → s.params.maxFrameLen < s.flen.toNat + 7 →
      exec (.pathInsertNode k 0#16) s = .next (failed s .frameOverflow)) ∧
    (2 ≤ k.toNat → k.toNat ≤ n → HasRoom s n →
      ∃ t, exec (.pathInsertNode k 0#16) s = .next t ∧ (∀ j, t.fb j = insertedByte s k.toNat j) ∧
        { t with mem := s.mem } = completed { s with
          flen := BitVec.ofNat 16 (s.flen.toNat + 7)
          hdr := ⟨BitVec.ofNat 8 (n + 1), BitVec.ofNat 8 (n - 1), BitVec.ofNat 16 (7 * n + 9)⟩
          payLen := BitVec.ofNat 16 (s.flen.toNat - (7 * n + 2)) })

/-- R231, R235: PATH_OVERWRITE_NODE on a valid frame: it fails on an index that is no path entry, and otherwise writes the node
over the entry, its E bit kept, and the geometry; nothing else changes. -/
def Obligations.PathOverwriteReplacesTheEntry : Prop :=
  ∀ (s : State) (n : Nat) (k : BitVec 8), s.params.wf = true → FrameShape s n →
    ((k.toNat < 2 ∨ n - 1 < k.toNat) → exec (.pathOverwriteNode k 0#16) s = .next (failed s .badArg)) ∧
    (2 ≤ k.toNat → k.toNat ≤ n - 1 →
      ∃ t, exec (.pathOverwriteNode k 0#16) s = .next t ∧ (∀ j, t.fb j = overwrittenByte s k.toNat j) ∧
        { t with mem := s.mem } = completed (described s n))

/-- R104, R224, R231, R329: a path mutation leaves exactly the last address field with E = 1 and stays within MAX_FRAME_LEN; and when
the node's six call bytes are shifted characters, the frame it leaves is valid again. -/
def Obligations.PathMutationsKeepTheFrameInvariant : Prop :=
  ∀ (i : Instr) (s t : State) (n : Nat), s.params.wf = true → FrameShape s n → i.opcode ∈ [0x30#8, 0x31#8, 0x32#8] →
    exec i s = .next t → t.status.err = false →
    LastOnly t t.hdr.naddr.toNat ∧ t.flen.toNat ≤ s.params.maxFrameLen ∧
    t.flen.toNat = s.flen.toNat + 7 * (t.hdr.naddr.toNat - n) ∧
    ((∀ c ∈ s.node.call, c.getLsbD 0 = false) → FrameShape t t.hdr.naddr.toNat)

/-! ### The channel-access arbiter -/

/-- R251, R257: CSMA_ACQUIRE starts the wait: the arbiter is cleared and waits, BUSY and every other flag stay. -/
def Obligations.CsmaAcquireStartsTheWait : Prop :=
  ∀ s : State,
    exec (.csmaAcquire 0#8 0#16) s = .next { s with arb := ⟨0#16, 0#8, .wait⟩, engine := .csmaWait }

/-- R252 to R255: the four outcomes of a sample event while the arbiter waits. That a sample event outside a wait changes nothing
is the model's choice (log entry 1: an event that is not enabled changes nothing but the schedule). -/
def Obligations.SampleEventsCountDrawAndGrant : Prop :=
  ∀ (s : State) (r : Byte),
    (s.engine ≠ .csmaWait → ∀ b, step (before (.sample b r) s) = .next s) ∧
    (s.engine = .csmaWait →
      step (before (.sample true r) s) = .next { s with arb := { s.arb with idleCnt := 0#16 } } ∧
      (s.arb.idleCnt + 1#16 ≠ s.cfg.slotSamples →
        step (before (.sample false r) s) = .next { s with arb := { s.arb with idleCnt := s.arb.idleCnt + 1#16 } }) ∧
      (s.arb.idleCnt + 1#16 = s.cfg.slotSamples → s.cfg.persist.toNat < r.toNat →
        step (before (.sample false r) s) =
          .next { s with
            status := { s.status with busy := false, done := true, err := false, errcode := .noError, grant := true }
            engine := .idle
            cnt := { s.cnt with grant := s.cnt.grant + 1#32 }
            arb := ⟨s.cfg.slotSamples, BitVec.ofNat 8 (min (s.arb.attempts.toNat + 1) 255), .idle⟩ }) ∧
      (s.arb.idleCnt + 1#16 = s.cfg.slotSamples → r.toNat ≤ s.cfg.persist.toNat →
        step (before (.sample false r) s) =
          .next { s with
            arb := { s.arb with
              idleCnt := 0#16, attempts := BitVec.ofNat 8 (min (s.arb.attempts.toNat + 1) 255) } }))

/-- R326, R327: with PERSIST = 255, or with the channel held busy, no number of sample events ends the wait; a busy channel also
takes no draw and leaves IDLE_CNT at 0. -/
def Obligations.WaitCanLastForever : Prop :=
  ∀ (s : State) (l : List (Bool × Byte)), s.engine = .csmaWait →
    ∃ t : State, Host.Core.run Sys2Proof.core l.length (beforeSamples l s) = .next t ∧
      (s.cfg.persist = 0xFF#8 → t.engine = .csmaWait ∧ t.status = s.status ∧ t.cnt = s.cnt) ∧
      ((∀ x ∈ l, x.1 = true) →
        t.engine = .csmaWait ∧ t.status = s.status ∧ t.cnt = s.cnt ∧ t.arb.attempts = s.arb.attempts ∧
          (s.arb.idleCnt = 0#16 ∨ l ≠ [] → t.arb.idleCnt = 0#16))

/-- R259, R252: from the start of a wait, the sample event that ends it is the last of SLOT_SAMPLES idle ones, with no busy one
among them, and its draw exceeds PERSIST; and whatever events stand between the samples: every step of a wait keeps IDLE_CNT a
count of idle samples at the end of those taken, and a step that ends the wait with a grant took an idle sample that made
SLOT_SAMPLES of them. (BUSY is 1 during a wait: `Inv.busy`. With nothing scheduled a step takes a free sample: log entry 1.) -/
def Obligations.GrantNeedsAFullIdleSlot : Prop :=
  (∀ (s t u : State) (l : List (Bool × Byte)) (x : Bool × Byte),
    s.engine = .csmaWait → s.arb.idleCnt = 0#16 → s.cfg.slotSamples ≠ 0#16 →
    Host.Core.run Sys2Proof.core l.length (beforeSamples l s) = .next u → u.engine = .csmaWait →
    Host.Core.run Sys2Proof.core (l.length + 1) (beforeSamples (l ++ [x]) s) = .next t → t.engine ≠ .csmaWait →
    t.status.grant = true ∧ s.cfg.persist.toNat < x.2.toNat ∧ s.cfg.slotSamples.toNat ≤ l.length + 1 ∧
    ∀ y ∈ (l ++ [x]).drop (l.length + 1 - s.cfg.slotSamples.toNat), y.1 = false) ∧
  ∀ (s t : State) (h : List Bool),
    s.engine = .csmaWait → s.status.busy = true → IdleTrail s h → step s = .next t →
    (t.engine = .csmaWait → IdleTrail t (sampleTaken s ++ h) ∧ t.cfg.slotSamples = s.cfg.slotSamples) ∧
    (t.engine ≠ .csmaWait → t.status.grant = true →
      sampleTaken s = [false] ∧ s.arb.idleCnt + 1#16 = s.cfg.slotSamples ∧
      s.cfg.slotSamples.toNat ≤ (sampleTaken s ++ h).length ∧
      ∀ b ∈ (sampleTaken s ++ h).take s.cfg.slotSamples.toNat, b = false)

/-- R252 to R254: the idle samples that fill the slot, the last with a draw above PERSIST, end the wait with a grant. -/
def Obligations.IdleSlotAndDrawGrant : Prop :=
  ∀ (s : State) (l : List (Bool × Byte)) (r : Byte),
    s.engine = .csmaWait → s.arb.idleCnt.toNat + l.length + 1 = s.cfg.slotSamples.toNat →
    (∀ x ∈ l, x.1 = false) → s.cfg.persist.toNat < r.toNat →
    ∃ t : State, Host.Core.run Sys2Proof.core (l.length + 1) (beforeSamples (l ++ [(false, r)]) s) = .next t ∧
      t.engine = .idle ∧ t.status = { completed s with status := { (completed s).status with grant := true } }.status ∧
      t.arb = ⟨s.cfg.slotSamples, BitVec.ofNat 8 (min (s.arb.attempts.toNat + 1) 255), .idle⟩ ∧
      t.cnt = { s.cnt with grant := s.cnt.grant + 1#32 }

/-- R258, R253: of the 256 values of a draw 255 - PERSIST grant (64 with the reset PERSIST); and of the 256^k sequences of `k` draws,
one to each idle slot of a wait, (PERSIST + 1)^(k - 1) * (255 - PERSIST) end the wait with the k-th draw and not before: for
uniform and independent draws, the geometric law of R258. -/
def Obligations.DrawsGrantInTheStatedProportion : Prop :=
  (∀ s : State, s.engine = .csmaWait → s.arb.idleCnt + 1#16 = s.cfg.slotSamples →
    (List.range 256).countP (fun r => grantedBy s [(false, BitVec.ofNat 8 r)]) = 255 - s.cfg.persist.toNat) ∧
  255 - State.reset.cfg.persist.toNat = 64 ∧
  ∀ (s : State) (k : Nat), s.engine = .csmaWait → s.arb.idleCnt = 0#16 → s.cfg.slotSamples ≠ 0#16 → 1 ≤ k →
    (drawSequences k).length = 256 ^ k ∧
    (drawSequences k).countP (fun rs =>
        grantedBy s (slotsOf s.cfg.slotSamples.toNat rs) && !grantedBy s (slotsOf s.cfg.slotSamples.toNat rs.dropLast)) =
      (s.cfg.persist.toNat + 1) ^ (k - 1) * (255 - s.cfg.persist.toNat)

/-- R256: nothing ends a wait but a grant, a soft reset (a CTRL write with SRST = 1) or a hard reset, and a reset grants
nothing and sets no DONE. (BUSY is 1 during a wait: `Inv.busy`.) -/
def Obligations.WaitEndsOnlyByGrantOrReset : Prop :=
  ∀ s t : State, s.engine = .csmaWait → s.status.busy = true → step s = .next t →
    t.engine = .csmaWait ∨
    (t.engine = .idle ∧ t.status.grant = true ∧ t.status.done = true ∧ t.cnt.grant = s.cnt.grant + 1#32) ∨
    (t.engine = .idle ∧ t.status.grant = false ∧ t.status.done = false ∧
      ((∃ v rest, s.schedule = .host (.write32 0x00C#10 v) :: rest ∧ v.getLsbD 1 = true) ∨
        ∃ rest, s.schedule = .hardReset :: rest))

/-! ### Host accesses -/

/-- R78: while BUSY = 1 a write to FLEN, TLEN, RGN, NODE_LO, NODE_HI, CFG, DUP_WINDOW, FBUF or TBUF is dropped and sets WBUSY. -/
def Obligations.WritesWhileBusyAreDropped : Prop :=
  ∀ (s : State) (off : Offset), s.status.busy = true →
    (∀ v, (off ∈ [0x018#10, 0x01C#10, 0x020#10, 0x024#10, 0x028#10, 0x02C#10, 0x030#10] ∨
        (0x100 ≤ off.toNat ∧ off.toNat % 4 = 0)) →
      step (before (.host (.write32 off v)) s) =
        .next { s with status := { s.status with wbusy := true }, busResp := .ack }) ∧
    (∀ v, 0x100 ≤ off.toNat →
      step (before (.host (.write8 off v)) s) =
        .next { s with status := { s.status with wbusy := true }, busResp := .ack })

/-- R28 to R34, R37: what a write to each operand and configuration register stores while BUSY = 0, and what a write to CALLP
stores whether BUSY is 0 or 1. R78 does not list CALLP; that its writes are taken while BUSY = 1 is log entry 10 (DEDUCED). -/
def Obligations.ConfigurationWritesAreStored : Prop :=
  ∀ (s : State) (v : Word),
    (s.status.busy = false →
      step (before (.host (.write32 0x018#10 v)) s) = .next { s with flen := v.extractLsb' 0 16, busResp := .ack } ∧
      step (before (.host (.write32 0x01C#10 v)) s) = .next { s with tlen := v.extractLsb' 0 16, busResp := .ack } ∧
      step (before (.host (.write32 0x020#10 v)) s) =
        .next { s with rgn := ⟨v.extractLsb' 0 16, v.extractLsb' 16 16⟩, busResp := .ack } ∧
      step (before (.host (.write32 0x024#10 v)) s) =
        .next { s with
          node := { s.node with
            c0 := v.extractLsb' 0 8, c1 := v.extractLsb' 8 8, c2 := v.extractLsb' 16 8, c3 := v.extractLsb' 24 8 }
          busResp := .ack } ∧
      step (before (.host (.write32 0x028#10 v)) s) =
        .next { s with
          node := { s.node with c4 := v.extractLsb' 0 8, c5 := v.extractLsb' 8 8, sb := v.extractLsb' 16 8 }
          busResp := .ack } ∧
      step (before (.host (.write32 0x02C#10 v)) s) =
        .next { s with
          cfg := ⟨v.extractLsb' 0 4, v.extractLsb' 8 8,
            if v.extractLsb' 16 16 = 0#16 then 1#16 else v.extractLsb' 16 16⟩
          busResp := .ack } ∧
      step (before (.host (.write32 0x030#10 v)) s) = .next { s with dupWindow := v, busResp := .ack }) ∧
    step (before (.host (.write32 0x03C#10 v)) s) =
      .next { s with
        callp := { s.callp with
          c0 := v.extractLsb' 0 8, c1 := v.extractLsb' 8 8, c2 := v.extractLsb' 16 8, c3 := v.extractLsb' 24 8 }
        busResp := .ack } ∧
    step (before (.host (.write32 0x040#10 v)) s) =
      .next { s with
        callp := { s.callp with c4 := v.extractLsb' 0 8, c5 := v.extractLsb' 8 8, sb := v.extractLsb' 16 8 }
        busResp := .ack }

/-- R72, R73: an 8-bit or aligned 32-bit write into FBUF or TBUF while BUSY = 0 stores its bytes, bits 7:0 at the lowest offset,
and no other byte, and nothing else changes. -/
def Obligations.BufferWritesAreLittleEndian : Prop :=
  ∀ (s : State) (off : Offset), s.status.busy = false → 0x100 ≤ off.toNat →
    (∀ v, ∃ t, step (before (.host (.write8 off v)) s) = .next t ∧
      (∀ a, t.byteAt a = if a = off.toNat then v else s.byteAt a) ∧
      { t with mem := s.mem } = { s with busResp := .ack }) ∧
    (∀ v, off.toNat % 4 = 0 → ∃ t, step (before (.host (.write32 off v)) s) = .next t ∧
      (∀ a, t.byteAt a =
        if off.toNat ≤ a ∧ a < off.toNat + 4 then v.extractLsb' (8 * (a - off.toNat)) 8 else s.byteAt a) ∧
      { t with mem := s.mem } = { s with busResp := .ack })

/-- R74: a 16-bit access, a misaligned 32-bit access and an 8-bit access to a non-buffer register write nothing and set BUSERR,
and the answer names the access and carries 0. The model's own in this: that it is a next state, and not a refusal of the step
(log entry 7); that the answer is always `refused` (log entry 8); that an access at a byte offset inside a register is refused, and
does not read 0 by R21 (log entry 17, DEDUCED); that WBUSY stays while BUSY = 1 (log entry 21); that BUSERR is set also where R21 or
R49 has the write ignored (log entry 22); that the answer to a refused write carries 0 (log entry 23). -/
def Obligations.UnsupportedAccessesAreRefused : Prop :=
  ∀ (s : State) (a : Access),
    ((∃ off, a = .read16 off) ∨ (∃ off v, a = .write16 off v) ∨
      (∃ off, a = .read32 off ∧ off.toNat % 4 ≠ 0) ∨ (∃ off v, a = .write32 off v ∧ off.toNat % 4 ≠ 0) ∨
      (∃ off, a = .read8 off ∧ off.toNat < 0x80) ∨ (∃ off v, a = .write8 off v ∧ off.toNat < 0x80)) →
    step (before (.host a) s) =
      .next { s with status := { s.status with buserr := true }, busResp := .refused a } ∧
    BusResp.value (.refused a) = 0#32

/-- R21, R49, R72: a supported read changes nothing but the answer on the bus, and so does a supported write to a read-only register
or to the duplicate-table window: it is ignored, and sets neither WBUSY nor BUSERR. -/
def Obligations.ReadsAndIgnoredWritesChangeNothing : Prop :=
  ∀ (s : State) (off : Offset),
    (off.toNat % 4 = 0 → ∃ w, step (before (.host (.read32 off)) s) = .next { s with busResp := .data32 w }) ∧
    (0x80 ≤ off.toNat → ∃ b, step (before (.host (.read8 off)) s) = .next { s with busResp := .data8 b }) ∧
    (∀ v, (off ∈ readOnly ∨ (0x80 ≤ off.toNat ∧ off.toNat < 0x100 ∧ off.toNat % 4 = 0)) →
      step (before (.host (.write32 off v)) s) = .next { s with busResp := .ack }) ∧
    (∀ v, 0x80 ≤ off.toNat → off.toNat < 0x100 → step (before (.host (.write8 off v)) s) = .next { s with busResp := .ack })

/-- R20 to R50, R72, R73: what a 32-bit read of every register shows (STATUS, NODE, CFG and DIGI_RES bit by bit, the others as the
number their fields make), what 32-bit reads of the table window and the buffers show, and what 8-bit reads of them show. -/
def Obligations.ReadsShowTheFields : Prop :=
  ∀ s : State,
    (∃ w, step (before (.host (.read32 0x010#10)) s) = .next { s with busResp := .data32 w } ∧
      w.getLsbD 0 = s.status.busy ∧ w.getLsbD 1 = s.status.done ∧ w.getLsbD 2 = s.status.err ∧
      w.getLsbD 3 = s.status.grant ∧ w.getLsbD 4 = s.status.overrun ∧ w.getLsbD 5 = s.status.wbusy ∧
      w.getLsbD 6 = s.status.buserr ∧ w.getLsbD 7 = false ∧ w.extractLsb' 8 8 = s.status.errcode.code ∧
      w.extractLsb' 16 8 = s.status.lastop ∧ w.extractLsb' 24 8 = 0#8) ∧
    (∃ w, step (before (.host (.read32 0x024#10)) s) = .next { s with busResp := .data32 w } ∧
      w.extractLsb' 0 8 = s.node.c0 ∧ w.extractLsb' 8 8 = s.node.c1 ∧ w.extractLsb' 16 8 = s.node.c2 ∧
      w.extractLsb' 24 8 = s.node.c3) ∧
    (∃ w, step (before (.host (.read32 0x028#10)) s) = .next { s with busResp := .data32 w } ∧
      w.extractLsb' 0 8 = s.node.c4 ∧ w.extractLsb' 8 8 = s.node.c5 ∧ w.extractLsb' 16 8 = s.node.sb ∧
      w.extractLsb' 24 8 = 0#8) ∧
    (∃ w, step (before (.host (.read32 0x02C#10)) s) = .next { s with busResp := .data32 w } ∧
      w.extractLsb' 0 4 = s.cfg.widenMax ∧ w.extractLsb' 4 4 = 0#4 ∧ w.extractLsb' 8 8 = s.cfg.persist ∧
      w.extractLsb' 16 16 = s.cfg.slotSamples) ∧
    (∃ w, step (before (.host (.read32 0x064#10)) s) = .next { s with busResp := .data32 w } ∧
      w.extractLsb' 0 2 = s.digiRes.verdict.code ∧ w.extractLsb' 8 8 = s.digiRes.reason.code ∧
      w.getLsbD 16 = s.digiRes.beaconReq ∧ w.getLsbD 17 = s.digiRes.ackFound ∧ w.getLsbD 18 = s.digiRes.grew ∧
      w.getLsbD 19 = s.digiRes.dupRecorded ∧ w.extractLsb' 24 4 = s.digiRes.field) ∧
    (∀ i, i < 16 → ∃ w v,
      step (before (.host (.read32 (BitVec.ofNat 10 (0x080 + 8 * i)))) s) = .next { s with busResp := .data32 w } ∧
      step (before (.host (.read32 (BitVec.ofNat 10 (0x084 + 8 * i)))) s) = .next { s with busResp := .data32 v } ∧
      (∀ x, s.table[i]? = some x → w = x.csum.zeroExtend 32 ∧ v = x.exp) ∧ (s.table[i]? = none → w = 0#32 ∧ v = 0#32) ∧
      ∀ k, k < 4 →
        step (before (.host (.read8 (BitVec.ofNat 10 (0x080 + 8 * i + k)))) s) =
          .next { s with busResp := .data8 (w.extractLsb' (8 * k) 8) } ∧
        step (before (.host (.read8 (BitVec.ofNat 10 (0x084 + 8 * i + k)))) s) =
          .next { s with busResp := .data8 (v.extractLsb' (8 * k) 8) }) ∧
    (s.params.wf = true → ∀ off x, (off, x) ∈ registerValues s →
      step (before (.host (.read32 off)) s) = .next { s with busResp := .data32 (BitVec.ofNat 32 x) }) ∧
    (∀ off : Offset, 0x100 ≤ off.toNat →
      step (before (.host (.read8 off)) s) = .next { s with busResp := .data8 (s.byteAt off.toNat) } ∧
      (off.toNat % 4 = 0 → ∃ w, step (before (.host (.read32 off)) s) = .next { s with busResp := .data32 w } ∧
        ∀ k, k < 4 → w.extractLsb' (8 * k) 8 = s.byteAt (off.toNat + k)))

/-- R26, R288: a write to STATUS clears the W1C bits it has a 1 for, and leaves ERRCODE, LASTOP, GRANT and BUSY. -/
def Obligations.StatusWriteClearsTheOnes : Prop :=
  ∀ (s : State) (v : Word),
    step (before (.host (.write32 0x010#10 v)) s) =
      .next { s with
        status := { s.status with
          done := if v.getLsbD 1 then false else s.status.done
          err := if v.getLsbD 2 then false else s.status.err
          overrun := if v.getLsbD 4 then false else s.status.overrun
          wbusy := if v.getLsbD 5 then false else s.status.wbusy
          buserr := if v.getLsbD 6 then false else s.status.buserr }
        busResp := .ack }

/-- R26: OVERRUN, WBUSY and BUSERR are sticky: only a write of 1 to the bit, a soft reset or a hard reset clears one. -/
def Obligations.StickyBitsStayUntilCleared : Prop :=
  ∀ (s t : State) (bit : Nat), step s = .next t →
    ((bit = 4 ∧ s.status.overrun = true ∧ t.status.overrun = false) ∨
      (bit = 5 ∧ s.status.wbusy = true ∧ t.status.wbusy = false) ∨
      (bit = 6 ∧ s.status.buserr = true ∧ t.status.buserr = false)) →
    ∃ e rest, s.schedule = e :: rest ∧
      ((∃ v, e = .host (.write32 0x010#10 v) ∧ v.getLsbD bit = true) ∨
        (∃ v, e = .host (.write32 0x00C#10 v) ∧ v.getLsbD 1 = true) ∨ e = .hardReset)

/-- R271 to R273, R311, R312: a CTRL write with SRST = 1 gives every piece of state its reset value but the contents of FBUF and
TBUF and the TICK input, whatever its other bits and whether or not BUSY = 1; one with SRST = 0 stores IRQ_EN and, with
CNT_CLR = 1, clears the counters; a hard reset also leaves the buffers' bytes unspecified. The model's own in this: that a reset
keeps `params`, `schedule`, `busResp` and the counters of free values (log entries 6 and 9); that an unspecified byte is
`unwrittenByte` of the number of hard resets (log entry 3); that a hard reset is one event (log entry 15). -/
def Obligations.CtrlWritesAndResets : Prop :=
  ∀ (s : State) (v : Word) (r : State),
    r = { State.reset with
      params := s.params, table := List.replicate s.params.dupSlots ⟨0#16, 0#32⟩, tick := s.tick, mem := s.mem,
      schedule := s.schedule, busResp := s.busResp, resets := s.resets, samples := s.samples } →
    (v.getLsbD 1 = true → step (before (.host (.write32 0x00C#10 v)) s) = .next { r with busResp := .ack }) ∧
    (v.getLsbD 1 = false →
      step (before (.host (.write32 0x00C#10 v)) s) =
        .next { s with
          irqEn := v.getLsbD 0
          cnt := if v.getLsbD 2 then ⟨0#32, 0#32, 0#32⟩ else s.cnt
          busResp := .ack }) ∧
    ∃ t, step (before .hardReset s) = .next t ∧ (∀ a, t.byteAt a = Config.unwrittenByte (s.resets + 1) a) ∧
      { t with mem := s.mem, resets := s.resets } = r

/-- R59, R313: the reset values the spec gives, in the default build. -/
def Obligations.ResetLeavesTheListedValues : Prop :=
  State.reset.irqEn = false ∧ State.reset.status.word = 0#32 ∧ State.reset.flen = 0#16 ∧ State.reset.tlen = 0#16 ∧
  State.reset.rgn = ⟨0#16, 0#16⟩ ∧ State.reset.node.bytes = List.replicate 7 0#8 ∧
  State.reset.cfg = ⟨0#4, 0xBF#8, 10#16⟩ ∧ State.reset.readReg 0x02C = 0x000ABF00#32 ∧ State.reset.dupWindow = 30#32 ∧
  State.reset.tickSnap = 0#32 ∧ State.reset.callp.bytes = List.replicate 7 0#8 ∧
  State.reset.callTxt = List.replicate 9 0#8 ∧ State.reset.callInfo = ⟨0#4, 0#16⟩ ∧
  State.reset.hdr = ⟨0#8, 0#8, 0#16⟩ ∧ State.reset.payLen = 0#16 ∧ State.reset.crcRes = 0#16 ∧
  State.reset.dupRes.word = 0#32 ∧ State.reset.digiRes.word = 0#32 ∧ State.reset.msgInfo = ⟨0#16, 0#16⟩ ∧
  State.reset.ackInfo = ⟨0#16, 0#8⟩ ∧ State.reset.arb = ⟨0#16, 0#8, .idle⟩ ∧ State.reset.cnt = ⟨0#32, 0#32, 0#32⟩ ∧
  State.reset.table = List.replicate 4 ⟨0#16, 0#32⟩ ∧ State.reset.engine = .idle ∧ State.reset.pend = 0#32 ∧
  State.reset.irq = false ∧ State.reset.readReg 0x000 = 0x35325841#32 ∧ State.reset.readReg 0x004 = 0x00010000#32 ∧
  State.reset.readReg 0x008 = 0x1E03FF04#32

/-! ### The invariant -/

/-- The invariant of the block (R33, R38 to R40, R49, R54, R55, R113, R252, R280) holds after reset. -/
def Obligations.InvariantHoldsAfterReset : Prop := Inv State.reset

/-- R33, R38 to R40, R49, R54, R55, R113, R252, R280: whatever happens next, a step from a state with the invariant has a next state
with it. -/
def Obligations.EveryStepKeepsTheInvariant : Prop :=
  ∀ s : State, Inv s → ∃ t, step s = .next t ∧ Inv t
end

