-- ==== Sys2Proof/Laws/State.lean ====
section
/-! SUPPORT. What each update of the state does to each field: one lemma per field per update, true by rfl. -/

namespace Sys2Proof.Machine

variable (s : State)

/-! ### `complete` -/

@[simp] theorem State.complete_params : (s.complete).params = s.params := rfl
@[simp] theorem State.complete_irqEn : (s.complete).irqEn = s.irqEn := rfl
@[simp] theorem State.complete_status : (s.complete).status = { s.status with busy := false, done := true, err := false, errcode := .noError } := rfl
@[simp] theorem State.complete_flen : (s.complete).flen = s.flen := rfl
@[simp] theorem State.complete_tlen : (s.complete).tlen = s.tlen := rfl
@[simp] theorem State.complete_rgn : (s.complete).rgn = s.rgn := rfl
@[simp] theorem State.complete_node : (s.complete).node = s.node := rfl
@[simp] theorem State.complete_cfg : (s.complete).cfg = s.cfg := rfl
@[simp] theorem State.complete_dupWindow : (s.complete).dupWindow = s.dupWindow := rfl
@[simp] theorem State.complete_tick : (s.complete).tick = s.tick := rfl
@[simp] theorem State.complete_tickSnap : (s.complete).tickSnap = s.tickSnap := rfl
@[simp] theorem State.complete_callp : (s.complete).callp = s.callp := rfl
@[simp] theorem State.complete_callTxt : (s.complete).callTxt = s.callTxt := rfl
@[simp] theorem State.complete_callInfo : (s.complete).callInfo = s.callInfo := rfl
@[simp] theorem State.complete_hdr : (s.complete).hdr = s.hdr := rfl
@[simp] theorem State.complete_payLen : (s.complete).payLen = s.payLen := rfl
@[simp] theorem State.complete_crcRes : (s.complete).crcRes = s.crcRes := rfl
@[simp] theorem State.complete_dupRes : (s.complete).dupRes = s.dupRes := rfl
@[simp] theorem State.complete_digiRes : (s.complete).digiRes = s.digiRes := rfl
@[simp] theorem State.complete_msgInfo : (s.complete).msgInfo = s.msgInfo := rfl
@[simp] theorem State.complete_ackInfo : (s.complete).ackInfo = s.ackInfo := rfl
@[simp] theorem State.complete_arb : (s.complete).arb = s.arb := rfl
@[simp] theorem State.complete_cnt : (s.complete).cnt = s.cnt := rfl
@[simp] theorem State.complete_table : (s.complete).table = s.table := rfl
@[simp] theorem State.complete_mem : (s.complete).mem = s.mem := rfl
@[simp] theorem State.complete_engine : (s.complete).engine = .idle := rfl
@[simp] theorem State.complete_pend : (s.complete).pend = s.pend := rfl
@[simp] theorem State.complete_schedule : (s.complete).schedule = s.schedule := rfl
@[simp] theorem State.complete_busResp : (s.complete).busResp = s.busResp := rfl
@[simp] theorem State.complete_resets : (s.complete).resets = s.resets := rfl
@[simp] theorem State.complete_samples : (s.complete).samples = s.samples := rfl

/-! ### `fail` -/

@[simp] theorem State.fail_params (c : ErrCode) : (s.fail c).params = s.params := rfl
@[simp] theorem State.fail_irqEn (c : ErrCode) : (s.fail c).irqEn = s.irqEn := rfl
@[simp] theorem State.fail_status (c : ErrCode) : (s.fail c).status = { s.status with busy := false, done := true, err := true, errcode := c } := rfl
@[simp] theorem State.fail_flen (c : ErrCode) : (s.fail c).flen = s.flen := rfl
@[simp] theorem State.fail_tlen (c : ErrCode) : (s.fail c).tlen = s.tlen := rfl
@[simp] theorem State.fail_rgn (c : ErrCode) : (s.fail c).rgn = s.rgn := rfl
@[simp] theorem State.fail_node (c : ErrCode) : (s.fail c).node = s.node := rfl
@[simp] theorem State.fail_cfg (c : ErrCode) : (s.fail c).cfg = s.cfg := rfl
@[simp] theorem State.fail_dupWindow (c : ErrCode) : (s.fail c).dupWindow = s.dupWindow := rfl
@[simp] theorem State.fail_tick (c : ErrCode) : (s.fail c).tick = s.tick := rfl
@[simp] theorem State.fail_tickSnap (c : ErrCode) : (s.fail c).tickSnap = s.tickSnap := rfl
@[simp] theorem State.fail_callp (c : ErrCode) : (s.fail c).callp = s.callp := rfl
@[simp] theorem State.fail_callTxt (c : ErrCode) : (s.fail c).callTxt = s.callTxt := rfl
@[simp] theorem State.fail_callInfo (c : ErrCode) : (s.fail c).callInfo = s.callInfo := rfl
@[simp] theorem State.fail_hdr (c : ErrCode) : (s.fail c).hdr = s.hdr := rfl
@[simp] theorem State.fail_payLen (c : ErrCode) : (s.fail c).payLen = s.payLen := rfl
@[simp] theorem State.fail_crcRes (c : ErrCode) : (s.fail c).crcRes = s.crcRes := rfl
@[simp] theorem State.fail_dupRes (c : ErrCode) : (s.fail c).dupRes = s.dupRes := rfl
@[simp] theorem State.fail_digiRes (c : ErrCode) : (s.fail c).digiRes = s.digiRes := rfl
@[simp] theorem State.fail_msgInfo (c : ErrCode) : (s.fail c).msgInfo = s.msgInfo := rfl
@[simp] theorem State.fail_ackInfo (c : ErrCode) : (s.fail c).ackInfo = s.ackInfo := rfl
@[simp] theorem State.fail_arb (c : ErrCode) : (s.fail c).arb = s.arb := rfl
@[simp] theorem State.fail_cnt (c : ErrCode) : (s.fail c).cnt = s.cnt := rfl
@[simp] theorem State.fail_table (c : ErrCode) : (s.fail c).table = s.table := rfl
@[simp] theorem State.fail_mem (c : ErrCode) : (s.fail c).mem = s.mem := rfl
@[simp] theorem State.fail_engine (c : ErrCode) : (s.fail c).engine = .idle := rfl
@[simp] theorem State.fail_pend (c : ErrCode) : (s.fail c).pend = s.pend := rfl
@[simp] theorem State.fail_schedule (c : ErrCode) : (s.fail c).schedule = s.schedule := rfl
@[simp] theorem State.fail_busResp (c : ErrCode) : (s.fail c).busResp = s.busResp := rfl
@[simp] theorem State.fail_resets (c : ErrCode) : (s.fail c).resets = s.resets := rfl
@[simp] theorem State.fail_samples (c : ErrCode) : (s.fail c).samples = s.samples := rfl

/-! ### `latchTick` -/

@[simp] theorem State.latchTick_params : (s.latchTick).params = s.params := rfl
@[simp] theorem State.latchTick_irqEn : (s.latchTick).irqEn = s.irqEn := rfl
@[simp] theorem State.latchTick_status : (s.latchTick).status = s.status := rfl
@[simp] theorem State.latchTick_flen : (s.latchTick).flen = s.flen := rfl
@[simp] theorem State.latchTick_tlen : (s.latchTick).tlen = s.tlen := rfl
@[simp] theorem State.latchTick_rgn : (s.latchTick).rgn = s.rgn := rfl
@[simp] theorem State.latchTick_node : (s.latchTick).node = s.node := rfl
@[simp] theorem State.latchTick_cfg : (s.latchTick).cfg = s.cfg := rfl
@[simp] theorem State.latchTick_dupWindow : (s.latchTick).dupWindow = s.dupWindow := rfl
@[simp] theorem State.latchTick_tick : (s.latchTick).tick = s.tick := rfl
@[simp] theorem State.latchTick_tickSnap : (s.latchTick).tickSnap = s.tick := rfl
@[simp] theorem State.latchTick_callp : (s.latchTick).callp = s.callp := rfl
@[simp] theorem State.latchTick_callTxt : (s.latchTick).callTxt = s.callTxt := rfl
@[simp] theorem State.latchTick_callInfo : (s.latchTick).callInfo = s.callInfo := rfl
@[simp] theorem State.latchTick_hdr : (s.latchTick).hdr = s.hdr := rfl
@[simp] theorem State.latchTick_payLen : (s.latchTick).payLen = s.payLen := rfl
@[simp] theorem State.latchTick_crcRes : (s.latchTick).crcRes = s.crcRes := rfl
@[simp] theorem State.latchTick_dupRes : (s.latchTick).dupRes = s.dupRes := rfl
@[simp] theorem State.latchTick_digiRes : (s.latchTick).digiRes = s.digiRes := rfl
@[simp] theorem State.latchTick_msgInfo : (s.latchTick).msgInfo = s.msgInfo := rfl
@[simp] theorem State.latchTick_ackInfo : (s.latchTick).ackInfo = s.ackInfo := rfl
@[simp] theorem State.latchTick_arb : (s.latchTick).arb = s.arb := rfl
@[simp] theorem State.latchTick_cnt : (s.latchTick).cnt = s.cnt := rfl
@[simp] theorem State.latchTick_table : (s.latchTick).table = s.table := rfl
@[simp] theorem State.latchTick_mem : (s.latchTick).mem = s.mem := rfl
@[simp] theorem State.latchTick_engine : (s.latchTick).engine = s.engine := rfl
@[simp] theorem State.latchTick_pend : (s.latchTick).pend = s.pend := rfl
@[simp] theorem State.latchTick_schedule : (s.latchTick).schedule = s.schedule := rfl
@[simp] theorem State.latchTick_busResp : (s.latchTick).busResp = s.busResp := rfl
@[simp] theorem State.latchTick_resets : (s.latchTick).resets = s.resets := rfl
@[simp] theorem State.latchTick_samples : (s.latchTick).samples = s.samples := rfl

/-! ### `issue` -/

@[simp] theorem State.issue_params (w : Word) : (s.issue w).params = s.params := rfl
@[simp] theorem State.issue_irqEn (w : Word) : (s.issue w).irqEn = s.irqEn := rfl
@[simp] theorem State.issue_status (w : Word) : (s.issue w).status = { s.status with busy := true, done := false, err := false, grant := false, errcode := .noError, lastop := opcField w } := rfl
@[simp] theorem State.issue_flen (w : Word) : (s.issue w).flen = s.flen := rfl
@[simp] theorem State.issue_tlen (w : Word) : (s.issue w).tlen = s.tlen := rfl
@[simp] theorem State.issue_rgn (w : Word) : (s.issue w).rgn = s.rgn := rfl
@[simp] theorem State.issue_node (w : Word) : (s.issue w).node = s.node := rfl
@[simp] theorem State.issue_cfg (w : Word) : (s.issue w).cfg = s.cfg := rfl
@[simp] theorem State.issue_dupWindow (w : Word) : (s.issue w).dupWindow = s.dupWindow := rfl
@[simp] theorem State.issue_tick (w : Word) : (s.issue w).tick = s.tick := rfl
@[simp] theorem State.issue_tickSnap (w : Word) : (s.issue w).tickSnap = s.tickSnap := rfl
@[simp] theorem State.issue_callp (w : Word) : (s.issue w).callp = s.callp := rfl
@[simp] theorem State.issue_callTxt (w : Word) : (s.issue w).callTxt = s.callTxt := rfl
@[simp] theorem State.issue_callInfo (w : Word) : (s.issue w).callInfo = s.callInfo := rfl
@[simp] theorem State.issue_hdr (w : Word) : (s.issue w).hdr = s.hdr := rfl
@[simp] theorem State.issue_payLen (w : Word) : (s.issue w).payLen = s.payLen := rfl
@[simp] theorem State.issue_crcRes (w : Word) : (s.issue w).crcRes = s.crcRes := rfl
@[simp] theorem State.issue_dupRes (w : Word) : (s.issue w).dupRes = s.dupRes := rfl
@[simp] theorem State.issue_digiRes (w : Word) : (s.issue w).digiRes = s.digiRes := rfl
@[simp] theorem State.issue_msgInfo (w : Word) : (s.issue w).msgInfo = s.msgInfo := rfl
@[simp] theorem State.issue_ackInfo (w : Word) : (s.issue w).ackInfo = s.ackInfo := rfl
@[simp] theorem State.issue_arb (w : Word) : (s.issue w).arb = s.arb := rfl
@[simp] theorem State.issue_cnt (w : Word) : (s.issue w).cnt = s.cnt := rfl
@[simp] theorem State.issue_table (w : Word) : (s.issue w).table = s.table := rfl
@[simp] theorem State.issue_mem (w : Word) : (s.issue w).mem = s.mem := rfl
@[simp] theorem State.issue_engine (w : Word) : (s.issue w).engine = .pending := rfl
@[simp] theorem State.issue_pend (w : Word) : (s.issue w).pend = w := rfl
@[simp] theorem State.issue_schedule (w : Word) : (s.issue w).schedule = s.schedule := rfl
@[simp] theorem State.issue_busResp (w : Word) : (s.issue w).busResp = s.busResp := rfl
@[simp] theorem State.issue_resets (w : Word) : (s.issue w).resets = s.resets := rfl
@[simp] theorem State.issue_samples (w : Word) : (s.issue w).samples = s.samples := rfl

/-! ### `setBytes` -/

@[simp] theorem State.setBytes_params (o : Nat) (bs : List Byte) : (s.setBytes o bs).params = s.params := rfl
@[simp] theorem State.setBytes_irqEn (o : Nat) (bs : List Byte) : (s.setBytes o bs).irqEn = s.irqEn := rfl
@[simp] theorem State.setBytes_status (o : Nat) (bs : List Byte) : (s.setBytes o bs).status = s.status := rfl
@[simp] theorem State.setBytes_flen (o : Nat) (bs : List Byte) : (s.setBytes o bs).flen = s.flen := rfl
@[simp] theorem State.setBytes_tlen (o : Nat) (bs : List Byte) : (s.setBytes o bs).tlen = s.tlen := rfl
@[simp] theorem State.setBytes_rgn (o : Nat) (bs : List Byte) : (s.setBytes o bs).rgn = s.rgn := rfl
@[simp] theorem State.setBytes_node (o : Nat) (bs : List Byte) : (s.setBytes o bs).node = s.node := rfl
@[simp] theorem State.setBytes_cfg (o : Nat) (bs : List Byte) : (s.setBytes o bs).cfg = s.cfg := rfl
@[simp] theorem State.setBytes_dupWindow (o : Nat) (bs : List Byte) : (s.setBytes o bs).dupWindow = s.dupWindow := rfl
@[simp] theorem State.setBytes_tick (o : Nat) (bs : List Byte) : (s.setBytes o bs).tick = s.tick := rfl
@[simp] theorem State.setBytes_tickSnap (o : Nat) (bs : List Byte) : (s.setBytes o bs).tickSnap = s.tickSnap := rfl
@[simp] theorem State.setBytes_callp (o : Nat) (bs : List Byte) : (s.setBytes o bs).callp = s.callp := rfl
@[simp] theorem State.setBytes_callTxt (o : Nat) (bs : List Byte) : (s.setBytes o bs).callTxt = s.callTxt := rfl
@[simp] theorem State.setBytes_callInfo (o : Nat) (bs : List Byte) : (s.setBytes o bs).callInfo = s.callInfo := rfl
@[simp] theorem State.setBytes_hdr (o : Nat) (bs : List Byte) : (s.setBytes o bs).hdr = s.hdr := rfl
@[simp] theorem State.setBytes_payLen (o : Nat) (bs : List Byte) : (s.setBytes o bs).payLen = s.payLen := rfl
@[simp] theorem State.setBytes_crcRes (o : Nat) (bs : List Byte) : (s.setBytes o bs).crcRes = s.crcRes := rfl
@[simp] theorem State.setBytes_dupRes (o : Nat) (bs : List Byte) : (s.setBytes o bs).dupRes = s.dupRes := rfl
@[simp] theorem State.setBytes_digiRes (o : Nat) (bs : List Byte) : (s.setBytes o bs).digiRes = s.digiRes := rfl
@[simp] theorem State.setBytes_msgInfo (o : Nat) (bs : List Byte) : (s.setBytes o bs).msgInfo = s.msgInfo := rfl
@[simp] theorem State.setBytes_ackInfo (o : Nat) (bs : List Byte) : (s.setBytes o bs).ackInfo = s.ackInfo := rfl
@[simp] theorem State.setBytes_arb (o : Nat) (bs : List Byte) : (s.setBytes o bs).arb = s.arb := rfl
@[simp] theorem State.setBytes_cnt (o : Nat) (bs : List Byte) : (s.setBytes o bs).cnt = s.cnt := rfl
@[simp] theorem State.setBytes_table (o : Nat) (bs : List Byte) : (s.setBytes o bs).table = s.table := rfl
@[simp] theorem State.setBytes_mem (o : Nat) (bs : List Byte) : (s.setBytes o bs).mem = Memory.storeAll s.mem o bs := rfl
@[simp] theorem State.setBytes_engine (o : Nat) (bs : List Byte) : (s.setBytes o bs).engine = s.engine := rfl
@[simp] theorem State.setBytes_pend (o : Nat) (bs : List Byte) : (s.setBytes o bs).pend = s.pend := rfl
@[simp] theorem State.setBytes_schedule (o : Nat) (bs : List Byte) : (s.setBytes o bs).schedule = s.schedule := rfl
@[simp] theorem State.setBytes_busResp (o : Nat) (bs : List Byte) : (s.setBytes o bs).busResp = s.busResp := rfl
@[simp] theorem State.setBytes_resets (o : Nat) (bs : List Byte) : (s.setBytes o bs).resets = s.resets := rfl
@[simp] theorem State.setBytes_samples (o : Nat) (bs : List Byte) : (s.setBytes o bs).samples = s.samples := rfl

/-! ### `setFb` -/

@[simp] theorem State.setFb_params (i : Nat) (bs : List Byte) : (s.setFb i bs).params = s.params := rfl
@[simp] theorem State.setFb_irqEn (i : Nat) (bs : List Byte) : (s.setFb i bs).irqEn = s.irqEn := rfl
@[simp] theorem State.setFb_status (i : Nat) (bs : List Byte) : (s.setFb i bs).status = s.status := rfl
@[simp] theorem State.setFb_flen (i : Nat) (bs : List Byte) : (s.setFb i bs).flen = s.flen := rfl
@[simp] theorem State.setFb_tlen (i : Nat) (bs : List Byte) : (s.setFb i bs).tlen = s.tlen := rfl
@[simp] theorem State.setFb_rgn (i : Nat) (bs : List Byte) : (s.setFb i bs).rgn = s.rgn := rfl
@[simp] theorem State.setFb_node (i : Nat) (bs : List Byte) : (s.setFb i bs).node = s.node := rfl
@[simp] theorem State.setFb_cfg (i : Nat) (bs : List Byte) : (s.setFb i bs).cfg = s.cfg := rfl
@[simp] theorem State.setFb_dupWindow (i : Nat) (bs : List Byte) : (s.setFb i bs).dupWindow = s.dupWindow := rfl
@[simp] theorem State.setFb_tick (i : Nat) (bs : List Byte) : (s.setFb i bs).tick = s.tick := rfl
@[simp] theorem State.setFb_tickSnap (i : Nat) (bs : List Byte) : (s.setFb i bs).tickSnap = s.tickSnap := rfl
@[simp] theorem State.setFb_callp (i : Nat) (bs : List Byte) : (s.setFb i bs).callp = s.callp := rfl
@[simp] theorem State.setFb_callTxt (i : Nat) (bs : List Byte) : (s.setFb i bs).callTxt = s.callTxt := rfl
@[simp] theorem State.setFb_callInfo (i : Nat) (bs : List Byte) : (s.setFb i bs).callInfo = s.callInfo := rfl
@[simp] theorem State.setFb_hdr (i : Nat) (bs : List Byte) : (s.setFb i bs).hdr = s.hdr := rfl
@[simp] theorem State.setFb_payLen (i : Nat) (bs : List Byte) : (s.setFb i bs).payLen = s.payLen := rfl
@[simp] theorem State.setFb_crcRes (i : Nat) (bs : List Byte) : (s.setFb i bs).crcRes = s.crcRes := rfl
@[simp] theorem State.setFb_dupRes (i : Nat) (bs : List Byte) : (s.setFb i bs).dupRes = s.dupRes := rfl
@[simp] theorem State.setFb_digiRes (i : Nat) (bs : List Byte) : (s.setFb i bs).digiRes = s.digiRes := rfl
@[simp] theorem State.setFb_msgInfo (i : Nat) (bs : List Byte) : (s.setFb i bs).msgInfo = s.msgInfo := rfl
@[simp] theorem State.setFb_ackInfo (i : Nat) (bs : List Byte) : (s.setFb i bs).ackInfo = s.ackInfo := rfl
@[simp] theorem State.setFb_arb (i : Nat) (bs : List Byte) : (s.setFb i bs).arb = s.arb := rfl
@[simp] theorem State.setFb_cnt (i : Nat) (bs : List Byte) : (s.setFb i bs).cnt = s.cnt := rfl
@[simp] theorem State.setFb_table (i : Nat) (bs : List Byte) : (s.setFb i bs).table = s.table := rfl
@[simp] theorem State.setFb_mem (i : Nat) (bs : List Byte) : (s.setFb i bs).mem = Memory.storeAll s.mem (0x100 + i) bs := rfl
@[simp] theorem State.setFb_engine (i : Nat) (bs : List Byte) : (s.setFb i bs).engine = s.engine := rfl
@[simp] theorem State.setFb_pend (i : Nat) (bs : List Byte) : (s.setFb i bs).pend = s.pend := rfl
@[simp] theorem State.setFb_schedule (i : Nat) (bs : List Byte) : (s.setFb i bs).schedule = s.schedule := rfl
@[simp] theorem State.setFb_busResp (i : Nat) (bs : List Byte) : (s.setFb i bs).busResp = s.busResp := rfl
@[simp] theorem State.setFb_resets (i : Nat) (bs : List Byte) : (s.setFb i bs).resets = s.resets := rfl
@[simp] theorem State.setFb_samples (i : Nat) (bs : List Byte) : (s.setFb i bs).samples = s.samples := rfl

/-! ### `setTb` -/

@[simp] theorem State.setTb_params (i : Nat) (bs : List Byte) : (s.setTb i bs).params = s.params := rfl
@[simp] theorem State.setTb_irqEn (i : Nat) (bs : List Byte) : (s.setTb i bs).irqEn = s.irqEn := rfl
@[simp] theorem State.setTb_status (i : Nat) (bs : List Byte) : (s.setTb i bs).status = s.status := rfl
@[simp] theorem State.setTb_flen (i : Nat) (bs : List Byte) : (s.setTb i bs).flen = s.flen := rfl
@[simp] theorem State.setTb_tlen (i : Nat) (bs : List Byte) : (s.setTb i bs).tlen = s.tlen := rfl
@[simp] theorem State.setTb_rgn (i : Nat) (bs : List Byte) : (s.setTb i bs).rgn = s.rgn := rfl
@[simp] theorem State.setTb_node (i : Nat) (bs : List Byte) : (s.setTb i bs).node = s.node := rfl
@[simp] theorem State.setTb_cfg (i : Nat) (bs : List Byte) : (s.setTb i bs).cfg = s.cfg := rfl
@[simp] theorem State.setTb_dupWindow (i : Nat) (bs : List Byte) : (s.setTb i bs).dupWindow = s.dupWindow := rfl
@[simp] theorem State.setTb_tick (i : Nat) (bs : List Byte) : (s.setTb i bs).tick = s.tick := rfl
@[simp] theorem State.setTb_tickSnap (i : Nat) (bs : List Byte) : (s.setTb i bs).tickSnap = s.tickSnap := rfl
@[simp] theorem State.setTb_callp (i : Nat) (bs : List Byte) : (s.setTb i bs).callp = s.callp := rfl
@[simp] theorem State.setTb_callTxt (i : Nat) (bs : List Byte) : (s.setTb i bs).callTxt = s.callTxt := rfl
@[simp] theorem State.setTb_callInfo (i : Nat) (bs : List Byte) : (s.setTb i bs).callInfo = s.callInfo := rfl
@[simp] theorem State.setTb_hdr (i : Nat) (bs : List Byte) : (s.setTb i bs).hdr = s.hdr := rfl
@[simp] theorem State.setTb_payLen (i : Nat) (bs : List Byte) : (s.setTb i bs).payLen = s.payLen := rfl
@[simp] theorem State.setTb_crcRes (i : Nat) (bs : List Byte) : (s.setTb i bs).crcRes = s.crcRes := rfl
@[simp] theorem State.setTb_dupRes (i : Nat) (bs : List Byte) : (s.setTb i bs).dupRes = s.dupRes := rfl
@[simp] theorem State.setTb_digiRes (i : Nat) (bs : List Byte) : (s.setTb i bs).digiRes = s.digiRes := rfl
@[simp] theorem State.setTb_msgInfo (i : Nat) (bs : List Byte) : (s.setTb i bs).msgInfo = s.msgInfo := rfl
@[simp] theorem State.setTb_ackInfo (i : Nat) (bs : List Byte) : (s.setTb i bs).ackInfo = s.ackInfo := rfl
@[simp] theorem State.setTb_arb (i : Nat) (bs : List Byte) : (s.setTb i bs).arb = s.arb := rfl
@[simp] theorem State.setTb_cnt (i : Nat) (bs : List Byte) : (s.setTb i bs).cnt = s.cnt := rfl
@[simp] theorem State.setTb_table (i : Nat) (bs : List Byte) : (s.setTb i bs).table = s.table := rfl
@[simp] theorem State.setTb_mem (i : Nat) (bs : List Byte) : (s.setTb i bs).mem = Memory.storeAll s.mem (0x200 + i) bs := rfl
@[simp] theorem State.setTb_engine (i : Nat) (bs : List Byte) : (s.setTb i bs).engine = s.engine := rfl
@[simp] theorem State.setTb_pend (i : Nat) (bs : List Byte) : (s.setTb i bs).pend = s.pend := rfl
@[simp] theorem State.setTb_schedule (i : Nat) (bs : List Byte) : (s.setTb i bs).schedule = s.schedule := rfl
@[simp] theorem State.setTb_busResp (i : Nat) (bs : List Byte) : (s.setTb i bs).busResp = s.busResp := rfl
@[simp] theorem State.setTb_resets (i : Nat) (bs : List Byte) : (s.setTb i bs).resets = s.resets := rfl
@[simp] theorem State.setTb_samples (i : Nat) (bs : List Byte) : (s.setTb i bs).samples = s.samples := rfl

/-! ### `setHeader` -/

@[simp] theorem State.setHeader_params (n p : Nat) : (s.setHeader n p).params = s.params := rfl
@[simp] theorem State.setHeader_irqEn (n p : Nat) : (s.setHeader n p).irqEn = s.irqEn := rfl
@[simp] theorem State.setHeader_status (n p : Nat) : (s.setHeader n p).status = s.status := rfl
@[simp] theorem State.setHeader_flen (n p : Nat) : (s.setHeader n p).flen = s.flen := rfl
@[simp] theorem State.setHeader_tlen (n p : Nat) : (s.setHeader n p).tlen = s.tlen := rfl
@[simp] theorem State.setHeader_rgn (n p : Nat) : (s.setHeader n p).rgn = s.rgn := rfl
@[simp] theorem State.setHeader_node (n p : Nat) : (s.setHeader n p).node = s.node := rfl
@[simp] theorem State.setHeader_cfg (n p : Nat) : (s.setHeader n p).cfg = s.cfg := rfl
@[simp] theorem State.setHeader_dupWindow (n p : Nat) : (s.setHeader n p).dupWindow = s.dupWindow := rfl
@[simp] theorem State.setHeader_tick (n p : Nat) : (s.setHeader n p).tick = s.tick := rfl
@[simp] theorem State.setHeader_tickSnap (n p : Nat) : (s.setHeader n p).tickSnap = s.tickSnap := rfl
@[simp] theorem State.setHeader_callp (n p : Nat) : (s.setHeader n p).callp = s.callp := rfl
@[simp] theorem State.setHeader_callTxt (n p : Nat) : (s.setHeader n p).callTxt = s.callTxt := rfl
@[simp] theorem State.setHeader_callInfo (n p : Nat) : (s.setHeader n p).callInfo = s.callInfo := rfl
@[simp] theorem State.setHeader_hdr (n p : Nat) : (s.setHeader n p).hdr = { naddr := BitVec.ofNat 8 n, npath := BitVec.ofNat 8 (n - 2), payIdx := BitVec.ofNat 16 p } := rfl
@[simp] theorem State.setHeader_payLen (n p : Nat) : (s.setHeader n p).payLen = s.flen - BitVec.ofNat 16 p := rfl
@[simp] theorem State.setHeader_crcRes (n p : Nat) : (s.setHeader n p).crcRes = s.crcRes := rfl
@[simp] theorem State.setHeader_dupRes (n p : Nat) : (s.setHeader n p).dupRes = s.dupRes := rfl
@[simp] theorem State.setHeader_digiRes (n p : Nat) : (s.setHeader n p).digiRes = s.digiRes := rfl
@[simp] theorem State.setHeader_msgInfo (n p : Nat) : (s.setHeader n p).msgInfo = s.msgInfo := rfl
@[simp] theorem State.setHeader_ackInfo (n p : Nat) : (s.setHeader n p).ackInfo = s.ackInfo := rfl
@[simp] theorem State.setHeader_arb (n p : Nat) : (s.setHeader n p).arb = s.arb := rfl
@[simp] theorem State.setHeader_cnt (n p : Nat) : (s.setHeader n p).cnt = s.cnt := rfl
@[simp] theorem State.setHeader_table (n p : Nat) : (s.setHeader n p).table = s.table := rfl
@[simp] theorem State.setHeader_mem (n p : Nat) : (s.setHeader n p).mem = s.mem := rfl
@[simp] theorem State.setHeader_engine (n p : Nat) : (s.setHeader n p).engine = s.engine := rfl
@[simp] theorem State.setHeader_pend (n p : Nat) : (s.setHeader n p).pend = s.pend := rfl
@[simp] theorem State.setHeader_schedule (n p : Nat) : (s.setHeader n p).schedule = s.schedule := rfl
@[simp] theorem State.setHeader_busResp (n p : Nat) : (s.setHeader n p).busResp = s.busResp := rfl
@[simp] theorem State.setHeader_resets (n p : Nat) : (s.setHeader n p).resets = s.resets := rfl
@[simp] theorem State.setHeader_samples (n p : Nat) : (s.setHeader n p).samples = s.samples := rfl

/-! ### `sweep` -/

@[simp] theorem State.sweep_params : (s.sweep).params = s.params := rfl
@[simp] theorem State.sweep_irqEn : (s.sweep).irqEn = s.irqEn := rfl
@[simp] theorem State.sweep_status : (s.sweep).status = s.status := rfl
@[simp] theorem State.sweep_flen : (s.sweep).flen = s.flen := rfl
@[simp] theorem State.sweep_tlen : (s.sweep).tlen = s.tlen := rfl
@[simp] theorem State.sweep_rgn : (s.sweep).rgn = s.rgn := rfl
@[simp] theorem State.sweep_node : (s.sweep).node = s.node := rfl
@[simp] theorem State.sweep_cfg : (s.sweep).cfg = s.cfg := rfl
@[simp] theorem State.sweep_dupWindow : (s.sweep).dupWindow = s.dupWindow := rfl
@[simp] theorem State.sweep_tick : (s.sweep).tick = s.tick := rfl
@[simp] theorem State.sweep_tickSnap : (s.sweep).tickSnap = s.tickSnap := rfl
@[simp] theorem State.sweep_callp : (s.sweep).callp = s.callp := rfl
@[simp] theorem State.sweep_callTxt : (s.sweep).callTxt = s.callTxt := rfl
@[simp] theorem State.sweep_callInfo : (s.sweep).callInfo = s.callInfo := rfl
@[simp] theorem State.sweep_hdr : (s.sweep).hdr = s.hdr := rfl
@[simp] theorem State.sweep_payLen : (s.sweep).payLen = s.payLen := rfl
@[simp] theorem State.sweep_crcRes : (s.sweep).crcRes = s.crcRes := rfl
@[simp] theorem State.sweep_dupRes : (s.sweep).dupRes = s.dupRes := rfl
@[simp] theorem State.sweep_digiRes : (s.sweep).digiRes = s.digiRes := rfl
@[simp] theorem State.sweep_msgInfo : (s.sweep).msgInfo = s.msgInfo := rfl
@[simp] theorem State.sweep_ackInfo : (s.sweep).ackInfo = s.ackInfo := rfl
@[simp] theorem State.sweep_arb : (s.sweep).arb = s.arb := rfl
@[simp] theorem State.sweep_cnt : (s.sweep).cnt = s.cnt := rfl
@[simp] theorem State.sweep_table : (s.sweep).table = sweepTable s.tickSnap s.table := rfl
@[simp] theorem State.sweep_mem : (s.sweep).mem = s.mem := rfl
@[simp] theorem State.sweep_engine : (s.sweep).engine = s.engine := rfl
@[simp] theorem State.sweep_pend : (s.sweep).pend = s.pend := rfl
@[simp] theorem State.sweep_schedule : (s.sweep).schedule = s.schedule := rfl
@[simp] theorem State.sweep_busResp : (s.sweep).busResp = s.busResp := rfl
@[simp] theorem State.sweep_resets : (s.sweep).resets = s.resets := rfl
@[simp] theorem State.sweep_samples : (s.sweep).samples = s.samples := rfl

/-! ### `insert` -/

@[simp] theorem State.insert_params (cs : Half) : (s.insert cs).params = s.params := rfl
@[simp] theorem State.insert_irqEn (cs : Half) : (s.insert cs).irqEn = s.irqEn := rfl
@[simp] theorem State.insert_status (cs : Half) : (s.insert cs).status = s.status := rfl
@[simp] theorem State.insert_flen (cs : Half) : (s.insert cs).flen = s.flen := rfl
@[simp] theorem State.insert_tlen (cs : Half) : (s.insert cs).tlen = s.tlen := rfl
@[simp] theorem State.insert_rgn (cs : Half) : (s.insert cs).rgn = s.rgn := rfl
@[simp] theorem State.insert_node (cs : Half) : (s.insert cs).node = s.node := rfl
@[simp] theorem State.insert_cfg (cs : Half) : (s.insert cs).cfg = s.cfg := rfl
@[simp] theorem State.insert_dupWindow (cs : Half) : (s.insert cs).dupWindow = s.dupWindow := rfl
@[simp] theorem State.insert_tick (cs : Half) : (s.insert cs).tick = s.tick := rfl
@[simp] theorem State.insert_tickSnap (cs : Half) : (s.insert cs).tickSnap = s.tickSnap := rfl
@[simp] theorem State.insert_callp (cs : Half) : (s.insert cs).callp = s.callp := rfl
@[simp] theorem State.insert_callTxt (cs : Half) : (s.insert cs).callTxt = s.callTxt := rfl
@[simp] theorem State.insert_callInfo (cs : Half) : (s.insert cs).callInfo = s.callInfo := rfl
@[simp] theorem State.insert_hdr (cs : Half) : (s.insert cs).hdr = s.hdr := rfl
@[simp] theorem State.insert_payLen (cs : Half) : (s.insert cs).payLen = s.payLen := rfl
@[simp] theorem State.insert_crcRes (cs : Half) : (s.insert cs).crcRes = s.crcRes := rfl
@[simp] theorem State.insert_dupRes (cs : Half) : (s.insert cs).dupRes = s.dupRes := rfl
@[simp] theorem State.insert_digiRes (cs : Half) : (s.insert cs).digiRes = s.digiRes := rfl
@[simp] theorem State.insert_msgInfo (cs : Half) : (s.insert cs).msgInfo = s.msgInfo := rfl
@[simp] theorem State.insert_ackInfo (cs : Half) : (s.insert cs).ackInfo = s.ackInfo := rfl
@[simp] theorem State.insert_arb (cs : Half) : (s.insert cs).arb = s.arb := rfl
@[simp] theorem State.insert_cnt (cs : Half) : (s.insert cs).cnt = s.cnt := rfl
@[simp] theorem State.insert_table (cs : Half) : (s.insert cs).table = s.table.set (insertIndex s.tickSnap s.table).1 (newSlot cs s.tickSnap s.dupWindow) := rfl
@[simp] theorem State.insert_mem (cs : Half) : (s.insert cs).mem = s.mem := rfl
@[simp] theorem State.insert_engine (cs : Half) : (s.insert cs).engine = s.engine := rfl
@[simp] theorem State.insert_pend (cs : Half) : (s.insert cs).pend = s.pend := rfl
@[simp] theorem State.insert_schedule (cs : Half) : (s.insert cs).schedule = s.schedule := rfl
@[simp] theorem State.insert_busResp (cs : Half) : (s.insert cs).busResp = s.busResp := rfl
@[simp] theorem State.insert_resets (cs : Half) : (s.insert cs).resets = s.resets := rfl
@[simp] theorem State.insert_samples (cs : Half) : (s.insert cs).samples = s.samples := rfl

/-! ### `insertNode` -/

@[simp] theorem State.insertNode_params (k : Nat) : (s.insertNode k).params = s.params := rfl
@[simp] theorem State.insertNode_irqEn (k : Nat) : (s.insertNode k).irqEn = s.irqEn := rfl
@[simp] theorem State.insertNode_status (k : Nat) : (s.insertNode k).status = s.status := rfl
@[simp] theorem State.insertNode_flen (k : Nat) : (s.insertNode k).flen = s.flen + 7#16 := rfl
@[simp] theorem State.insertNode_tlen (k : Nat) : (s.insertNode k).tlen = s.tlen := rfl
@[simp] theorem State.insertNode_rgn (k : Nat) : (s.insertNode k).rgn = s.rgn := rfl
@[simp] theorem State.insertNode_node (k : Nat) : (s.insertNode k).node = s.node := rfl
@[simp] theorem State.insertNode_cfg (k : Nat) : (s.insertNode k).cfg = s.cfg := rfl
@[simp] theorem State.insertNode_dupWindow (k : Nat) : (s.insertNode k).dupWindow = s.dupWindow := rfl
@[simp] theorem State.insertNode_tick (k : Nat) : (s.insertNode k).tick = s.tick := rfl
@[simp] theorem State.insertNode_tickSnap (k : Nat) : (s.insertNode k).tickSnap = s.tickSnap := rfl
@[simp] theorem State.insertNode_callp (k : Nat) : (s.insertNode k).callp = s.callp := rfl
@[simp] theorem State.insertNode_callTxt (k : Nat) : (s.insertNode k).callTxt = s.callTxt := rfl
@[simp] theorem State.insertNode_callInfo (k : Nat) : (s.insertNode k).callInfo = s.callInfo := rfl
@[simp] theorem State.insertNode_hdr (k : Nat) : (s.insertNode k).hdr = s.hdr := rfl
@[simp] theorem State.insertNode_payLen (k : Nat) : (s.insertNode k).payLen = s.payLen := rfl
@[simp] theorem State.insertNode_crcRes (k : Nat) : (s.insertNode k).crcRes = s.crcRes := rfl
@[simp] theorem State.insertNode_dupRes (k : Nat) : (s.insertNode k).dupRes = s.dupRes := rfl
@[simp] theorem State.insertNode_digiRes (k : Nat) : (s.insertNode k).digiRes = s.digiRes := rfl
@[simp] theorem State.insertNode_msgInfo (k : Nat) : (s.insertNode k).msgInfo = s.msgInfo := rfl
@[simp] theorem State.insertNode_ackInfo (k : Nat) : (s.insertNode k).ackInfo = s.ackInfo := rfl
@[simp] theorem State.insertNode_arb (k : Nat) : (s.insertNode k).arb = s.arb := rfl
@[simp] theorem State.insertNode_cnt (k : Nat) : (s.insertNode k).cnt = s.cnt := rfl
@[simp] theorem State.insertNode_table (k : Nat) : (s.insertNode k).table = s.table := rfl
@[simp] theorem State.insertNode_engine (k : Nat) : (s.insertNode k).engine = s.engine := rfl
@[simp] theorem State.insertNode_pend (k : Nat) : (s.insertNode k).pend = s.pend := rfl
@[simp] theorem State.insertNode_schedule (k : Nat) : (s.insertNode k).schedule = s.schedule := rfl
@[simp] theorem State.insertNode_busResp (k : Nat) : (s.insertNode k).busResp = s.busResp := rfl
@[simp] theorem State.insertNode_resets (k : Nat) : (s.insertNode k).resets = s.resets := rfl
@[simp] theorem State.insertNode_samples (k : Nat) : (s.insertNode k).samples = s.samples := rfl

/-! ### `overwriteNode` -/

@[simp] theorem State.overwriteNode_params (k : Nat) : (s.overwriteNode k).params = s.params := rfl
@[simp] theorem State.overwriteNode_irqEn (k : Nat) : (s.overwriteNode k).irqEn = s.irqEn := rfl
@[simp] theorem State.overwriteNode_status (k : Nat) : (s.overwriteNode k).status = s.status := rfl
@[simp] theorem State.overwriteNode_flen (k : Nat) : (s.overwriteNode k).flen = s.flen := rfl
@[simp] theorem State.overwriteNode_tlen (k : Nat) : (s.overwriteNode k).tlen = s.tlen := rfl
@[simp] theorem State.overwriteNode_rgn (k : Nat) : (s.overwriteNode k).rgn = s.rgn := rfl
@[simp] theorem State.overwriteNode_node (k : Nat) : (s.overwriteNode k).node = s.node := rfl
@[simp] theorem State.overwriteNode_cfg (k : Nat) : (s.overwriteNode k).cfg = s.cfg := rfl
@[simp] theorem State.overwriteNode_dupWindow (k : Nat) : (s.overwriteNode k).dupWindow = s.dupWindow := rfl
@[simp] theorem State.overwriteNode_tick (k : Nat) : (s.overwriteNode k).tick = s.tick := rfl
@[simp] theorem State.overwriteNode_tickSnap (k : Nat) : (s.overwriteNode k).tickSnap = s.tickSnap := rfl
@[simp] theorem State.overwriteNode_callp (k : Nat) : (s.overwriteNode k).callp = s.callp := rfl
@[simp] theorem State.overwriteNode_callTxt (k : Nat) : (s.overwriteNode k).callTxt = s.callTxt := rfl
@[simp] theorem State.overwriteNode_callInfo (k : Nat) : (s.overwriteNode k).callInfo = s.callInfo := rfl
@[simp] theorem State.overwriteNode_hdr (k : Nat) : (s.overwriteNode k).hdr = s.hdr := rfl
@[simp] theorem State.overwriteNode_payLen (k : Nat) : (s.overwriteNode k).payLen = s.payLen := rfl
@[simp] theorem State.overwriteNode_crcRes (k : Nat) : (s.overwriteNode k).crcRes = s.crcRes := rfl
@[simp] theorem State.overwriteNode_dupRes (k : Nat) : (s.overwriteNode k).dupRes = s.dupRes := rfl
@[simp] theorem State.overwriteNode_digiRes (k : Nat) : (s.overwriteNode k).digiRes = s.digiRes := rfl
@[simp] theorem State.overwriteNode_msgInfo (k : Nat) : (s.overwriteNode k).msgInfo = s.msgInfo := rfl
@[simp] theorem State.overwriteNode_ackInfo (k : Nat) : (s.overwriteNode k).ackInfo = s.ackInfo := rfl
@[simp] theorem State.overwriteNode_arb (k : Nat) : (s.overwriteNode k).arb = s.arb := rfl
@[simp] theorem State.overwriteNode_cnt (k : Nat) : (s.overwriteNode k).cnt = s.cnt := rfl
@[simp] theorem State.overwriteNode_table (k : Nat) : (s.overwriteNode k).table = s.table := rfl
@[simp] theorem State.overwriteNode_engine (k : Nat) : (s.overwriteNode k).engine = s.engine := rfl
@[simp] theorem State.overwriteNode_pend (k : Nat) : (s.overwriteNode k).pend = s.pend := rfl
@[simp] theorem State.overwriteNode_schedule (k : Nat) : (s.overwriteNode k).schedule = s.schedule := rfl
@[simp] theorem State.overwriteNode_busResp (k : Nat) : (s.overwriteNode k).busResp = s.busResp := rfl
@[simp] theorem State.overwriteNode_resets (k : Nat) : (s.overwriteNode k).resets = s.resets := rfl
@[simp] theorem State.overwriteNode_samples (k : Nat) : (s.overwriteNode k).samples = s.samples := rfl

/-! ### `setSsid` -/

@[simp] theorem State.setSsid_params (k : Nat) (n : BitVec 4) : (s.setSsid k n).params = s.params := rfl
@[simp] theorem State.setSsid_irqEn (k : Nat) (n : BitVec 4) : (s.setSsid k n).irqEn = s.irqEn := rfl
@[simp] theorem State.setSsid_status (k : Nat) (n : BitVec 4) : (s.setSsid k n).status = s.status := rfl
@[simp] theorem State.setSsid_flen (k : Nat) (n : BitVec 4) : (s.setSsid k n).flen = s.flen := rfl
@[simp] theorem State.setSsid_tlen (k : Nat) (n : BitVec 4) : (s.setSsid k n).tlen = s.tlen := rfl
@[simp] theorem State.setSsid_rgn (k : Nat) (n : BitVec 4) : (s.setSsid k n).rgn = s.rgn := rfl
@[simp] theorem State.setSsid_node (k : Nat) (n : BitVec 4) : (s.setSsid k n).node = s.node := rfl
@[simp] theorem State.setSsid_cfg (k : Nat) (n : BitVec 4) : (s.setSsid k n).cfg = s.cfg := rfl
@[simp] theorem State.setSsid_dupWindow (k : Nat) (n : BitVec 4) : (s.setSsid k n).dupWindow = s.dupWindow := rfl
@[simp] theorem State.setSsid_tick (k : Nat) (n : BitVec 4) : (s.setSsid k n).tick = s.tick := rfl
@[simp] theorem State.setSsid_tickSnap (k : Nat) (n : BitVec 4) : (s.setSsid k n).tickSnap = s.tickSnap := rfl
@[simp] theorem State.setSsid_callp (k : Nat) (n : BitVec 4) : (s.setSsid k n).callp = s.callp := rfl
@[simp] theorem State.setSsid_callTxt (k : Nat) (n : BitVec 4) : (s.setSsid k n).callTxt = s.callTxt := rfl
@[simp] theorem State.setSsid_callInfo (k : Nat) (n : BitVec 4) : (s.setSsid k n).callInfo = s.callInfo := rfl
@[simp] theorem State.setSsid_hdr (k : Nat) (n : BitVec 4) : (s.setSsid k n).hdr = s.hdr := rfl
@[simp] theorem State.setSsid_payLen (k : Nat) (n : BitVec 4) : (s.setSsid k n).payLen = s.payLen := rfl
@[simp] theorem State.setSsid_crcRes (k : Nat) (n : BitVec 4) : (s.setSsid k n).crcRes = s.crcRes := rfl
@[simp] theorem State.setSsid_dupRes (k : Nat) (n : BitVec 4) : (s.setSsid k n).dupRes = s.dupRes := rfl
@[simp] theorem State.setSsid_digiRes (k : Nat) (n : BitVec 4) : (s.setSsid k n).digiRes = s.digiRes := rfl
@[simp] theorem State.setSsid_msgInfo (k : Nat) (n : BitVec 4) : (s.setSsid k n).msgInfo = s.msgInfo := rfl
@[simp] theorem State.setSsid_ackInfo (k : Nat) (n : BitVec 4) : (s.setSsid k n).ackInfo = s.ackInfo := rfl
@[simp] theorem State.setSsid_arb (k : Nat) (n : BitVec 4) : (s.setSsid k n).arb = s.arb := rfl
@[simp] theorem State.setSsid_cnt (k : Nat) (n : BitVec 4) : (s.setSsid k n).cnt = s.cnt := rfl
@[simp] theorem State.setSsid_table (k : Nat) (n : BitVec 4) : (s.setSsid k n).table = s.table := rfl
@[simp] theorem State.setSsid_engine (k : Nat) (n : BitVec 4) : (s.setSsid k n).engine = s.engine := rfl
@[simp] theorem State.setSsid_pend (k : Nat) (n : BitVec 4) : (s.setSsid k n).pend = s.pend := rfl
@[simp] theorem State.setSsid_schedule (k : Nat) (n : BitVec 4) : (s.setSsid k n).schedule = s.schedule := rfl
@[simp] theorem State.setSsid_busResp (k : Nat) (n : BitVec 4) : (s.setSsid k n).busResp = s.busResp := rfl
@[simp] theorem State.setSsid_resets (k : Nat) (n : BitVec 4) : (s.setSsid k n).resets = s.resets := rfl
@[simp] theorem State.setSsid_samples (k : Nat) (n : BitVec 4) : (s.setSsid k n).samples = s.samples := rfl

/-! ### `clearMessage` -/

@[simp] theorem State.clearMessage_params : (s.clearMessage).params = s.params := rfl
@[simp] theorem State.clearMessage_irqEn : (s.clearMessage).irqEn = s.irqEn := rfl
@[simp] theorem State.clearMessage_status : (s.clearMessage).status = s.status := rfl
@[simp] theorem State.clearMessage_flen : (s.clearMessage).flen = s.flen := rfl
@[simp] theorem State.clearMessage_tlen : (s.clearMessage).tlen = s.tlen := rfl
@[simp] theorem State.clearMessage_rgn : (s.clearMessage).rgn = s.rgn := rfl
@[simp] theorem State.clearMessage_node : (s.clearMessage).node = s.node := rfl
@[simp] theorem State.clearMessage_cfg : (s.clearMessage).cfg = s.cfg := rfl
@[simp] theorem State.clearMessage_dupWindow : (s.clearMessage).dupWindow = s.dupWindow := rfl
@[simp] theorem State.clearMessage_tick : (s.clearMessage).tick = s.tick := rfl
@[simp] theorem State.clearMessage_tickSnap : (s.clearMessage).tickSnap = s.tickSnap := rfl
@[simp] theorem State.clearMessage_callp : (s.clearMessage).callp = s.callp := rfl
@[simp] theorem State.clearMessage_callTxt : (s.clearMessage).callTxt = s.callTxt := rfl
@[simp] theorem State.clearMessage_callInfo : (s.clearMessage).callInfo = s.callInfo := rfl
@[simp] theorem State.clearMessage_hdr : (s.clearMessage).hdr = s.hdr := rfl
@[simp] theorem State.clearMessage_payLen : (s.clearMessage).payLen = s.payLen := rfl
@[simp] theorem State.clearMessage_crcRes : (s.clearMessage).crcRes = s.crcRes := rfl
@[simp] theorem State.clearMessage_dupRes : (s.clearMessage).dupRes = s.dupRes := rfl
@[simp] theorem State.clearMessage_digiRes : (s.clearMessage).digiRes = s.digiRes := rfl
@[simp] theorem State.clearMessage_msgInfo : (s.clearMessage).msgInfo = ⟨0#16, 0#16⟩ := rfl
@[simp] theorem State.clearMessage_ackInfo : (s.clearMessage).ackInfo = ⟨0#16, 0#8⟩ := rfl
@[simp] theorem State.clearMessage_arb : (s.clearMessage).arb = s.arb := rfl
@[simp] theorem State.clearMessage_cnt : (s.clearMessage).cnt = s.cnt := rfl
@[simp] theorem State.clearMessage_table : (s.clearMessage).table = s.table := rfl
@[simp] theorem State.clearMessage_mem : (s.clearMessage).mem = s.mem := rfl
@[simp] theorem State.clearMessage_engine : (s.clearMessage).engine = s.engine := rfl
@[simp] theorem State.clearMessage_pend : (s.clearMessage).pend = s.pend := rfl
@[simp] theorem State.clearMessage_schedule : (s.clearMessage).schedule = s.schedule := rfl
@[simp] theorem State.clearMessage_busResp : (s.clearMessage).busResp = s.busResp := rfl
@[simp] theorem State.clearMessage_resets : (s.clearMessage).resets = s.resets := rfl
@[simp] theorem State.clearMessage_samples : (s.clearMessage).samples = s.samples := rfl

/-! ### `startWait` -/

@[simp] theorem State.startWait_params : (s.startWait).params = s.params := rfl
@[simp] theorem State.startWait_irqEn : (s.startWait).irqEn = s.irqEn := rfl
@[simp] theorem State.startWait_status : (s.startWait).status = s.status := rfl
@[simp] theorem State.startWait_flen : (s.startWait).flen = s.flen := rfl
@[simp] theorem State.startWait_tlen : (s.startWait).tlen = s.tlen := rfl
@[simp] theorem State.startWait_rgn : (s.startWait).rgn = s.rgn := rfl
@[simp] theorem State.startWait_node : (s.startWait).node = s.node := rfl
@[simp] theorem State.startWait_cfg : (s.startWait).cfg = s.cfg := rfl
@[simp] theorem State.startWait_dupWindow : (s.startWait).dupWindow = s.dupWindow := rfl
@[simp] theorem State.startWait_tick : (s.startWait).tick = s.tick := rfl
@[simp] theorem State.startWait_tickSnap : (s.startWait).tickSnap = s.tickSnap := rfl
@[simp] theorem State.startWait_callp : (s.startWait).callp = s.callp := rfl
@[simp] theorem State.startWait_callTxt : (s.startWait).callTxt = s.callTxt := rfl
@[simp] theorem State.startWait_callInfo : (s.startWait).callInfo = s.callInfo := rfl
@[simp] theorem State.startWait_hdr : (s.startWait).hdr = s.hdr := rfl
@[simp] theorem State.startWait_payLen : (s.startWait).payLen = s.payLen := rfl
@[simp] theorem State.startWait_crcRes : (s.startWait).crcRes = s.crcRes := rfl
@[simp] theorem State.startWait_dupRes : (s.startWait).dupRes = s.dupRes := rfl
@[simp] theorem State.startWait_digiRes : (s.startWait).digiRes = s.digiRes := rfl
@[simp] theorem State.startWait_msgInfo : (s.startWait).msgInfo = s.msgInfo := rfl
@[simp] theorem State.startWait_ackInfo : (s.startWait).ackInfo = s.ackInfo := rfl
@[simp] theorem State.startWait_arb : (s.startWait).arb = { idleCnt := 0#16, attempts := 0#8, state := .wait } := rfl
@[simp] theorem State.startWait_cnt : (s.startWait).cnt = s.cnt := rfl
@[simp] theorem State.startWait_table : (s.startWait).table = s.table := rfl
@[simp] theorem State.startWait_mem : (s.startWait).mem = s.mem := rfl
@[simp] theorem State.startWait_engine : (s.startWait).engine = .csmaWait := rfl
@[simp] theorem State.startWait_pend : (s.startWait).pend = s.pend := rfl
@[simp] theorem State.startWait_schedule : (s.startWait).schedule = s.schedule := rfl
@[simp] theorem State.startWait_busResp : (s.startWait).busResp = s.busResp := rfl
@[simp] theorem State.startWait_resets : (s.startWait).resets = s.resets := rfl
@[simp] theorem State.startWait_samples : (s.startWait).samples = s.samples := rfl

end Sys2Proof.Machine
end

