-- ==== Sys2Proof/Laws/Exec.lean ====
section
/-! SUPPORT. What a step and a command can do, said once: the two ends of a command, the argument check, the decoder's cases,
the events, and one lemma per command with all its outcomes. -/

namespace Sys2Proof.Machine

open Sys2Proof.Spec

variable (s : State)

@[simp] theorem State.complete_eq : s.complete = completed s := rfl

@[simp] theorem State.fail_eq (code : ErrCode) : s.fail code = failed s code := rfl

/-! ### The fields of a state after a command's end -/

@[simp] theorem completed_params : (completed s).params = s.params := rfl
@[simp] theorem completed_irqEn : (completed s).irqEn = s.irqEn := rfl
@[simp] theorem completed_status : (completed s).status = { s.status with busy := false, done := true, err := false, errcode := .noError } := rfl
@[simp] theorem completed_flen : (completed s).flen = s.flen := rfl
@[simp] theorem completed_tlen : (completed s).tlen = s.tlen := rfl
@[simp] theorem completed_rgn : (completed s).rgn = s.rgn := rfl
@[simp] theorem completed_node : (completed s).node = s.node := rfl
@[simp] theorem completed_cfg : (completed s).cfg = s.cfg := rfl
@[simp] theorem completed_dupWindow : (completed s).dupWindow = s.dupWindow := rfl
@[simp] theorem completed_tick : (completed s).tick = s.tick := rfl
@[simp] theorem completed_tickSnap : (completed s).tickSnap = s.tickSnap := rfl
@[simp] theorem completed_callp : (completed s).callp = s.callp := rfl
@[simp] theorem completed_callTxt : (completed s).callTxt = s.callTxt := rfl
@[simp] theorem completed_callInfo : (completed s).callInfo = s.callInfo := rfl
@[simp] theorem completed_hdr : (completed s).hdr = s.hdr := rfl
@[simp] theorem completed_payLen : (completed s).payLen = s.payLen := rfl
@[simp] theorem completed_crcRes : (completed s).crcRes = s.crcRes := rfl
@[simp] theorem completed_dupRes : (completed s).dupRes = s.dupRes := rfl
@[simp] theorem completed_digiRes : (completed s).digiRes = s.digiRes := rfl
@[simp] theorem completed_msgInfo : (completed s).msgInfo = s.msgInfo := rfl
@[simp] theorem completed_ackInfo : (completed s).ackInfo = s.ackInfo := rfl
@[simp] theorem completed_arb : (completed s).arb = s.arb := rfl
@[simp] theorem completed_cnt : (completed s).cnt = s.cnt := rfl
@[simp] theorem completed_table : (completed s).table = s.table := rfl
@[simp] theorem completed_mem : (completed s).mem = s.mem := rfl
@[simp] theorem completed_engine : (completed s).engine = .idle := rfl
@[simp] theorem completed_pend : (completed s).pend = s.pend := rfl
@[simp] theorem completed_schedule : (completed s).schedule = s.schedule := rfl
@[simp] theorem completed_busResp : (completed s).busResp = s.busResp := rfl
@[simp] theorem completed_resets : (completed s).resets = s.resets := rfl
@[simp] theorem completed_samples : (completed s).samples = s.samples := rfl
@[simp] theorem failed_params (c : ErrCode) : (failed s c).params = s.params := rfl
@[simp] theorem failed_irqEn (c : ErrCode) : (failed s c).irqEn = s.irqEn := rfl
@[simp] theorem failed_status (c : ErrCode) : (failed s c).status = { s.status with busy := false, done := true, err := true, errcode := c } := rfl
@[simp] theorem failed_flen (c : ErrCode) : (failed s c).flen = s.flen := rfl
@[simp] theorem failed_tlen (c : ErrCode) : (failed s c).tlen = s.tlen := rfl
@[simp] theorem failed_rgn (c : ErrCode) : (failed s c).rgn = s.rgn := rfl
@[simp] theorem failed_node (c : ErrCode) : (failed s c).node = s.node := rfl
@[simp] theorem failed_cfg (c : ErrCode) : (failed s c).cfg = s.cfg := rfl
@[simp] theorem failed_dupWindow (c : ErrCode) : (failed s c).dupWindow = s.dupWindow := rfl
@[simp] theorem failed_tick (c : ErrCode) : (failed s c).tick = s.tick := rfl
@[simp] theorem failed_tickSnap (c : ErrCode) : (failed s c).tickSnap = s.tickSnap := rfl
@[simp] theorem failed_callp (c : ErrCode) : (failed s c).callp = s.callp := rfl
@[simp] theorem failed_callTxt (c : ErrCode) : (failed s c).callTxt = s.callTxt := rfl
@[simp] theorem failed_callInfo (c : ErrCode) : (failed s c).callInfo = s.callInfo := rfl
@[simp] theorem failed_hdr (c : ErrCode) : (failed s c).hdr = s.hdr := rfl
@[simp] theorem failed_payLen (c : ErrCode) : (failed s c).payLen = s.payLen := rfl
@[simp] theorem failed_crcRes (c : ErrCode) : (failed s c).crcRes = s.crcRes := rfl
@[simp] theorem failed_dupRes (c : ErrCode) : (failed s c).dupRes = s.dupRes := rfl
@[simp] theorem failed_digiRes (c : ErrCode) : (failed s c).digiRes = s.digiRes := rfl
@[simp] theorem failed_msgInfo (c : ErrCode) : (failed s c).msgInfo = s.msgInfo := rfl
@[simp] theorem failed_ackInfo (c : ErrCode) : (failed s c).ackInfo = s.ackInfo := rfl
@[simp] theorem failed_arb (c : ErrCode) : (failed s c).arb = s.arb := rfl
@[simp] theorem failed_cnt (c : ErrCode) : (failed s c).cnt = s.cnt := rfl
@[simp] theorem failed_table (c : ErrCode) : (failed s c).table = s.table := rfl
@[simp] theorem failed_mem (c : ErrCode) : (failed s c).mem = s.mem := rfl
@[simp] theorem failed_engine (c : ErrCode) : (failed s c).engine = .idle := rfl
@[simp] theorem failed_pend (c : ErrCode) : (failed s c).pend = s.pend := rfl
@[simp] theorem failed_schedule (c : ErrCode) : (failed s c).schedule = s.schedule := rfl
@[simp] theorem failed_busResp (c : ErrCode) : (failed s c).busResp = s.busResp := rfl
@[simp] theorem failed_resets (c : ErrCode) : (failed s c).resets = s.resets := rfl
@[simp] theorem failed_samples (c : ErrCode) : (failed s c).samples = s.samples := rfl

theorem State.latchTick_eq : s.latchTick = { s with tickSnap := s.tick } := rfl

@[simp] theorem argsUsed_zero : argsUsed 0#8 0#16 = false := rfl

theorem argsUsed_iff (a : BitVec 8) (b : BitVec 16) : argsUsed a b = true ↔ a ≠ 0#8 ∨ b ≠ 0#16 := by
  simp [argsUsed]

/-! ### Events -/

@[simp] theorem step_before (e : Event) : step (before e s) = eventStep e s := rfl

theorem engineStep_pending (h : s.engine = .pending) : engineStep s = runPending s := by
  simp only [engineStep, h]

theorem engineStep_other (h : s.engine ≠ .pending) : engineStep s = .next s := by
  cases he : s.engine <;> simp_all [engineStep]

/-- What runs a pending command: the decoded command on the state with the latched tick, or the end with BAD_OPCODE. -/
theorem runPending_cases :
    (∃ i, decode s.pend = .ok i ∧ runPending s = exec i s.latchTick) ∨
      (∃ e, decode s.pend = .error e ∧ runPending s = .next (failed s.latchTick .badOpcode)) := by
  cases h : decode s.pend with
  | ok i => exact .inl ⟨i, rfl, by simp only [runPending, h]⟩
  | error e => exact .inr ⟨e, rfl, by simp only [runPending, h]; rfl⟩

/-- A step is the next event's, or with none scheduled the block's own move, which is one of three. -/
theorem step_cases :
    (∃ e rest, s.schedule = e :: rest ∧ step s = eventStep e { s with schedule := rest }) ∨
      (s.schedule = [] ∧ s.engine = .pending ∧ step s = runPending s) ∨
      (s.schedule = [] ∧ s.engine = .csmaWait ∧ step s = .next s.freeSample) ∨
      (s.schedule = [] ∧ s.engine = .idle ∧ step s = .next s) := by
  cases h : s.schedule with
  | cons e rest => exact .inl ⟨e, rest, rfl, by simp only [step, h]⟩
  | nil => cases he : s.engine <;> simp [step, h, ownStep, he]

/-! ### Decoding -/

/-- A decoded command has its word's opcode and argument fields. -/
theorem decode_fields {w : Word} {i : Instr} (h : decode w = .ok i) :
    i.opcode = opcField w ∧ i.argA = argAField w ∧ i.argB = argBField w := by
  simp only [decode] at h
  split at h <;> cases h <;> simp_all [Instr.opcode, Instr.argA, Instr.argB]

/-- The decoder's one error. -/
theorem decode_error {w : Word} {e : DecodeError} (h : decode w = .error e) : e = .reservedOpcode (opcField w) := by
  simp only [decode] at h
  split at h <;> cases h
  rfl

/-- The opcodes of R92. -/
def opcodes : List Byte :=
  [0x00#8, 0x01#8, 0x02#8, 0x10#8, 0x11#8, 0x12#8, 0x20#8, 0x21#8, 0x22#8, 0x23#8, 0x30#8, 0x31#8, 0x32#8, 0x40#8]

theorem opcode_mem (i : Instr) : i.opcode ∈ opcodes := by cases i <;> simp [opcodes, Instr.opcode]

theorem decode_eq_error_iff {w : Word} : (∃ e, decode w = .error e) ↔ opcField w ∉ opcodes := by
  constructor
  · rintro ⟨e, h⟩
    simp only [decode] at h
    split at h <;> cases h
    simp [opcodes]
    tauto
  · intro h
    cases hd : decode w with
    | error e => exact ⟨e, rfl⟩
    | ok i => exact absurd (opcode_mem i) (by rw [(decode_fields hd).1]; exact h)

/-! ### Commands: every outcome of each -/

theorem execNop_cases (a : BitVec 8) (b : BitVec 16) :
    execNop a b s = .next (if argsUsed a b then failed s .badArg else completed s) := by
  simp only [execNop]; split <;> rfl

theorem execCsmaAcquire_cases (a : BitVec 8) (b : BitVec 16) :
    execCsmaAcquire a b s = .next (if argsUsed a b then failed s .badArg else s.startWait) := by
  simp only [execCsmaAcquire]; split <;> rfl

/-- `t` follows from `s` by a command that fails with `code`, or completes as `f`. -/
theorem execCallDecode_cases (a : BitVec 8) (b : BitVec 16) :
    execCallDecode a b s = .next (if argsUsed a b then failed s .badArg else
      completed { s with
        callTxt := decodeCall s.callp ++ List.replicate (9 - (decodeCall s.callp).length) 0x00#8
        callInfo := { s.callInfo with tlen := BitVec.ofNat 4 (decodeCall s.callp).length } }) := by
  simp only [execCallDecode]; split <;> rfl

theorem execCallEncode_cases (a : BitVec 8) (c : BitVec 16) :
    execCallEncode a c s = .next (
      if a ≠ 0#8 ∨ 512 < s.tlen.toNat ∨ s.tlen.toNat < c.toNat then failed s .badArg
      else completed { s with
        callp := (encodeCall s.params.encRR (s.text.drop c.toNat)).1
        callInfo := { s.callInfo with
          curOut := BitVec.ofNat 16 (c.toNat + (encodeCall s.params.encRR (s.text.drop c.toNat)).2) } }) := by
  simp only [execCallEncode, Config.tbufBytes]
  by_cases ha : a = 0#8
  · simp only [ha, bne_self_eq_false, Bool.false_eq_true, if_false, ne_eq, not_true_eq_false, false_or, Bool.or_eq_true,
      decide_eq_true_eq]
    split <;> rfl
  · simp [ha]

/-- The four ends of a command that needs a valid frame, where only the last is its own. -/
theorem execFrameValidate_cases (a : BitVec 8) (b : BitVec 16) :
    execFrameValidate a b s = .next (
      if argsUsed a b then failed s .badArg
      else match s.validate with
        | .error e => failed s (.frame e)
        | .ok n => completed (s.setHeader n (payIdxOf n))) := by
  simp only [execFrameValidate]
  cases argsUsed a b <;> cases s.validate <;> rfl

theorem execFrameToText_cases (a : BitVec 8) (b : BitVec 16) :
    execFrameToText a b s = .next (
      if argsUsed a b then failed s .badArg
      else match s.validate with
        | .error e => failed s (.frame e)
        | .ok n =>
          if 512 < (s.monitorText n).length then failed s .textOverflow
          else completed ({ s.setTb 0 (s.monitorText n) with
            tlen := BitVec.ofNat 16 (s.monitorText n).length }.setHeader n (payIdxOf n))) := by
  simp only [execFrameToText, Config.tbufBytes]
  cases argsUsed a b <;> cases s.validate <;> simp only [Bool.false_eq_true, if_false, if_true, State.fail_eq]
  split <;> rfl

theorem execTextToFrame_cases (a : BitVec 8) (b : BitVec 16) :
    execTextToFrame a b s = .next (
      if argsUsed a b ∨ 512 < s.tlen.toNat then failed s .badArg
      else match frameOfText s.params.encRR s.params.maxFrameLen s.text with
        | .error e => failed s e
        | .ok (n, f) =>
          completed ({ s.setFb 0 f with flen := BitVec.ofNat 16 f.length }.setHeader n (payIdxOf n))) := by
  simp only [execTextToFrame, Config.tbufBytes]
  by_cases h : argsUsed a b = true
  · simp [h]
  · simp only [h, Bool.false_eq_true, if_false, false_or]
    split
    · rfl
    · cases frameOfText s.params.encRR s.params.maxFrameLen s.text <;> rfl

theorem regionLegal_iff : s.regionLegal = true ↔ s.rgn.off.toNat + s.rgn.len.toNat ≤ 256 := by
  simp [State.regionLegal, Config.fbufBytes]

theorem execCrc16_cases (a : BitVec 8) (b : BitVec 16) :
    execCrc16 a b s = .next (
      if argsUsed a b ∨ ¬ s.regionLegal then failed s .badArg
      else completed { s with crcRes := crc s.region }) := by
  cases ha : argsUsed a b <;> cases hr : s.regionLegal <;> simp [execCrc16, ha, hr]

theorem execDupCheck_cases (a : BitVec 8) (b : BitVec 16) :
    execDupCheck a b s = .next (
      if argsUsed a b ∨ ¬ s.regionLegal then failed s .badArg
      else completed { s.sweep with
        dupRes := dupResOfLookup (lookupTable (crc s.region) s.sweep.table) (crc s.region) }) := by
  cases ha : argsUsed a b <;> cases hr : s.regionLegal <;> simp [execDupCheck, ha, hr]

theorem execDupRecord_cases (a : BitVec 8) (b : BitVec 16) :
    execDupRecord a b s = .next (
      if argsUsed a b ∨ ¬ s.regionLegal then failed s .badArg
      else completed { s.sweep.insert (crc s.region) with
        dupRes := dupResOfInsert (insertIndex s.now s.sweep.table) (crc s.region) }) := by
  cases ha : argsUsed a b <;> cases hr : s.regionLegal <;> simp [execDupRecord, ha, hr, State.now]

theorem execDupCheckRecord_cases (a : BitVec 8) (b : BitVec 16) :
    execDupCheckRecord a b s = .next (
      if argsUsed a b ∨ ¬ s.regionLegal then failed s .badArg
      else match lookupTable (crc s.region) s.sweep.table with
        | some i => completed { s.sweep with dupRes := dupResOfLookup (some i) (crc s.region) }
        | none => completed { s.sweep.insert (crc s.region) with
            dupRes := dupResOfInsert (insertIndex s.now s.sweep.table) (crc s.region) }) := by
  cases ha : argsUsed a b <;> cases hr : s.regionLegal <;>
    simp only [execDupCheckRecord, ha, hr, Bool.not_true, Bool.not_false, Bool.false_eq_true, if_true, if_false, or_false,
      or_true, not_true_eq_false, not_false_eq_true, State.fail_eq]
  cases lookupTable (crc s.region) s.sweep.table <;> rfl

theorem execDigiProcess_cases (a : BitVec 8) (b : BitVec 16) :
    execDigiProcess a b s = .next (
      if argsUsed a b then failed s .badArg
      else match s.validate with
        | .error e => completed (s.clearMessage.digiDrop false (.frame e))
        | .ok n => completed ((s.clearMessage.digiCount n).digiAccepted n)) := by
  simp only [execDigiProcess]
  cases argsUsed a b <;> cases s.validate <;> rfl

theorem execPathInsertNode_cases (k : BitVec 8) (b : BitVec 16) :
    execPathInsertNode k b s = .next (
      if b ≠ 0#16 then failed s .badArg
      else match s.validate with
        | .error e => failed s (.frame e)
        | .ok n =>
          if k.toNat < 2 ∨ n < k.toNat then failed s .badArg
          else match s.noRoom n with
            | some e => failed s e.errCode
            | none => completed (s.grow n k.toNat)) := by
  by_cases hb : b = 0#16
  · simp only [execPathInsertNode, hb, bne_self_eq_false, Bool.false_eq_true, if_false, ne_eq, not_true_eq_false]
    cases s.validate with
    | error e => rfl
    | ok n => simp only; split
              · rfl
              · cases s.noRoom n <;> rfl
  · simp [execPathInsertNode, hb]

theorem execPathOverwriteNode_cases (k : BitVec 8) (b : BitVec 16) :
    execPathOverwriteNode k b s = .next (
      if b ≠ 0#16 then failed s .badArg
      else match s.validate with
        | .error e => failed s (.frame e)
        | .ok n =>
          if k.toNat < 2 ∨ n - 1 < k.toNat then failed s .badArg
          else completed ((s.overwriteNode k.toNat).setHeader n (payIdxOf n))) := by
  by_cases hb : b = 0#16
  · simp only [execPathOverwriteNode, hb, bne_self_eq_false, Bool.false_eq_true, if_false, ne_eq, not_true_eq_false]
    cases s.validate with
    | error e => rfl
    | ok n => simp only; split <;> rfl
  · simp [execPathOverwriteNode, hb]

end Sys2Proof.Machine
end

