-- ==== Sys2Proof/Laws/Memory.lean ====
section
/-! SUPPORT. Read after write on FBUF and TBUF, and that every memory operation keeps the canonical form. -/

namespace Sys2Proof.Machine

theorem Memory.lookup_store (m : List Host.Cell) (a b : Nat) (v : Byte) :
    Memory.lookup (Memory.store m a v) b = if b = a then some v else Memory.lookup m b := by
  induction m with
  | nil => simp [Memory.store, Memory.lookup, eq_comm]
  | cons c m ih =>
    obtain ⟨k, x⟩ := c
    simp only [Memory.store]
    split
    · by_cases h : b = a
      · subst h; simp [Memory.lookup]
      · simp [Memory.lookup, h, Ne.symm h]
    · split
      · rename_i h1 h2
        subst h2
        by_cases h : b = a
        · subst h; simp [Memory.lookup]
        · simp [Memory.lookup, h, Ne.symm h]
      · rename_i h1 h2
        simp only [Memory.lookup, ih]
        by_cases h : b = a
        · subst h; simp [Ne.symm h2]
        · simp [h]

theorem Memory.lookup_storeAll (bs : List Byte) : ∀ (m : List Host.Cell) (a b : Nat),
    Memory.lookup (Memory.storeAll m a bs) b =
      if a ≤ b ∧ b < a + bs.length then bs[b - a]? else Memory.lookup m b := by
  induction bs with
  | nil => intro m a b; simp [Memory.storeAll]
  | cons x bs ih =>
    intro m a b
    simp only [Memory.storeAll, ih, Memory.lookup_store, List.length_cons]
    by_cases h : b = a
    · subst h; simp
    · by_cases h2 : a + 1 ≤ b ∧ b < a + 1 + bs.length
      · have e : b - a = (b - (a + 1)) + 1 := by omega
        rw [if_pos h2, if_pos (by omega), e, List.getElem?_cons_succ]
      · rw [if_neg h2, if_neg h, if_neg (by omega)]

/-- The offsets a store lists. -/
theorem Memory.mem_store {m : List Host.Cell} {a : Nat} {v : Byte} {c : Host.Cell}
    (h : c ∈ Memory.store m a v) : c = (a, v) ∨ c ∈ m := by
  induction m with
  | nil => simpa [Memory.store] using h
  | cons d m ih =>
    obtain ⟨k, x⟩ := d
    simp only [Memory.store] at h
    split at h
    · simpa using h
    · split at h
      · simp at h ⊢; tauto
      · simp at h ⊢; tauto

/-- A store keeps the canonical form. -/
theorem Memory.wf_store {m : List Host.Cell} {a : Nat} {v : Byte} (h : Memory.wf m) (h1 : 0x100 ≤ a)
    (h2 : a < 0x400) : Memory.wf (Memory.store m a v) := by
  refine ⟨?_, fun c hc => ?_⟩
  · have hs := h.1
    clear h
    induction m with
    | nil => simp [Memory.store]
    | cons d m ih =>
      obtain ⟨k, x⟩ := d
      simp only [List.map_cons, List.pairwise_cons] at hs
      simp only [Memory.store]
      split
      · rename_i hlt
        simp only [List.map_cons, List.pairwise_cons]
        refine ⟨fun b hb => ?_, hs⟩
        rcases List.mem_cons.mp hb with rfl | hb
        · exact hlt
        · exact lt_trans hlt (hs.1 b hb)
      · split
        · rename_i _ he
          subst he
          simpa using hs
        · rename_i h3 h4
          simp only [List.map_cons, List.pairwise_cons]
          refine ⟨fun b hb => ?_, ih hs.2⟩
          obtain ⟨c, hc, rfl⟩ := List.mem_map.mp hb
          rcases Memory.mem_store hc with rfl | hc
          · simp only; omega
          · exact hs.1 _ (List.mem_map_of_mem hc)
  · rcases Memory.mem_store hc with rfl | hc
    · exact ⟨h1, h2⟩
    · exact h.2 c hc

/-- Storing bytes keeps the canonical form. -/
theorem Memory.wf_storeAll (bs : List Byte) : ∀ {m : List Host.Cell} {a : Nat}, Memory.wf m → 0x100 ≤ a →
    a + bs.length ≤ 0x400 → Memory.wf (Memory.storeAll m a bs) := by
  induction bs with
  | nil => intro m a h _ _; exact h
  | cons x bs ih =>
    intro m a h h1 h2
    simp only [List.length_cons] at h2
    exact ih (Memory.wf_store h h1 (by omega)) (by omega) (by omega)

variable (s : State)

theorem State.byteAt_setBytes (o : Nat) (bs : List Byte) (a : Nat) :
    (s.setBytes o bs).byteAt a = if a < o ∨ o + bs.length ≤ a then s.byteAt a else bs.getD (a - o) 0#8 := by
  simp only [State.byteAt, State.setBytes_mem, State.setBytes_resets, Memory.lookup_storeAll]
  by_cases h : o ≤ a ∧ a < o + bs.length
  · rw [if_pos h, if_neg (by omega), List.getElem?_eq_getElem (by omega), List.getD_eq_getElem _ _ (by omega)]
    rfl
  · rw [if_neg h, if_pos (by omega)]

/-- A byte of FBUF or TBUF, by its index from the start of FBUF, after a write into FBUF. -/
theorem State.fb_setFb (i : Nat) (bs : List Byte) (j : Nat) :
    (s.setFb i bs).fb j = if j < i ∨ i + bs.length ≤ j then s.fb j else bs.getD (j - i) 0#8 := by
  simp only [State.fb, State.setFb, State.byteAt_setBytes]
  have e : 0x100 + j - (0x100 + i) = j - i := by omega
  rw [e]
  by_cases h : j < i ∨ i + bs.length ≤ j
  · rw [if_pos h, if_pos (by omega)]
  · rw [if_neg h, if_neg (by omega)]

theorem State.tb_setTb (i : Nat) (bs : List Byte) (j : Nat) :
    (s.setTb i bs).tb j = if j < i ∨ i + bs.length ≤ j then s.tb j else bs.getD (j - i) 0#8 := by
  simp only [State.tb, State.setTb, State.byteAt_setBytes]
  have e : 0x200 + j - (0x200 + i) = j - i := by omega
  rw [e]
  by_cases h : j < i ∨ i + bs.length ≤ j
  · rw [if_pos h, if_pos (by omega)]
  · rw [if_neg h, if_neg (by omega)]

/-- A write inside FBUF leaves TBUF alone. -/
theorem State.tb_setFb {i : Nat} {bs : List Byte} (h : i + bs.length ≤ 256) (j : Nat) :
    (s.setFb i bs).tb j = s.tb j := by
  simp only [State.tb, State.setFb, State.byteAt_setBytes]
  rw [if_pos (by omega)]

/-- A write into TBUF leaves FBUF alone. -/
theorem State.fb_setTb (i : Nat) (bs : List Byte) {j : Nat} (h : j < 256) : (s.setTb i bs).fb j = s.fb j := by
  simp only [State.fb, State.setTb, State.byteAt_setBytes]
  rw [if_pos (by omega)]

/-- TBUF lies 256 bytes after FBUF: a byte of TBUF by its index from the start of FBUF. -/
theorem State.tb_eq_fb (j : Nat) : s.tb j = s.fb (256 + j) := by
  simp only [State.tb, State.fb]
  congr 1
  omega

@[simp] theorem State.length_fbs (a n : Nat) : (s.fbs a n).length = n := by simp [State.fbs]

@[simp] theorem State.length_tbs (a n : Nat) : (s.tbs a n).length = n := by simp [State.tbs]

theorem State.getElem?_fbs (a n j : Nat) : (s.fbs a n)[j]? = if j < n then some (s.fb (a + j)) else none := by
  by_cases h : j < n <;> simp [State.fbs, h]

theorem State.getElem?_tbs (a n j : Nat) : (s.tbs a n)[j]? = if j < n then some (s.tb (a + j)) else none := by
  by_cases h : j < n <;> simp [State.tbs, h]

theorem State.getD_fbs {a n j : Nat} (h : j < n) (d : Byte) : (s.fbs a n).getD j d = s.fb (a + j) := by
  rw [List.getD_eq_getElem?_getD, State.getElem?_fbs, if_pos h, Option.getD_some]

/-- Two states whose bytes agree have the same byte sequences. -/
theorem State.fbs_congr {s t : State} {a n : Nat} (h : ∀ j, j < n → s.fb (a + j) = t.fb (a + j)) :
    s.fbs a n = t.fbs a n := by
  simp only [State.fbs]
  exact List.map_congr_left fun j hj => h j (List.mem_range.mp hj)

theorem State.tbs_congr {s t : State} {a n : Nat} (h : ∀ j, j < n → s.tb (a + j) = t.tb (a + j)) :
    s.tbs a n = t.tbs a n := by
  simp only [State.tbs]
  exact List.map_congr_left fun j hj => h j (List.mem_range.mp hj)

/-- What was written into FBUF reads back. -/
theorem State.fbs_setFb (i : Nat) (bs : List Byte) : (s.setFb i bs).fbs i bs.length = bs := by
  apply List.ext_getElem?
  intro j
  rw [State.getElem?_fbs]
  by_cases h : j < bs.length
  · rw [if_pos h, State.fb_setFb, if_neg (by omega), Nat.add_sub_cancel_left, List.getD_eq_getElem _ _ h,
      List.getElem?_eq_getElem h]
  · rw [if_neg h, List.getElem?_eq_none (by omega)]

/-- What was written into TBUF reads back. -/
theorem State.tbs_setTb (i : Nat) (bs : List Byte) : (s.setTb i bs).tbs i bs.length = bs := by
  apply List.ext_getElem?
  intro j
  rw [State.getElem?_tbs]
  by_cases h : j < bs.length
  · rw [if_pos h, State.tb_setTb, if_neg (by omega), Nat.add_sub_cancel_left, List.getD_eq_getElem _ _ h,
      List.getElem?_eq_getElem h]
  · rw [if_neg h, List.getElem?_eq_none (by omega)]

/-- Bytes depend on the memory and the number of hard resets alone. -/
theorem State.fb_of_mem {s t : State} (hm : s.mem = t.mem) (hr : s.resets = t.resets) (j : Nat) : s.fb j = t.fb j := by
  simp only [State.fb, State.byteAt, hm, hr]

theorem State.tb_of_mem {s t : State} (hm : s.mem = t.mem) (hr : s.resets = t.resets) (j : Nat) : s.tb j = t.tb j := by
  simp only [State.tb, State.byteAt, hm, hr]

end Sys2Proof.Machine
end

