-- ==== Sys2Proof/Laws/Bus.lean ====
section
/-! SUPPORT. Host accesses: everything one access can do, and where the registers' bits lie. -/

namespace Sys2Proof.Machine

open Sys2Proof.Spec

variable (s : State)

/-- A guarded write while BUSY = 1 (R78). -/
theorem State.guarded_busy (f : State → State) (h : s.status.busy = true) :
    s.guarded f = { s with status := { s.status with wbusy := true } } := by
  simp only [State.guarded, h, if_true]

/-- A guarded write while BUSY = 0 (R78). -/
theorem State.guarded_idle (f : State → State) (h : s.status.busy = false) : s.guarded f = f s := by
  simp only [State.guarded, h, Bool.false_eq_true, if_false]

/-- What an access that is not refused does but for the answer on the bus. -/
inductive Effect (s : State) (a : Access) : State → Prop where
  /-- A read, or a write to a register or window that ignores it. -/
  | none : Effect s a s
  /-- A write that only writes an operand or configuration register, while BUSY = 0. -/
  | config (flen tlen : Half) (rgn : Rgn) (node : Addr) (cfg : Cfg) (w : Word) (h : s.status.busy = false)
      (hc : cfg.slotSamples ≠ 0#16 ∨ cfg = s.cfg) :
      Effect s a { s with flen := flen, tlen := tlen, rgn := rgn, node := node, cfg := cfg, dupWindow := w }
  /-- A write to CALLP. -/
  | callp (A : Addr) : Effect s a { s with callp := A }
  /-- A write to CTRL with SRST = 0. -/
  | ctrl (irq : Bool) (c : Counters) : Effect s a { s with irqEn := irq, cnt := c }
  /-- A write to CTRL with SRST = 1. -/
  | reset (v : Word) (h : a = .write32 0x00C#10 v) (hv : v.getLsbD 1 = true) : Effect s a s.softReset
  /-- A write to STATUS. -/
  | status (v : Word) (h : a = .write32 0x010#10 v) : Effect s a { s with status := s.status.writeOneToClear v }
  /-- A write to CMD while BUSY = 0. -/
  | issue (w : Word) (h : s.status.busy = false) : Effect s a (s.issue w)
  /-- A write to CMD while BUSY = 1. -/
  | overrun (h : s.status.busy = true) : Effect s a { s with status := { s.status with overrun := true } }
  /-- A guarded write while BUSY = 1. -/
  | dropped (h : s.status.busy = true) : Effect s a { s with status := { s.status with wbusy := true } }
  /-- A write of at most four bytes into FBUF or TBUF while BUSY = 0. -/
  | bytes (off : Nat) (bs : List Byte) (h : s.status.busy = false) (h1 : 0x100 ≤ off) (h2 : off + bs.length ≤ 0x400) :
      Effect s a (s.setBytes off bs)

theorem cfgOfWord_slot (v : Word) : (cfgOfWord v).slotSamples ≠ 0#16 := by
  simp only [cfgOfWord]
  split
  · decide
  · assumption

theorem effect_writeReg (off : Offset) (v : Word) : Effect s (.write32 off v) (s.writeReg off.toNat v) := by
  have hg : ∀ f : State → State, (s.status.busy = false → Effect s (.write32 off v) (f s)) →
      Effect s (.write32 off v) (s.guarded f) := fun f hf => by
    cases h : s.status.busy
    · rw [State.guarded_idle s f h]; exact hf h
    · rw [State.guarded_busy s f h]; exact .dropped h
  have ho : ∀ n : Offset, off.toNat = n.toNat → off = n := fun n => BitVec.eq_of_toNat_eq
  unfold State.writeReg
  split
  · rename_i h
    unfold State.writeCtrl
    split
    · exact .reset v (by rw [ho 0x00C#10 h]) ‹_›
    · exact .ctrl _ _
  · rename_i h
    exact .status v (by rw [ho 0x010#10 h])
  · unfold State.writeCmd
    cases h : s.status.busy
    · exact .issue v h
    · exact .overrun h
  · exact hg _ fun h => .config _ s.tlen s.rgn s.node s.cfg s.dupWindow h (.inr rfl)
  · exact hg _ fun h => .config s.flen _ s.rgn s.node s.cfg s.dupWindow h (.inr rfl)
  · exact hg _ fun h => .config s.flen s.tlen _ s.node s.cfg s.dupWindow h (.inr rfl)
  · exact hg _ fun h => .config s.flen s.tlen s.rgn _ s.cfg s.dupWindow h (.inr rfl)
  · exact hg _ fun h => .config s.flen s.tlen s.rgn _ s.cfg s.dupWindow h (.inr rfl)
  · exact hg _ fun h => .config s.flen s.tlen s.rgn s.node _ s.dupWindow h (.inl (cfgOfWord_slot v))
  · exact hg _ fun h => .config s.flen s.tlen s.rgn s.node s.cfg _ h (.inr rfl)
  · exact .callp _
  · exact .callp _
  · exact .none

theorem effect_writeWindow (a : Access) (off : Nat) (bs : List Byte) (h : off + bs.length ≤ 0x400) :
    Effect s a (s.writeWindow off bs) := by
  unfold State.writeWindow
  split
  · exact .none
  · cases hb : s.status.busy
    · rw [State.guarded_idle s _ hb]
      exact .bytes off bs hb (by omega) h
    · rw [State.guarded_busy s _ hb]
      exact .dropped hb

/-- Everything one access can do: it is refused, or it has one of the effects above and is answered. -/
theorem hostAccess_cases (a : Access) :
    (a.legal = false ∧ s.hostAccess a = s.refuse a) ∨
      ∃ t r, Effect s a t ∧ s.hostAccess a = { t with busResp := r } := by
  cases hl : a.legal
  · exact .inl ⟨rfl, by simp [State.hostAccess, hl]⟩
  · right
    cases a with
    | read16 off => simp [Access.legal] at hl
    | write16 off v => simp [Access.legal] at hl
    | read8 off => exact ⟨s, _, .none, by simp only [State.hostAccess, hl, if_true]; rfl⟩
    | read32 off => exact ⟨s, _, .none, by simp only [State.hostAccess, hl, if_true]; rfl⟩
    | write8 off v =>
      have := off.isLt
      exact ⟨_, _, effect_writeWindow s _ off.toNat [v] (by simp; omega), by simp only [State.hostAccess, hl, if_true]; rfl⟩
    | write32 off v =>
      refine ⟨s.writeWord off.toNat v, _, ?_, by simp only [State.hostAccess, hl, if_true]; rfl⟩
      have := off.isLt
      simp only [Access.legal, decide_eq_true_eq] at hl
      unfold State.writeWord
      split
      · exact effect_writeReg s off v
      · exact effect_writeWindow s _ _ _ (by simp [bytesOfWord]; omega)

/-! ### Register words -/

theorem getLsbD_fieldAt {n : Nat} (v : BitVec n) (lo k : Nat) :
    (fieldAt v lo).getLsbD k = (decide (k < 32) && decide (lo ≤ k) && v.getLsbD (k - lo)) := by
  simp only [fieldAt, BitVec.getLsbD_shiftLeft, BitVec.truncate_eq_setWidth, BitVec.getLsbD_setWidth]
  by_cases h1 : k < 32 <;> by_cases h2 : lo ≤ k <;> simp [h1, h2, Nat.lt_of_le_of_lt (Nat.sub_le k lo)]

theorem getLsbD_flagAt (b : Bool) (lo k : Nat) : (flagAt b lo).getLsbD k = (decide (k < 32) && decide (k = lo) && b) := by
  simp only [flagAt, getLsbD_fieldAt, BitVec.getLsbD_ofBool]
  by_cases h : k = lo
  · subst h; simp
  · by_cases h2 : lo ≤ k
    · simp [h, show ¬ (k - lo = 0) by omega]
    · simp [h, h2]

/-- A register word with one more field above those it has. -/
theorem toNat_or_fieldAt {n : Nat} {w : Word} {v : BitVec n} {lo : Nat} (hw : w.toNat < 2 ^ lo) (hn : lo + n ≤ 32) :
    (w ||| fieldAt v lo).toNat = w.toNat + v.toNat * 2 ^ lo := by
  have hv : v.toNat < 2 ^ n := v.isLt
  have h1 : v.toNat < 2 ^ 32 := Nat.lt_of_lt_of_le hv (Nat.pow_le_pow_right (by omega) (by omega))
  have h2 : v.toNat * 2 ^ lo < 2 ^ 32 := by
    calc v.toNat * 2 ^ lo < 2 ^ n * 2 ^ lo := Nat.mul_lt_mul_of_pos_right hv (by positivity)
      _ = 2 ^ (lo + n) := by rw [Nat.pow_add, Nat.mul_comm]
      _ ≤ 2 ^ 32 := Nat.pow_le_pow_right (by omega) hn
  rw [BitVec.toNat_or]
  have e : (fieldAt v lo).toNat = v.toNat <<< lo := by
    simp only [fieldAt, BitVec.toNat_shiftLeft, BitVec.truncate_eq_setWidth, BitVec.toNat_setWidth, Nat.shiftLeft_eq]
    rw [Nat.mod_eq_of_lt h1, Nat.mod_eq_of_lt h2]
  rw [e, Nat.or_comm, ← Nat.shiftLeft_add_eq_or_of_lt hw, Nat.shiftLeft_eq, Nat.add_comm]

/-- The word `w` is the number `x`, which has `b` bits. -/
structure IsNumber (w : Word) (x b : Nat) : Prop where
  eq : w.toNat = x
  lt : x < 2 ^ b

/-- The lowest field of a register word. -/
theorem IsNumber.first {n : Nat} (v : BitVec n) (h : n ≤ 32) : IsNumber (fieldAt v 0) v.toNat n := by
  have := toNat_or_fieldAt (w := 0#32) (v := v) (lo := 0) (by simp) (by omega)
  exact ⟨by simpa using this, v.isLt⟩

/-- One more field. -/
theorem IsNumber.or {n : Nat} {w : Word} {x b : Nat} (h : IsNumber w x b) (v : BitVec n) (lo : Nat) (hb : b ≤ lo) (hn : lo + n ≤ 32) :
    IsNumber (w ||| fieldAt v lo) (x + v.toNat * 2 ^ lo) (lo + n) := by
  have hx : x < 2 ^ lo := Nat.lt_of_lt_of_le h.lt (Nat.pow_le_pow_right (by omega) hb)
  refine ⟨by rw [toNat_or_fieldAt (by rw [h.eq]; exact hx) hn, h.eq], ?_⟩
  have hv : (v.toNat + 1) * 2 ^ lo ≤ 2 ^ n * 2 ^ lo := Nat.mul_le_mul_right _ v.isLt
  rw [Nat.add_comm lo, Nat.pow_add]
  rw [Nat.add_mul] at hv
  omega

theorem IsNumber.flag (x : Bool) : IsNumber (flagAt x 0) x.toNat 1 := by cases x <;> exact ⟨rfl, by decide⟩

/-- One more flag. -/
theorem IsNumber.orFlag {w : Word} {x b : Nat} (h : IsNumber w x b) (f : Bool) (lo : Nat) (hb : b ≤ lo) (hn : lo + 1 ≤ 32) :
    IsNumber (w ||| flagAt f lo) (x + f.toNat * 2 ^ lo) (lo + 1) := by
  have := h.or (BitVec.ofBool f) lo hb hn
  rwa [show (BitVec.ofBool f).toNat = f.toNat by cases f <;> rfl] at this

/-- A word of four bytes as a number. -/
theorem toNat_wordOfBytes (b0 b1 b2 b3 : Byte) : (wordOfBytes b0 b1 b2 b3).toNat = littleEndian [b0, b1, b2, b3] := by
  have h := ((((IsNumber.first b0 (by omega)).or b1 8 (by omega) (by omega)).or b2 16 (by omega) (by omega)).or b3 24
    (by omega) (by omega)).eq
  have e : wordOfBytes b0 b1 b2 b3 = fieldAt b0 0 ||| fieldAt b1 8 ||| fieldAt b2 16 ||| fieldAt b3 24 := by
    simp [wordOfBytes, fieldAt]
  rw [e, h]; simp only [littleEndian]; omega

/-- A word of CALLTXT as a number. -/
theorem littleEndian_getD (t : List Byte) (i : Nat) :
    littleEndian [t.getD i 0#8, t.getD (i + 1) 0#8, t.getD (i + 2) 0#8, t.getD (i + 3) 0#8] =
      littleEndian ((t.drop i).take 4) := by
  have : ∀ t : List Byte,
      littleEndian [t.getD 0 0#8, t.getD 1 0#8, t.getD 2 0#8, t.getD 3 0#8] = littleEndian (t.take 4) := by
    intro t
    match t with
    | [] => rfl
    | [_] => rfl
    | [_, _] => rfl
    | [_, _, _] => rfl
    | _ :: _ :: _ :: _ :: _ => rfl
  rw [← this]; simp [List.getD_eq_getElem?_getD, List.getElem?_drop]

end Sys2Proof.Machine
end

