-- ==== Sys2Proof/Laws/Callsign.lean ====
section
/-! SUPPORT. The callsign codec: what ENCODE reads, how long DECODE's text is, and that encoding stops where no callsign character
follows. -/

namespace Sys2Proof.Machine

open Sys2Proof.Spec

theorem dec_eq_decimal : ∀ n < 16, dec n = decimal n := by decide

theorem decimal_digits : ∀ n < 16, ∀ c ∈ decimal n, isDigit c = true := by decide

theorem decimal_length : ∀ n < 16, 1 ≤ (decimal n).length ∧ (decimal n).length ≤ 2 := by decide

theorem digitsValue_decimal : ∀ n < 16, digitsValue (decimal n) = n := by decide

theorem length_stripPad_le (t : List Byte) : (stripPad t).length ≤ t.length := by
  simp only [stripPad, List.length_reverse]
  exact le_trans (List.dropWhile_suffix _).length_le (by simp)

/-- DECODE's text has at most nine characters (R131). -/
theorem length_decodeCall_le (A : Addr) : (decodeCall A).length ≤ 9 := by
  have h1 : (stripPad (A.call.map fun c : Byte => c >>> 1)).length ≤ 6 := by
    refine le_trans (length_stripPad_le _) ?_
    simp [Addr.call]
  have h2 := (decimal_length A.ssid.toNat A.ssid.isLt).2
  have h3 := dec_eq_decimal A.ssid.toNat A.ssid.isLt
  simp only [decodeCall, List.length_append]
  split
  · simp; omega
  · simp [h3]; omega

/-- Stripping pads from a text whose first part ends in no space. -/
theorem stripPad_append (t : List Byte) (n : Nat) (h : t = [] ∨ t.getLast? ≠ some 0x20#8) :
    stripPad (t ++ List.replicate n 0x20#8) = t := by
  simp only [stripPad, List.reverse_append, List.reverse_replicate]
  rw [List.dropWhile_append_of_pos (by simp)]
  rcases h with rfl | h
  · rfl
  · cases ht : t.reverse with
    | nil => simpa using ht
    | cons x xs =>
      have : t.getLast? = some x := by rw [← List.head?_reverse, ht]; rfl
      rw [this] at h
      rw [List.dropWhile_cons_of_neg (by simpa using h), ← ht, List.reverse_reverse]

/-! ### ENCODE -/

/-- The SSID byte ENCODE builds (R96, R98). -/
def encodedSsid (q : BitVec 2) (h : Bool) (n : Nat) : Byte :=
  ((BitVec.ofBool h).zeroExtend 8 <<< 7) ||| (q.zeroExtend 8 <<< 5) ||| (BitVec.ofNat 8 n <<< 1)

theorem ssidOfDigits_lt (ds : List Byte) : ssidOfDigits ds < 16 := by
  induction ds using List.reverseRecOn with
  | nil => decide
  | append_singleton ds d ih =>
    simp only [ssidOfDigits, List.foldl_append, List.foldl_cons, List.foldl_nil]
    exact Nat.mod_lt _ (by decide)

/-- The digit loop of ENCODE is the digits' value modulo 16 (R98, R130). -/
theorem ssidOfDigits_eq (ds : List Byte) : ssidOfDigits ds = digitsValue ds % 16 := by
  induction ds using List.reverseRecOn with
  | nil => rfl
  | append_singleton ds d ih =>
    simp only [ssidOfDigits, List.foldl_append, List.foldl_cons, List.foldl_nil] at ih ⊢
    rw [ih]
    simp only [digitsValue, List.reverse_append, List.reverse_cons, List.reverse_nil, List.nil_append,
      List.map_cons, List.cons_append, Nat.ofDigits_cons]
    omega

theorem encodedSsid_fields (q : BitVec 2) (h : Bool) (n : Nat) (hn : n < 16) :
    (encodedSsid q h n).getLsbD 7 = h ∧ (encodedSsid q h n).extractLsb' 5 2 = q ∧
      (encodedSsid q h n).extractLsb' 1 4 = BitVec.ofNat 4 n ∧ (encodedSsid q h n).getLsbD 0 = false := by
  revert q h
  interval_cases n <;> decide

theorem takeWhile_take_append {p : Byte → Bool} {call t1 : List Byte} (hl : call.length ≤ 6)
    (hc : ∀ c ∈ call, p c = true) (hs : call.length < 6 → ∀ c ∈ t1.head?, p c = false) :
    ((call ++ t1).take 6).takeWhile p = call := by
  rw [List.take_append, List.take_of_length_le hl, List.takeWhile_append_of_pos hc]
  cases t1 with
  | nil => simp
  | cons x xs =>
    by_cases h6 : call.length < 6
    · obtain ⟨k, hk⟩ : ∃ k, 6 - call.length = k + 1 := ⟨5 - call.length, by omega⟩
      rw [hk, List.take_succ_cons, List.takeWhile_cons_of_neg (by simpa using hs h6 x rfl), List.append_nil]
    · rw [show 6 - call.length = 0 by omega]; simp

theorem takeWhile_append_stop {p : Byte → Bool} {ds t2 : List Byte} (hd : ∀ c ∈ ds, p c = true)
    (hs : ∀ c ∈ t2.head?, p c = false) : (ds ++ t2).takeWhile p = ds := by
  rw [List.takeWhile_append_of_pos hd]
  cases t2 with
  | nil => simp
  | cons x xs => rw [List.takeWhile_cons_of_neg (by simpa using hs x rfl), List.append_nil]

/-- ENCODE reads the longest callsign, `-digits` and `*` at the head of the text (R130). -/
theorem encodeCall_spec (q : BitVec 2) (call digits rest : List Byte) (dash star : Bool)
    (hl : call.length ≤ 6) (hc : ∀ c ∈ call, isAlnum c = true) (hd : ∀ c ∈ digits, isDigit c = true)
    (h0 : dash = false → digits = [])
    (h1 : call.length < 6 → dash = false → star = false → ∀ c ∈ rest.head?, isAlnum c = false)
    (h2 : dash = false → star = false → ∀ c ∈ rest.head?, c ≠ 0x2D#8)
    (h3 : dash = true → star = false → ∀ c ∈ rest.head?, isDigit c = false)
    (h4 : star = false → ∀ c ∈ rest.head?, c ≠ 0x2A#8) :
    encodeCall q (call ++ (if dash then 0x2D#8 :: digits else []) ++ (if star then [0x2A#8] else []) ++ rest) =
      (⟨callByte call 0, callByte call 1, callByte call 2, callByte call 3, callByte call 4, callByte call 5,
          encodedSsid q star (ssidOfDigits digits)⟩,
        call.length + (if dash then 1 + digits.length else 0) + (if star then 1 else 0)) := by
  have hstar : headIs 0x2A#8 ((if star then [0x2A#8] else []) ++ rest) = star := by
    cases star
    · cases rest with
      | nil => rfl
      | cons x xs => simpa [headIs] using h4 rfl x rfl
    · rfl
  simp only [encodeCall, List.append_assoc]
  rw [takeWhile_take_append hl hc]
  · rw [List.drop_left]
    cases dash
    · have hdash : headIs 0x2D#8 ((if star then [0x2A#8] else []) ++ rest) = false := by
        cases star
        · cases rest with
          | nil => rfl
          | cons x xs => simpa [headIs] using h2 rfl rfl x rfl
        · rfl
      simp only [Bool.false_eq_true, if_false, List.nil_append, hdash, List.drop_zero, hstar, h0 rfl, List.length_nil,
        Nat.add_zero]
      rfl
    · have e : (if true = true then 0x2D#8 :: digits else []) ++ ((if star = true then [0x2A#8] else []) ++ rest) =
          0x2D#8 :: (digits ++ ((if star = true then [0x2A#8] else []) ++ rest)) := by simp
      have hstop : ∀ c ∈ ((if star = true then [0x2A#8] else []) ++ rest).head?, isDigit c = false := by
        cases star
        · simpa using h3 rfl rfl
        · intro c hc'; simp at hc'; subst hc'; decide
      rw [e]
      have hh : ∀ u, headIs 0x2D#8 (0x2D#8 :: u) = true := fun _ => rfl
      simp only [hh, if_true, List.drop_succ_cons, List.drop_zero]
      rw [takeWhile_append_stop hd hstop, show 1 + digits.length = digits.length + 1 by omega, List.drop_succ_cons,
        List.drop_left, hstar]
      rfl
  · intro hlt c hc'
    cases dash
    · cases star
      · simp at hc'; exact h1 hlt rfl rfl c (by simpa using hc')
      · simp at hc'; subst hc'; decide
    · simp at hc'; subst hc'; decide

/-- The six callsign bytes are the shifted characters, padded with shifted spaces (R97). -/
theorem callBytes_eq {call : List Byte} (hl : call.length ≤ 6) :
    [callByte call 0, callByte call 1, callByte call 2, callByte call 3, callByte call 4, callByte call 5] =
      call.map (fun c : Byte => c <<< 1) ++ List.replicate (6 - call.length) 0x40#8 := by
  match call, hl with
  | [], _ => rfl
  | [_], _ => rfl
  | [_, _], _ => rfl
  | [_, _, _], _ => rfl
  | [_, _, _, _], _ => rfl
  | [_, _, _, _, _], _ => rfl
  | [_, _, _, _, _, _], _ => rfl
  | _ :: _ :: _ :: _ :: _ :: _ :: _ :: _, h => simp only [List.length_cons] at h; omega

/-- No byte of an encoded call has its bit 0 set (R97). -/
theorem callByte_bit0 (call : List Byte) (i : Nat) : (callByte call i).getLsbD 0 = false := by
  simp only [callByte]
  cases call[i]? <;> simp

/-- ENCODE's address has E = 0, and no byte of it has bit 0 set. -/
theorem encodeCall_bit0 (q : BitVec 2) (t : List Byte) : ∀ b ∈ (encodeCall q t).1.bytes, b.getLsbD 0 = false := by
  intro b hb
  simp only [encodeCall, Addr.bytes, List.mem_cons, List.not_mem_nil, or_false] at hb
  rcases hb with rfl | rfl | rfl | rfl | rfl | rfl | rfl
  any_goals exact callByte_bit0 _ _
  exact (encodedSsid_fields q _ _ (ssidOfDigits_lt _)).2.2.2

/-- ENCODE does not look past a character that is no part of a callsign text. -/
theorem encodeCall_append (q : BitVec 2) (t rest : List Byte) (x : Byte) (hx : isAlnum x = false) (h1 : x ≠ 0x2D#8)
    (h2 : x ≠ 0x2A#8) : (encodeCall q (t ++ x :: rest)).1 = (encodeCall q t).1 := by
  have hdig : isDigit x = false := by
    simp only [isAlnum, Bool.or_eq_false_iff] at hx; exact hx.1.1
  have htake : ∀ n, ((t ++ x :: rest).take n).takeWhile isAlnum = (t.take n).takeWhile isAlnum := by
    intro n
    induction t generalizing n with
    | nil => cases n <;> simp [hx]
    | cons c t ih =>
      cases n with
      | zero => rfl
      | succ n =>
        simp only [List.cons_append, List.take_succ_cons, List.takeWhile_cons]
        split
        · rw [ih]
        · rfl
  have hlen : ((t.take 6).takeWhile isAlnum).length ≤ t.length :=
    le_trans (List.takeWhile_prefix _).length_le (by simp)
  have hhead : ∀ (u : List Byte) (c : Byte), c ≠ x → headIs c (u ++ x :: rest) = headIs c u := by
    intro u c hc
    cases u with
    | nil => simp [headIs, Ne.symm hc]
    | cons y u => rfl
  have hdigs : ∀ u : List Byte, (u ++ x :: rest).takeWhile isDigit = u.takeWhile isDigit := by
    intro u
    induction u with
    | nil => simp [hdig]
    | cons c u ih =>
      simp only [List.cons_append, List.takeWhile_cons]
      split
      · rw [ih]
      · rfl
  simp only [encodeCall, htake]
  rw [List.drop_append_of_le_length hlen]
  generalize (t.take 6).takeWhile isAlnum = cs at *
  generalize t.drop cs.length = u
  rw [hhead u _ (Ne.symm h1)]
  cases hu : headIs 0x2D#8 u
  · simp only [Bool.false_eq_true, if_false, List.drop_zero, hhead u _ (Ne.symm h2)]
  · cases u with
    | nil => simp [headIs] at hu
    | cons y u =>
      simp only [if_true, List.cons_append, List.drop_succ_cons, List.drop_zero, hdigs]
      rw [show 1 + (u.takeWhile isDigit).length = (u.takeWhile isDigit).length + 1 by omega, List.drop_succ_cons,
        List.drop_succ_cons, List.drop_append_of_le_length (List.takeWhile_prefix _).length_le, hhead _ _ (Ne.symm h2)]

/-! ### DECODE -/

/-- DECODE when the last of the six characters that is no space is the `n`-th (R131). -/
theorem decodeCall_eq (A : Addr) (n : Nat) (hn : n ≤ 6) (h1 : ∀ i, n ≤ i → i < 6 → A.call.getD i 0#8 >>> 1 = 0x20#8)
    (h2 : ∀ m, n = m + 1 → A.call.getD m 0#8 >>> 1 ≠ 0x20#8) :
    decodeCall A = (A.call.take n).map (fun c : Byte => c >>> 1) ++
      (if A.ssid = 0#4 then [] else 0x2D#8 :: decimal A.ssid.toNat) := by
  have hl : A.call.length = 6 := rfl
  have hs : stripPad (A.call.map fun c : Byte => c >>> 1) = (A.call.take n).map (fun c : Byte => c >>> 1) := by
    have e : A.call.map (fun c : Byte => c >>> 1) =
        (A.call.take n).map (fun c : Byte => c >>> 1) ++ List.replicate (6 - n) 0x20#8 := by
      conv_lhs => rw [← List.take_append_drop n A.call, List.map_append]
      congr 1
      apply List.ext_getElem
      · simp [hl]
      · intro i hi hi'
        simp [hl] at hi hi'
        have := h1 (n + i) (by omega) (by omega)
        rw [List.getD_eq_getElem _ _ (by omega)] at this
        simp [this]
    rw [e, stripPad_append]
    rcases n with _ | m
    · left; rfl
    · right
      have := h2 m rfl
      rw [List.getD_eq_getElem _ _ (by omega)] at this
      rw [List.getLast?_eq_getElem?]
      simp [hl]
      rw [show min (m + 1) 6 - 1 = m by omega, List.getElem?_eq_getElem (by omega)]
      intro x hx
      cases hx
      exact this
  rw [decodeCall, hs, dec_eq_decimal _ A.ssid.isLt]

theorem isAlnum_of_isUpperOrDigit : ∀ x : Byte, isUpperOrDigit x = true → isAlnum x = true := by decide

/-- DECODE of an address that holds a callsign text's shifted characters and its SSID is that text (R134). -/
theorem decodeCall_chars {A : Addr} {c : CallText} (hc : ∀ x ∈ c.call, isAlnum x = true)
    (hs : c.ssid < 16) (h1 : A.call = c.call.map (fun c : Byte => c <<< 1) ++ List.replicate (6 - c.call.length) 0x40#8)
    (h2 : A.ssid = BitVec.ofNat 4 c.ssid) : decodeCall A = c.chars := by
  rw [CallText.chars, ← dec_eq_decimal _ hs, decodeCall, h1, h2]
  congr 1
  · rw [List.map_append, List.map_map, List.map_replicate]
    have hsh : ∀ x : Byte, isAlnum x = true → (x <<< 1) >>> 1 = x := by decide
    have : List.map ((fun c : Byte => c >>> 1) ∘ fun c : Byte => c <<< 1) c.call = c.call := by
      conv_rhs => rw [← List.map_id c.call]
      exact List.map_congr_left fun x hx => hsh x (hc x hx)
    rw [this]
    apply stripPad_append
    by_cases h : c.call = []
    · exact .inl h
    · exact .inr fun h' => absurd (hc 0x20#8 (List.mem_of_getLast? h')) (by decide)
  · by_cases h : c.ssid = 0
    · simp [h]
    · have h2 : BitVec.ofNat 4 c.ssid ≠ 0#4 := by
        intro h2
        have := congrArg BitVec.toNat h2
        simp at this
        omega
      rw [if_neg h2, if_neg h]
      congr 2
      simp
      omega

/-- The text from a cursor on. -/
theorem State.drop_text (s : State) (n : Nat) : s.text.drop n = s.tbs n (s.tlen.toNat - n) := by
  apply List.ext_getElem?
  intro i
  rw [List.getElem?_drop, State.text, State.getElem?_tbs, State.getElem?_tbs, Nat.zero_add]
  by_cases h : n + i < s.tlen.toNat
  · rw [if_pos h, if_pos (by omega)]
  · rw [if_neg h, if_neg (by omega)]

end Sys2Proof.Machine
end

