-- ==== Sys2Proof/Laws/Csma.lean ====
section
/-! SUPPORT. The channel-access arbiter: the four outcomes of a sample event, and a run of scheduled sample events. -/

namespace Sys2Proof.Machine

open Sys2Proof.Spec

theorem satIncr_eq : ∀ n : Byte, satIncr n = BitVec.ofNat 8 (min (n.toNat + 1) 255) := by decide

@[simp] theorem drawGrants_iff {p r : Byte} : drawGrants p r = true ↔ p.toNat < r.toNat := by simp [drawGrants]

/-- R258: 255 - PERSIST of the 256 values of a draw grant. -/
theorem grantingDraws_eq (p : Byte) : grantingDraws p = 255 - p.toNat := by
  revert p
  decide +kernel

/-- A sample event while the arbiter does not wait (R252). -/
theorem State.sampleEvent_other {s : State} (h : s.engine ≠ .csmaWait) (b : Bool) (r : Byte) : s.sampleEvent b r = s := by
  cases he : s.engine <;> simp_all [State.sampleEvent]

/-- The four outcomes of a sample event while the arbiter waits: busy, idle without a draw, grant, failed draw (R252 to R255). -/
theorem State.sampleEvent_cases {s : State} (h : s.engine = .csmaWait) (b : Bool) (r : Byte) :
    (b = true ∧ s.sampleEvent b r = { s with arb := { s.arb with idleCnt := 0#16 } }) ∨
    (b = false ∧ s.arb.idleCnt + 1#16 ≠ s.cfg.slotSamples ∧
      s.sampleEvent b r = { s with arb := { s.arb with idleCnt := s.arb.idleCnt + 1#16 } }) ∨
    (b = false ∧ s.arb.idleCnt + 1#16 = s.cfg.slotSamples ∧ s.cfg.persist.toNat < r.toNat ∧
      s.sampleEvent b r =
        completed { s with
          status := { s.status with grant := true }
          cnt := { s.cnt with grant := s.cnt.grant + 1#32 }
          arb := ⟨s.cfg.slotSamples, satIncr s.arb.attempts, .idle⟩ }) ∨
    (b = false ∧ s.arb.idleCnt + 1#16 = s.cfg.slotSamples ∧ r.toNat ≤ s.cfg.persist.toNat ∧
      s.sampleEvent b r = { s with arb := { s.arb with idleCnt := 0#16, attempts := satIncr s.arb.attempts } }) := by
  simp only [State.sampleEvent, h, State.sampleChannel]
  cases b
  · simp only [Bool.false_eq_true, if_false, false_and, true_and, false_or]
    by_cases h1 : s.arb.idleCnt + 1#16 = s.cfg.slotSamples
    · right
      simp only [h1, if_true, State.drawChannel]
      by_cases h2 : s.cfg.persist.toNat < r.toNat
      · left; simp [h2, State.grant]
      · right; simp [h2]; omega
    · left; simp [h1]
  · left; simp

/-- A sample event does not look at the schedule. -/
theorem State.sampleEvent_schedule (s : State) (q : List Event) (b : Bool) (r : Byte) :
    State.sampleEvent { s with schedule := q } b r = { s.sampleEvent b r with schedule := q } := by
  by_cases he : s.engine = .csmaWait
  · have he' : ({ s with schedule := q } : State).engine = .csmaWait := he
    simp only [State.sampleEvent, he, State.sampleChannel, State.drawChannel]
    split
    · simp
    · split
      · split
        · rfl
        · simp
      · simp
  · rw [State.sampleEvent_other (s := { s with schedule := q }) he, State.sampleEvent_other he]

/-- The state after these sample events. -/
def afterSamples (s : State) (l : List (Bool × Byte)) : State := l.foldl (fun u x => u.sampleEvent x.1 x.2) s

@[simp] theorem afterSamples_nil (s : State) : afterSamples s [] = s := rfl

@[simp] theorem afterSamples_append (s : State) (l : List (Bool × Byte)) (x : Bool × Byte) :
    afterSamples s (l ++ [x]) = (afterSamples s l).sampleEvent x.1 x.2 := by
  simp [afterSamples]

theorem afterSamples_cons (s : State) (l : List (Bool × Byte)) (x : Bool × Byte) :
    afterSamples s (x :: l) = afterSamples (s.sampleEvent x.1 x.2) l := rfl

/-- Steps through scheduled sample events. -/
theorem run_beforeSamples : ∀ (l : List (Bool × Byte)) (s : State),
    Host.Core.run Sys2Proof.core l.length (beforeSamples l s) = .next (afterSamples s l)
  | [], _ => rfl
  | x :: l, s => by
    have h1 : Sys2Proof.core.step (beforeSamples (x :: l) s) =
        .next (beforeSamples l (s.sampleEvent x.1 x.2)) := by
      show Host.Outcome.next (State.sampleEvent { s with schedule := _ } x.1 x.2) = _
      rw [State.sampleEvent_schedule]
      have h2 : (s.sampleEvent x.1 x.2).schedule = s.schedule := by
        by_cases he : s.engine = .csmaWait
        · rcases State.sampleEvent_cases he x.1 x.2 with ⟨_, h⟩ | ⟨_, _, h⟩ | ⟨_, _, _, h⟩ | ⟨_, _, _, h⟩ <;> simp [h]
        · rw [State.sampleEvent_other he]
      simp only [beforeSamples, h2]
      rfl
    have h3 : Host.Core.run Sys2Proof.core (l.length + 1) (beforeSamples (x :: l) s) =
        Host.Core.run Sys2Proof.core l.length (beforeSamples l (s.sampleEvent x.1 x.2)) := by
      show (match Sys2Proof.core.step (beforeSamples (x :: l) s) with
        | .next s' => Host.Core.run Sys2Proof.core l.length s'
        | .fault r => .fault r
        | .refused r => .refused r) = _
      rw [h1]
    exact h3.trans (run_beforeSamples l (s.sampleEvent x.1 x.2))

/-- Samples in two runs. -/
theorem afterSamples_append_run (s : State) (l m : List (Bool × Byte)) :
    afterSamples s (l ++ m) = afterSamples (afterSamples s l) m := by
  simp [afterSamples]

/-- Whether samples end a wait, read from the state after them. -/
theorem grantedBy_eq (s : State) (l : List (Bool × Byte)) :
    grantedBy s l = (decide ((afterSamples s l).engine = .idle) && (afterSamples s l).status.grant) := by
  simp only [grantedBy, run_beforeSamples]

/-- Samples outside a wait. -/
theorem afterSamples_other {s : State} (h : s.engine ≠ .csmaWait) (l : List (Bool × Byte)) : afterSamples s l = s := by
  induction l with
  | nil => rfl
  | cons x l ih => rw [afterSamples_cons, State.sampleEvent_other h, ih]

/-- Idle samples that do not fill the slot only count. -/
theorem afterSamples_idle {s : State} (h : s.engine = .csmaWait) : ∀ n, s.arb.idleCnt.toNat + n < s.cfg.slotSamples.toNat →
    afterSamples s (List.replicate n (false, 0x00#8)) =
      { s with arb := { s.arb with idleCnt := s.arb.idleCnt + BitVec.ofNat 16 n } } := by
  intro n
  induction n with
  | zero => intro _; simp
  | succ n ih =>
    intro hn
    rw [List.replicate_succ', afterSamples_append, ih (by omega)]
    have hs := s.cfg.slotSamples.isLt
    have key : (s.arb.idleCnt + BitVec.ofNat 16 n + 1#16).toNat = s.arb.idleCnt.toNat + n + 1 := by
      simp [BitVec.toNat_add]; omega
    simp only [State.sampleEvent, h, State.sampleChannel, Bool.false_eq_true, if_false]
    rw [if_neg (fun hh => by rw [hh] at key; omega)]
    simp [BitVec.add_assoc, BitVec.ofNat_add]

/-- One whole slot: its draw grants, or the wait starts again. -/
theorem afterSamples_slot {s : State} (h : s.engine = .csmaWait) (h0 : s.arb.idleCnt = 0#16)
    (hs : s.cfg.slotSamples ≠ 0#16) (r : Byte) :
    ∃ t, afterSamples s (List.replicate (s.cfg.slotSamples.toNat - 1) (false, 0x00#8) ++ [(false, r)]) = t ∧
      ((drawGrants s.cfg.persist r = true ∧ t.engine = .idle ∧ t.status.grant = true) ∨
        (drawGrants s.cfg.persist r = false ∧
          t = { s with arb := { s.arb with idleCnt := 0#16, attempts := satIncr s.arb.attempts } })) := by
  have hpos : 0 < s.cfg.slotSamples.toNat := by
    rcases Nat.eq_zero_or_pos s.cfg.slotSamples.toNat with h0 | h0
    · exact absurd (BitVec.eq_of_toNat_eq (by simpa using h0)) hs
    · exact h0
  have hlt := s.cfg.slotSamples.isLt
  refine ⟨_, rfl, ?_⟩
  rw [afterSamples_append, afterSamples_idle h _ (by simp [h0]; omega), h0]
  have key : (0#16 : Half) + BitVec.ofNat 16 (s.cfg.slotSamples.toNat - 1) + 1#16 = s.cfg.slotSamples := by
    apply BitVec.eq_of_toNat_eq; simp [BitVec.toNat_add]; omega
  simp only [State.sampleEvent, h, State.sampleChannel, Bool.false_eq_true, if_false, key, if_true, State.drawChannel]
  cases hd : drawGrants s.cfg.persist r
  · right; simp
  · left; exact ⟨rfl, rfl, rfl⟩

/-- Slots of a wait end it with a grant exactly when one of their draws grants. -/
theorem grantedBy_slotsOf (rs : List Byte) : ∀ {s : State}, s.engine = .csmaWait → s.arb.idleCnt = 0#16 →
    s.cfg.slotSamples ≠ 0#16 → grantedBy s (slotsOf s.cfg.slotSamples.toNat rs) = rs.any (drawGrants s.cfg.persist) := by
  induction rs with
  | nil => intro s h _ _; rw [grantedBy_eq]; simp [slotsOf, h]
  | cons r rs ih =>
    intro s h h0 hs
    have e : slotsOf s.cfg.slotSamples.toNat (r :: rs) =
        (List.replicate (s.cfg.slotSamples.toNat - 1) (false, 0x00#8) ++ [(false, r)]) ++
          slotsOf s.cfg.slotSamples.toNat rs := by simp [slotsOf]
    obtain ⟨t, ht, h1⟩ := afterSamples_slot h h0 hs r
    rw [grantedBy_eq, e, afterSamples_append_run, ht, List.any_cons]
    rcases h1 with ⟨hd, h1, h2⟩ | ⟨hd, rfl⟩
    · rw [afterSamples_other (by rw [h1]; decide), h1, h2]; simp [hd]
    · rw [← grantedBy_eq, hd, Bool.false_or]
      exact ih (s := { s with arb := { s.arb with idleCnt := 0#16, attempts := satIncr s.arb.attempts } }) h rfl hs

end Sys2Proof.Machine
end

