-- ==== Sys2Proof/Laws/Decode.lean ====
section
/-! SUPPORT. The fields of an encoded command, and the two directions between words and bytes. -/

namespace Sys2Proof

@[simp] theorem opcField_encode (i : Instr) : opcField (encode i) = i.opcode := by
  simp only [opcField, encode]
  generalize i.opcode = o
  generalize i.argA = a
  generalize i.argB = b
  ext k hk
  simp [BitVec.getElem_extractLsb']
  grind

@[simp] theorem argAField_encode (i : Instr) : argAField (encode i) = i.argA := by
  simp only [argAField, encode]
  generalize i.opcode = o
  generalize i.argA = a
  generalize i.argB = b
  ext k hk
  simp [BitVec.getElem_extractLsb', hk]
  grind

@[simp] theorem argBField_encode (i : Instr) : argBField (encode i) = i.argB := by
  simp only [argBField, encode]
  generalize i.opcode = o
  generalize i.argA = a
  generalize i.argB = b
  ext k hk
  simp [BitVec.getElem_extractLsb', hk]
  grind

/-- A word is its three fields. -/
theorem word_of_fields (w : Word) :
    ((argBField w).zeroExtend 32 <<< 16) ||| ((argAField w).zeroExtend 32 <<< 8) ||| (opcField w).zeroExtend 32 = w := by
  simp only [argBField, argAField, opcField]
  ext k hk
  simp
  grind

/-- A word is its four bytes, bits 7:0 first. -/
@[simp] theorem wordOfBytes_wordByte (w : Word) :
    wordOfBytes (wordByte w 0) (wordByte w 1) (wordByte w 2) (wordByte w 3) = w := by
  simp only [wordOfBytes, wordByte]
  ext k hk
  simp
  grind

theorem wordByte_eq_extract (w : Word) (k : Nat) : wordByte w k = w.extractLsb' (8 * k) 8 := by
  ext j hj
  simp [wordByte, BitVec.getElem_extractLsb']

/-- Each byte of a word made of four bytes. -/
theorem wordByte_wordOfBytes (b0 b1 b2 b3 : Byte) :
    wordByte (wordOfBytes b0 b1 b2 b3) 0 = b0 ∧ wordByte (wordOfBytes b0 b1 b2 b3) 1 = b1 ∧
      wordByte (wordOfBytes b0 b1 b2 b3) 2 = b2 ∧ wordByte (wordOfBytes b0 b1 b2 b3) 3 = b3 := by
  simp only [wordOfBytes, wordByte]
  refine ⟨?_, ?_, ?_, ?_⟩ <;> (ext k hk; simp <;> grind)

/-- The decoder on the bytes of a word. -/
theorem decodeBytes_bytesOfWord (w : Word) (rest : List Byte) :
    decodeBytes (bytesOfWord w ++ rest) =
      match decode w with
      | .ok i => .ok (i, rest)
      | .error e => .error e := by
  simp only [bytesOfWord, List.cons_append, List.nil_append, decodeBytes, wordOfBytes_wordByte] <;>
    cases decode w <;> rfl

end Sys2Proof
end

