-- ==== Sys2Proof/Laws/DupCache.lean ====
section
/-! SUPPORT. The duplicate table in the words of R181 to R184: what a sweep leaves, which slot a lookup finds, which slot an
insertion writes. -/

namespace Sys2Proof.Machine

open Sys2Proof.Spec

/-- PASSED is "strictly before in wraparound order" (R181). -/
theorem passed_iff (d now : Word) : passed d now = true ↔ expired d now := by
  simp only [passed, expired, decide_eq_true_eq]
  rw [BitVec.toInt_neg_iff, BitVec.toNat_sub]
  have := d.isLt
  have := now.isLt
  omega

theorem sweepTable_eq (now : Word) (t : List Slot) : sweepTable now t = swept now t := by
  simp only [sweepTable, swept]
  refine List.map_congr_left fun x _ => ?_
  simp only [Slot.sweep, passed_iff]
  rfl

theorem State.sweep_table_eq (s : State) : s.sweep.table = swept s.tickSnap s.table := sweepTable_eq _ _

@[simp] theorem length_swept (now : Word) (t : List Slot) : (swept now t).length = t.length := by simp [swept]

/-- A slot that a sweep keeps is one it would keep again (R182). -/
theorem swept_swept (now : Word) (t : List Slot) : swept now (swept now t) = swept now t := by
  simp only [swept, List.map_map]
  refine List.map_congr_left fun x _ => ?_
  simp only [Function.comp]
  by_cases h : x.exp ≠ 0#32 ∧ expired x.exp now
  · rw [if_pos h]; simp
  · rw [if_neg h, if_neg h]

/-! ### LOOKUP -/

theorem lookupTable_eq_none {cs : Half} {t : List Slot} : lookupTable cs t = none ↔ ∀ i, ¬ LiveAt t cs i := by
  simp only [lookupTable, List.findIdx?_eq_none_iff, LiveAt, Bool.and_eq_false_iff]
  constructor
  · rintro h i ⟨x, hx, h1, h2⟩
    have := h x (List.mem_of_getElem? hx)
    simp [h1, h2] at this
  · intro h x hx
    obtain ⟨i, hi⟩ := List.getElem?_of_mem hx
    by_contra hc
    simp at hc
    exact h i ⟨x, hi, hc.1, hc.2⟩

theorem lookupTable_eq_some {cs : Half} {t : List Slot} {i : Nat} :
    lookupTable cs t = some i ↔ LiveAt t cs i ∧ ∀ j, j < i → ¬ LiveAt t cs j := by
  simp only [lookupTable, List.findIdx?_eq_some_iff_getElem, LiveAt]
  constructor
  · rintro ⟨h, h1, h2⟩
    simp at h1
    refine ⟨⟨t[i], List.getElem?_eq_getElem h, h1.1, h1.2⟩, ?_⟩
    rintro j hj ⟨x, hx, h3, h4⟩
    have := h2 j hj
    obtain ⟨hj', rfl⟩ := List.getElem?_eq_some_iff.mp hx
    simp [h3, h4] at this
  · rintro ⟨⟨x, hx, h1, h2⟩, h3⟩
    obtain ⟨h, rfl⟩ := List.getElem?_eq_some_iff.mp hx
    refine ⟨h, by simp [h1, h2], fun j hj => ?_⟩
    intro hc
    simp at hc
    exact h3 j hj ⟨_, List.getElem?_eq_getElem (by omega), hc.1, hc.2⟩

/-! ### INSERT -/

/-- The oldest slot is the first with the least key (R184). -/
theorem oldestSlot_spec (now : Word) : ∀ t : List Slot, t ≠ [] → ∃ i k x, oldestSlot now t = some (i, k) ∧
    t[i]? = some x ∧ x.key now = k ∧ ∀ j y, t[j]? = some y → k ≤ y.key now ∧ (y.key now = k → i ≤ j) := by
  intro t
  induction t with
  | nil => intro h; exact absurd rfl h
  | cons a t ih =>
    intro _
    by_cases ht : t = []
    · subst ht
      refine ⟨0, a.key now, a, rfl, rfl, rfl, fun j y hy => ?_⟩
      cases j with
      | zero => simp at hy; subst hy; exact ⟨le_rfl, fun _ => le_rfl⟩
      | succ j => simp at hy
    · obtain ⟨i, k, x, h1, h2, h3, h4⟩ := ih ht
      by_cases hle : a.key now ≤ k
      · refine ⟨0, a.key now, a, by simp only [oldestSlot, h1, if_pos hle], rfl, rfl, fun j y hy => ?_⟩
        cases j with
        | zero => simp at hy; subst hy; exact ⟨le_rfl, fun _ => le_rfl⟩
        | succ j => exact ⟨le_trans hle (h4 j y (by simpa using hy)).1, fun _ => Nat.zero_le _⟩
      · refine ⟨i + 1, k, x, by simp only [oldestSlot, h1, if_neg hle], by simpa using h2, h3, fun j y hy => ?_⟩
        cases j with
        | zero => simp at hy; subst hy; exact ⟨by omega, fun h => absurd h (by omega)⟩
        | succ j =>
          have := h4 j y (by simpa using hy)
          exact ⟨this.1, fun h => by have := this.2 h; omega⟩

/-- INSERT has one slot to write in any table that has a slot (R184). -/
theorem insertIndex_spec (now : Word) (t : List Slot) (h : t ≠ []) :
    InsertsAt t now (insertIndex now t).1 (insertIndex now t).2 := by
  simp only [insertIndex]
  split
  · rename_i i hi
    rw [List.findIdx?_eq_some_iff_getElem] at hi
    obtain ⟨h1, h2, h3⟩ := hi
    refine .inl ⟨rfl, ⟨t[i], List.getElem?_eq_getElem h1, by simpa using h2⟩, fun j x hj hx => ?_⟩
    obtain ⟨hj', rfl⟩ := List.getElem?_eq_some_iff.mp hx
    simpa using h3 j hj
  · rename_i hi
    rw [List.findIdx?_eq_none_iff] at hi
    obtain ⟨i, k, x, h1, h2, h3, h4⟩ := oldestSlot_spec now t h
    refine .inr ⟨rfl, fun x hx => by simpa using hi x hx, x, ?_, ?_⟩
    · simpa [h1] using h2
    · intro j y hy
      have := h4 j y hy
      subst h3
      simpa [h1, Slot.key] using this

/-- INSERT's slot is determined (R184). -/
theorem insertIndex_eq {now : Word} {t : List Slot} {i : Nat} {ev : Bool} (h : InsertsAt t now i ev) :
    insertIndex now t = (i, ev) := by
  have ht : t ≠ [] := by
    rintro rfl
    rcases h with ⟨_, ⟨x, hx, _⟩, _⟩ | ⟨_, _, x, hx, _⟩ <;> simp at hx
  have g := insertIndex_spec now t ht
  generalize insertIndex now t = p at g
  obtain ⟨j, e⟩ := p
  rcases h with ⟨rfl, ⟨x, hx, hx0⟩, h2⟩ | ⟨rfl, h1, x, hx, h2⟩ <;>
    rcases g with ⟨ge, ⟨y, hy, hy0⟩, g2⟩ | ⟨ge, g1, y, hy, g2⟩ <;> simp only at ge hy g2 <;> subst ge
  · rcases Nat.lt_trichotomy i j with hl | hl | hl
    · exact absurd hx0 (g2 i x hl hx)
    · rw [hl]
    · exact absurd hy0 (h2 j y hl hy)
  · exact absurd hx0 (g1 x (List.mem_of_getElem? hx))
  · exact absurd hy0 (h1 y (List.mem_of_getElem? hy))
  · have a := h2 j y hy
    have b := g2 i x hx
    have hk : (y.exp - now).toInt = (x.exp - now).toInt := le_antisymm b.1 a.1
    have := a.2 hk
    have := b.2 hk.symm
    rw [show i = j by omega]

/-! ### CRC -/

/-- The linear step of CRC is injective in its state. -/
theorem crcByte_inj_left (b : Byte) : ∀ c d : Half, crcByte c b = crcByte d b → c = d := by
  have step : ∀ (p q : Half × Byte), p.2 = q.2 → (crcBit p).1 = (crcBit q).1 → p.1 = q.1 := by
    rintro ⟨c, b⟩ ⟨d, b'⟩ rfl h
    simp only [crcBit] at h
    ext i hi
    have e := fun j => congrArg (fun w : Half => w.getLsbD j) h
    have hc : c.getLsbD 0 = d.getLsbD 0 := by
      have e15 := e 15
      cases h1 : c.getLsbD 0 <;> cases h2 : d.getLsbD 0 <;> cases h3 : b.getLsbD 0 <;> rw [h1, h2, h3] at e15 <;>
        first
          | rfl
          | simp at e15
    rcases Nat.eq_zero_or_pos i with rfl | hp
    · simpa using hc
    · have := e (i - 1)
      rw [hc] at this
      split at this <;> simp [Nat.add_sub_cancel' hp] at this <;> simpa [hi] using this
  have snd : ∀ p q : Half × Byte, p.2 = q.2 → (crcBit p).2 = (crcBit q).2 := by
    rintro ⟨c, b⟩ ⟨d, b'⟩ rfl; rfl
  intro c d h
  simp only [crcByte] at h
  refine step (c, b) (d, b) rfl ?_
  refine step _ _ (snd _ _ rfl) ?_
  refine step _ _ (snd _ _ (snd _ _ rfl)) ?_
  refine step _ _ (snd _ _ (snd _ _ (snd _ _ rfl))) ?_
  refine step _ _ (snd _ _ (snd _ _ (snd _ _ (snd _ _ rfl)))) ?_
  refine step _ _ (snd _ _ (snd _ _ (snd _ _ (snd _ _ (snd _ _ rfl))))) ?_
  refine step _ _ (snd _ _ (snd _ _ (snd _ _ (snd _ _ (snd _ _ (snd _ _ rfl)))))) ?_
  refine step _ _ (snd _ _ (snd _ _ (snd _ _ (snd _ _ (snd _ _ (snd _ _ (snd _ _ rfl))))))) ?_
  exact h

/-- A byte enters the checksum by XOR into its low half. -/
theorem crcByte_xor (c : Half) (b : Byte) : crcByte c b = crcByte (c ^^^ b.zeroExtend 16) 0#8 := by
  have step : ∀ (c d : Half) (b : Byte), d = c ^^^ b.zeroExtend 16 →
      (crcBit (d, 0#8)).1 = (crcBit (c, b)).1 ^^^ (crcBit (c, b)).2.zeroExtend 16 ∧ (crcBit (d, 0#8)).2 = 0#8 := by
    rintro c d b rfl
    refine ⟨?_, by simp [crcBit]⟩
    have h0 : (c ^^^ b.zeroExtend 16).getLsbD 0 = (c.getLsbD 0 != b.getLsbD 0) := by simp
    have hsh : (c ^^^ b.zeroExtend 16) >>> 1 = (c >>> 1) ^^^ (b >>> 1).zeroExtend 16 := by
      ext i hi
      simp
    simp only [crcBit, h0, hsh]
    cases c.getLsbD 0 != b.getLsbD 0
    · simp
    · simp only [BitVec.getLsbD_zero, Bool.bne_false, if_true]
      ac_rfl
  have go : ∀ p q : Half × Byte, q.2 = 0#8 → q.1 = p.1 ^^^ p.2.zeroExtend 16 →
      (crcBit q).2 = 0#8 ∧ (crcBit q).1 = (crcBit p).1 ^^^ (crcBit p).2.zeroExtend 16 := by
    rintro ⟨c, b⟩ ⟨d, z⟩ hz h
    simp only at hz h
    subst hz
    exact ⟨(step c d b h).2, (step c d b h).1⟩
  have hb : ∀ p : Half × Byte, (crcBit p).2 = p.2 >>> 1 := fun _ => rfl
  have e := fun (p q : Half × Byte) (h : q.2 = 0#8 ∧ q.1 = p.1 ^^^ p.2.zeroExtend 16) => go p q h.1 h.2
  have h8 := e _ _ (e _ _ (e _ _ (e _ _ (e _ _ (e _ _ (e _ _ (e (c, b) (c ^^^ b.zeroExtend 16, 0#8) ⟨rfl, rfl⟩)))))))
  simp only [crcByte]
  rw [h8.2]
  have hz : b >>> 1 >>> 1 >>> 1 >>> 1 >>> 1 >>> 1 >>> 1 >>> 1 = 0#8 := by
    clear h8
    revert b
    decide
  simp only [hb, hz]
  simp

end Sys2Proof.Machine
end

