-- ==== Sys2Proof/Laws/Frame.lean ====
section
/-! SUPPORT. VALIDATE in the words of R150: when it answers a frame of `n` address fields, and when it answers which error. -/

namespace Sys2Proof.Machine

open Sys2Proof.Spec

variable (s : State)

theorem State.firstTerminal_eq_some {i : Nat} : s.firstTerminal s.flen.toNat = some i ↔ FirstTerminal s i := by
  simp only [State.firstTerminal, List.find?_range_eq_some, List.mem_range, FirstTerminal, Bool.not_eq_true']
  exact ⟨fun ⟨a, b, c⟩ => ⟨b, a, c⟩, fun ⟨a, b, c⟩ => ⟨b, a, c⟩⟩

theorem State.firstTerminal_eq_none :
    s.firstTerminal s.flen.toNat = none ↔ ∀ j, j < s.flen.toNat → (s.fb j).getLsbD 0 = false := by
  simp [State.firstTerminal]

theorem firstTerminal_unique {s : State} {i j : Nat} (hi : FirstTerminal s i) (hj : FirstTerminal s j) : i = j := by
  rcases Nat.lt_trichotomy i j with h | h | h
  · have := hj.2.2 i h; rw [hi.2.1] at this; cases this
  · exact h
  · have := hi.2.2 j h; rw [hj.2.1] at this; cases this

/-- VALIDATE accepts exactly the frames of R150. -/
theorem State.validate_eq_ok {n : Nat} : s.validate = .ok n ↔ FrameShape s n := by
  constructor
  · intro h
    simp only [State.validate] at h
    split at h
    · cases h
    · rename_i h1
      split at h
      · cases h
      · rename_i h2
        split at h
        · cases h
        · rename_i i hi
          rw [State.firstTerminal_eq_some] at hi
          split at h
          · cases h
          · rename_i h3
            split at h
            · cases h
            · rename_i h4
              split at h
              · cases h
              · rename_i h5
                split at h
                · cases h
                · rename_i h6
                  split at h
                  · cases h
                  · rename_i h7
                    cases h
                    simp only [Config.maxAddr, Config.minFrameLen] at h2 h5
                    have e : 7 * ((i + 1) / 7) - 1 = i := by omega
                    exact ⟨by omega, by omega, by rw [e]; exact hi, by omega, by omega, by omega, not_not.mp h7⟩
  · intro h
    have ht := h.terminal
    obtain ⟨h1, h2, h3, h4, h5, h6, h7⟩ := h
    have e1 : (7 * n - 1 + 1) / 7 = n := by omega
    have e2 : (7 * n - 1 + 1) % 7 = 0 := by omega
    simp only [State.validate, (State.firstTerminal_eq_some s).mpr ht, e1, e2, Config.maxAddr, Config.minFrameLen]
    rw [if_neg (by omega), if_neg (by omega), if_neg (by simp), if_neg (by omega), if_neg (by omega), if_neg (by omega),
      if_neg (by simp [h7])]

/-- VALIDATE's errors are exactly those of R150, in R150's order. -/
theorem State.validate_eq_error {e : FrameErr} : s.validate = .error e ↔ FrameError s e := by
  constructor
  · intro h
    simp only [State.validate] at h
    split at h
    · rename_i h1; cases h; exact h1
    · rename_i h1
      split at h
      · rename_i h2; cases h; exact ⟨by omega, Or.inl h2⟩
      · rename_i h2
        simp only [Config.minFrameLen] at h2
        split at h
        · rename_i hn
          cases h
          exact ⟨by omega, by omega, (State.firstTerminal_eq_none s).mp hn⟩
        · rename_i i hi
          rw [State.firstTerminal_eq_some] at hi
          split at h
          · rename_i h3; cases h; exact ⟨by omega, by omega, i, hi, h3⟩
          · rename_i h3
            have e7 : 7 * ((i + 1) / 7) - 1 = i := by omega
            split at h
            · rename_i h4
              cases h
              have : i = 6 := by omega
              subst this
              exact ⟨by omega, by omega, hi⟩
            · rename_i h4
              split at h
              · rename_i h5
                cases h
                simp only [Config.maxAddr] at h5
                exact ⟨by omega, by omega, (i + 1) / 7, by omega, by rw [e7]; exact hi⟩
              · rename_i h5
                simp only [Config.maxAddr] at h5
                split at h
                · rename_i h6
                  cases h
                  exact ⟨by omega, Or.inr ⟨(i + 1) / 7, by omega, by omega, by omega, by rw [e7]; exact hi, h6⟩⟩
                · rename_i h6
                  split at h
                  · rename_i h7
                    cases h
                    exact ⟨by omega, by omega, (i + 1) / 7, by omega, by omega, by rw [e7]; exact hi, by omega, h7⟩
                  · cases h
  · intro h
    cases e with
    | tooLong =>
      simp only [FrameError] at h
      simp only [State.validate]
      rw [if_pos h]
    | tooShort =>
      obtain ⟨h1, h2 | ⟨n, h3, h4, h5, h6, h7⟩⟩ := h
      · simp only [State.validate, Config.minFrameLen]
        rw [if_neg (by omega), if_pos h2]
      · have e1 : (7 * n - 1 + 1) / 7 = n := by omega
        have e2 : (7 * n - 1 + 1) % 7 = 0 := by omega
        simp only [State.validate, (State.firstTerminal_eq_some s).mpr h6, e1, e2, Config.maxAddr, Config.minFrameLen]
        rw [if_neg (by omega), if_neg (by omega), if_neg (by simp), if_neg (by omega), if_neg (by omega), if_pos h7]
    | noTerminal =>
      obtain ⟨h1, h2, h3⟩ := h
      simp only [State.validate, (State.firstTerminal_eq_none s).mpr h3, Config.minFrameLen]
      rw [if_neg (by omega), if_neg (by omega)]
    | misaligned =>
      obtain ⟨h1, h2, i, h3, h4⟩ := h
      simp only [State.validate, (State.firstTerminal_eq_some s).mpr h3, Config.minFrameLen]
      rw [if_neg (by omega), if_neg (by omega), if_pos h4]
    | tooFewAddr =>
      obtain ⟨h1, h2, h3⟩ := h
      simp only [State.validate, (State.firstTerminal_eq_some s).mpr h3, Config.minFrameLen]
      rw [if_neg (by omega), if_neg (by omega), if_neg (by omega), if_pos (by omega)]
    | tooManyAddr =>
      obtain ⟨h1, h2, n, h3, h4⟩ := h
      have e1 : (7 * n - 1 + 1) / 7 = n := by omega
      have e2 : (7 * n - 1 + 1) % 7 = 0 := by omega
      simp only [State.validate, (State.firstTerminal_eq_some s).mpr h4, e1, e2, Config.maxAddr, Config.minFrameLen]
      rw [if_neg (by omega), if_neg (by omega), if_neg (by simp), if_neg (by omega), if_pos h3]
    | notUi =>
      obtain ⟨h1, h2, n, h3, h4, h5, h6, h7⟩ := h
      have e1 : (7 * n - 1 + 1) / 7 = n := by omega
      have e2 : (7 * n - 1 + 1) % 7 = 0 := by omega
      simp only [State.validate, (State.firstTerminal_eq_some s).mpr h5, e1, e2, Config.maxAddr, Config.minFrameLen]
      rw [if_neg (by omega), if_neg (by omega), if_neg (by simp), if_neg (by omega), if_neg (by omega), if_neg (by omega),
        if_pos h7]

/-- VALIDATE reads FLEN, MAX_FRAME_LEN and the bytes of FB[0 .. FLEN) alone. -/
theorem State.validate_congr {s t : State} (hp : s.params = t.params) (hf : s.flen = t.flen)
    (hb : ∀ j, j < s.flen.toNat → s.fb j = t.fb j) : s.validate = t.validate := by
  have hF : ∀ i, FirstTerminal s i ↔ FirstTerminal t i := fun i => by
    simp only [FirstTerminal, ← hf]
    constructor
    · rintro ⟨a, b, c⟩
      exact ⟨a, by rw [← hb i a]; exact b, fun j hj => by rw [← hb j (by omega)]; exact c j hj⟩
    · rintro ⟨a, b, c⟩
      exact ⟨a, by rw [hb i a]; exact b, fun j hj => by rw [hb j (by omega)]; exact c j hj⟩
  cases h : t.validate with
  | ok n =>
    rw [State.validate_eq_ok] at h ⊢
    obtain ⟨h1, h2, h3, h4, h5, h6, h7⟩ := h
    exact ⟨by rw [hp, hf]; exact h1, by rw [hf]; exact h2, (hF _).mpr h3, h4, h5, by rw [hf]; exact h6, by
      rw [hb _ (by rw [hf]; omega)]; exact h7⟩
  | error e =>
    rw [State.validate_eq_error] at h ⊢
    have hall : (∀ j, j < t.flen.toNat → (t.fb j).getLsbD 0 = false) →
        ∀ j, j < s.flen.toNat → (s.fb j).getLsbD 0 = false := fun hh j hj => by
      rw [hb j hj]; exact hh j (by rw [← hf]; exact hj)
    cases e <;> simp only [FrameError, hp, hf, hF] at h ⊢
    · exact h
    · exact ⟨h.1, h.2.1, by simpa [hf] using hall h.2.2⟩
    · exact h
    · exact h
    · exact h
    · obtain ⟨h1, h2, n, h3, h4, h5, h6, h7⟩ := h
      exact ⟨h1, h2, n, h3, h4, h5, h6, by rw [hb _ (by rw [hf]; omega)]; exact h7⟩
    · exact h

end Sys2Proof.Machine
end

