-- ==== Sys2Proof/Laws/Text.lean ====
section
/-! SUPPORT. The codec between frame and text: what the path loop reads, where its frame's bytes lie, and what header the frame
gets. -/

namespace Sys2Proof.Machine

open Sys2Proof.Spec

/-! ### Header -/

/-- HDR_INFO and PAY_LEN of a frame of `n` address fields that is at least as long as its header. -/
theorem State.setHeader_eq (s : State) (n : Nat) (h : 7 * n + 2 ≤ s.flen.toNat) :
    s.setHeader n (payIdxOf n) = described s n := by
  have : s.flen - BitVec.ofNat 16 (7 * n + 2) = BitVec.ofNat 16 (s.flen.toNat - (7 * n + 2)) := by
    have hl := s.flen.isLt
    apply BitVec.eq_of_toNat_eq
    rw [BitVec.toNat_sub_of_le (by rw [BitVec.le_def, BitVec.toNat_ofNat, Nat.mod_eq_of_lt (by omega)]; exact h),
      BitVec.toNat_ofNat, BitVec.toNat_ofNat, Nat.mod_eq_of_lt (by omega), Nat.mod_eq_of_lt (by omega)]
  simp only [State.setHeader, payIdxOf, this, described]

/-! ### The path loop (R154) -/

theorem pathLoop_skip (q : BitVec 2) (as : List Addr) {u : List Byte} (r : List Byte) (h1 : 0x2C#8 ∉ u) (h2 : 0x3A#8 ∉ u) :
    pathLoop q as (u ++ r) = pathLoop q as r := by
  induction u with
  | nil => rfl
  | cons c u ih =>
    simp only [List.mem_cons, not_or] at h1 h2
    simp only [List.cons_append, pathLoop]
    rw [if_neg (Ne.symm h2.1), if_neg (Ne.symm h1.1), ih h1.2 h2.2]

theorem encodeCall_stop (q : BitVec 2) (t rest : List Byte) {x : Byte} (hx : x = 0x2C#8 ∨ x = 0x3A#8 ∨ x = 0x3E#8) :
    (encodeCall q (t ++ x :: rest)).1 = (encodeCall q t).1 := by
  rcases hx with rfl | rfl | rfl <;> exact encodeCall_append q t rest _ (by decide) (by decide) (by decide)

/-- The path loop on path entries and a payload: each comma's entry is encoded, up to ten addresses. -/
theorem pathLoop_ok (q : BitVec 2) (payload : List Byte) : ∀ (path : List (List Byte)) (as : List Addr),
    (∀ p ∈ path, 0x2C#8 ∉ p ∧ 0x3A#8 ∉ p) → as.length + path.length ≤ 10 →
    pathLoop q as (path.flatMap (fun p => 0x2C#8 :: p) ++ 0x3A#8 :: payload) =
      .ok (as ++ path.map (fun p => (encodeCall q p).1), payload) := by
  intro path
  induction path with
  | nil => intro as _ _; simp [pathLoop]
  | cons p path ih =>
    intro as hp hl
    simp only [List.length_cons] at hl
    have hstop : (encodeCall q (p ++ (path.flatMap (fun p => 0x2C#8 :: p) ++ 0x3A#8 :: payload))).1 = (encodeCall q p).1 := by
      cases path with
      | nil => exact encodeCall_stop q p payload (.inr (.inl rfl))
      | cons p' path => exact encodeCall_stop q p _ (.inl rfl)
    have hm := hp p (by simp)
    simp only [List.flatMap_cons, List.cons_append, List.append_assoc, pathLoop, Config.maxAddr]
    rw [if_neg (by decide), if_pos trivial, if_neg (by omega), hstop, pathLoop_skip q _ _ hm.1 hm.2,
      ih _ (fun p' h' => hp p' (by simp [h'])) (by simp; omega)]
    simp

/-- No `:` before the end. -/
theorem pathLoop_noColon (q : BitVec 2) : ∀ (r : List Byte) (as : List Addr), 0x3A#8 ∉ r →
    as.length + r.count 0x2C#8 ≤ 10 → pathLoop q as r = .error .encNoColon := by
  intro r
  induction r with
  | nil => intros; rfl
  | cons c r ih =>
    intro as h1 h2
    simp only [List.mem_cons, not_or] at h1
    simp only [pathLoop, Config.maxAddr]
    rw [if_neg (Ne.symm h1.1)]
    by_cases hc : c = 0x2C#8
    · subst hc
      rw [List.count_cons_self] at h2
      rw [if_pos rfl, if_neg (by omega), ih _ h1.2 (by simp; omega)]
    · rw [if_neg hc, ih _ h1.2 (by rw [List.count_cons_of_ne (by simpa using hc)] at h2; exact h2)]

/-- One comma too many. -/
theorem pathLoop_tooMany (q : BitVec 2) (r2 : List Byte) : ∀ (r1 : List Byte) (as : List Addr), 0x3A#8 ∉ r1 →
    as.length + r1.count 0x2C#8 = 10 → pathLoop q as (r1 ++ 0x2C#8 :: r2) = .error .encTooManyPath := by
  intro r1
  induction r1 with
  | nil =>
    intro as _ h
    simp only [List.nil_append, pathLoop, Config.maxAddr]
    rw [if_neg (by decide), if_pos trivial, if_pos (by simpa using h)]
  | cons c r ih =>
    intro as h1 h2
    simp only [List.mem_cons, not_or] at h1
    simp only [List.cons_append, pathLoop, Config.maxAddr]
    rw [if_neg (Ne.symm h1.1)]
    by_cases hc : c = 0x2C#8
    · subst hc
      rw [List.count_cons_self] at h2
      rw [if_pos rfl, if_neg (by omega), ih _ h1.2 (by simp; omega)]
    · rw [if_neg hc, ih _ h1.2 (by rw [List.count_cons_of_ne (by simpa using hc)] at h2; exact h2)]

/-- Whatever the path loop accepts, it has at most ten addresses: the ones it was given, then encoded ones. -/
theorem pathLoop_shape {q : BitVec 2} {pay : List Byte} : ∀ {r : List Byte} {as bs : List Addr}, as.length ≤ 10 →
    pathLoop q as r = .ok (bs, pay) →
    as.length ≤ bs.length ∧ bs.length ≤ 10 ∧ ∀ A ∈ bs, A ∈ as ∨ ∃ t, A = (encodeCall q t).1 := by
  intro r
  induction r with
  | nil => intro as bs _ h; cases h
  | cons c r ih =>
    intro as bs hl h
    simp only [pathLoop, Config.maxAddr] at h
    split at h
    · cases h
      exact ⟨le_rfl, hl, fun A hA => .inl hA⟩
    · split at h
      · split at h
        · cases h
        · obtain ⟨h1, h2, h3⟩ := ih (by simp; omega) h
          simp only [List.length_append, List.length_cons, List.length_nil] at h1
          refine ⟨by omega, h2, fun A hA => ?_⟩
          rcases h3 A hA with h | h
          · rcases List.mem_append.mp h with h | h
            · exact .inl h
            · exact .inr ⟨r, by simpa using h⟩
          · exact .inr h
      · exact ih hl h

/-! ### Where the frame's bytes lie -/

@[simp] theorem length_bytes (A : Addr) : A.bytes.length = 7 := rfl

theorem length_flatten_bytes (as : List Addr) : ((as.map Addr.bytes).flatten).length = 7 * as.length := by
  induction as with
  | nil => rfl
  | cons A as ih => simp [ih]; omega

theorem getD_flatten_bytes : ∀ (as : List Addr) (rest : List Byte) (k j : Nat) (A : Addr), as[k]? = some A → j < 7 →
    ((as.map Addr.bytes).flatten ++ rest).getD (7 * k + j) 0#8 = A.bytes.getD j 0#8 := by
  intro as
  induction as with
  | nil => intro rest k j A h; simp at h
  | cons B as ih =>
    intro rest k j A h hj
    simp only [List.map_cons, List.flatten_cons, List.append_assoc]
    cases k with
    | zero =>
      simp only [List.getElem?_cons_zero, Option.some.injEq] at h
      subst h
      rw [Nat.mul_zero, Nat.zero_add, List.getD_append _ _ _ _ (by simpa using hj)]
    | succ k =>
      simp only [List.getElem?_cons_succ] at h
      rw [List.getD_append_right _ _ _ _ (by simp; omega), length_bytes,
        show 7 * (k + 1) + j - 7 = 7 * k + j by omega]
      exact ih rest k j A h hj

@[simp] theorem length_markLast : ∀ as : List Addr, (markLast as).length = as.length
  | [] => rfl
  | [_] => rfl
  | _ :: B :: rest => by simp [markLast, length_markLast (B :: rest)]

/-- Only the last address gets its E bit set. -/
theorem getElem?_markLast : ∀ (as : List Addr) (k : Nat),
    (markLast as)[k]? = as[k]?.map fun A => if k + 1 = as.length then { A with sb := setE A.sb } else A
  | [], k => by simp [markLast]
  | [A], k => by cases k <;> simp [markLast]
  | A :: B :: rest, k => by
    cases k with
    | zero => simp [markLast]
    | succ k =>
      simp only [markLast, List.getElem?_cons_succ, getElem?_markLast (B :: rest) k, List.length_cons]
      congr 1
      funext A
      simp

/-- The address field of a frame whose bytes begin with the fields `as`. -/
theorem State.field_of_bytes {s : State} {as : List Addr} {rest : List Byte} {k : Nat} {A : Addr}
    (hb : ∀ j, j < 7 * as.length → s.fb j = ((as.map Addr.bytes).flatten ++ rest).getD j 0#8) (hA : as[k]? = some A) :
    s.field k = A := by
  have hk : k < as.length := (List.getElem?_eq_some_iff.mp hA).1
  have h : ∀ j, j < 7 → s.fb (7 * k + j) = A.bytes.getD j 0#8 := fun j hj => by
    rw [hb _ (by omega), getD_flatten_bytes as rest k j A hA hj]
  have h0 := h 0 (by omega)
  rw [Nat.add_zero] at h0
  simp only [State.field, h0, h 1 (by omega), h 2 (by omega), h 3 (by omega), h 4 (by omega), h 5 (by omega), h 6 (by omega)]
  rfl

/-- The bytes of a frame: the marked fields, control, PID and payload (R154). -/
def frameBytes (as : List Addr) (pay : List Byte) : List Byte :=
  ((markLast as).map Addr.bytes).flatten ++ [0x03#8, 0xF0#8] ++ pay

theorem length_frameBytes (as : List Addr) (pay : List Byte) :
    (frameBytes as pay).length = 7 * as.length + 2 + pay.length := by
  simp only [frameBytes, List.length_append, length_flatten_bytes, length_markLast, List.length_cons, List.length_nil]

/-- T2F on text that has a `>` and whose path loop ends (R154). -/
theorem frameOfText_eq (q : BitVec 2) (m : Nat) (src r : List Byte) (h : 0x3E#8 ∉ src) :
    frameOfText q m (src ++ 0x3E#8 :: r) =
      match pathLoop q [{ (encodeCall q r).1 with sb := clearH (encodeCall q r).1.sb },
          { (encodeCall q src).1 with sb := clearH (encodeCall q src).1.sb }] r with
      | .error e => .error e
      | .ok (as, pay) =>
        if m < (frameBytes as pay).length then .error .encFrameOverflow else .ok (as.length, frameBytes as pay) := by
  have hi : (src ++ 0x3E#8 :: r).findIdx? (· == 0x3E#8) = some src.length := by
    rw [List.findIdx?_append, List.findIdx?_eq_none_iff.mpr (by
      intro x hx
      simp only [beq_eq_false_iff_ne, ne_eq]
      rintro rfl
      exact h hx)]
    simp [List.findIdx?_cons]
  have hd : (src ++ 0x3E#8 :: r).drop (src.length + 1) = r := by
    rw [← List.drop_drop, List.drop_left]; rfl
  simp only [frameOfText, hi, hd, encodeCall_stop q src r (.inr (.inr rfl))]
  rfl

/-- The bytes of FBUF after a frame is written, one by one. -/
theorem State.frame_written (s : State) (as : List Addr) (pay : List Byte) :
    (∀ k A, as[k]? = some A → (s.setFb 0 (frameBytes as pay)).field k =
      if k + 1 = as.length then { A with sb := setE A.sb } else A) ∧
    (s.setFb 0 (frameBytes as pay)).fb (7 * as.length) = 0x03#8 ∧
    (s.setFb 0 (frameBytes as pay)).fb (7 * as.length + 1) = 0xF0#8 ∧
    (s.setFb 0 (frameBytes as pay)).fbs (7 * as.length + 2) pay.length = pay ∧
    ∀ j, 7 * as.length + 2 + pay.length ≤ j → (s.setFb 0 (frameBytes as pay)).fb j = s.fb j := by
  have hl := length_frameBytes as pay
  have hin : ∀ j, j < 7 * as.length + 2 + pay.length →
      (s.setFb 0 (frameBytes as pay)).fb j = (frameBytes as pay).getD j 0#8 := fun j hj => by
    rw [State.fb_setFb, if_neg (by omega)]; simp
  have hm : ((markLast as).map Addr.bytes).flatten.length = 7 * as.length := by
    rw [length_flatten_bytes, length_markLast]
  refine ⟨fun k A hA => ?_, ?_, ?_, ?_, fun j hj => ?_⟩
  · apply State.field_of_bytes (as := markLast as) (rest := [0x03#8, 0xF0#8] ++ pay)
    · intro j hj
      rw [length_markLast] at hj
      rw [hin j (by omega), frameBytes, List.append_assoc]
    · rw [getElem?_markLast, hA]; rfl
  · rw [hin _ (by omega), frameBytes, List.append_assoc, List.getD_append_right _ _ _ _ (by omega), hm, Nat.sub_self]; rfl
  · rw [hin _ (by omega), frameBytes, List.append_assoc, List.getD_append_right _ _ _ _ (by omega), hm,
      Nat.add_sub_cancel_left]; rfl
  · apply List.ext_getElem?
    intro j
    rw [State.getElem?_fbs]
    by_cases h : j < pay.length
    · rw [if_pos h, hin _ (by omega), frameBytes, List.getD_append_right _ _ _ _ (by simp [hm])]
      rw [List.getElem?_eq_getElem h]
      simp only [List.length_append, hm, List.length_cons, List.length_nil]
      rw [show 7 * as.length + 2 + j - (7 * as.length + (0 + 1 + 1)) = j by omega, List.getD_eq_getElem _ _ h]
    · rw [if_neg h, List.getElem?_eq_none (by omega)]
  · rw [State.fb_setFb, if_pos (by omega)]

/-! ### Bytes of a completed or described state -/

@[simp] theorem completed_fb (s : State) (j : Nat) : (completed s).fb j = s.fb j := rfl

@[simp] theorem completed_tb (s : State) (j : Nat) : (completed s).tb j = s.tb j := rfl

@[simp] theorem completed_field (s : State) (k : Nat) : (completed s).field k = s.field k := rfl

@[simp] theorem described_fb (s : State) (n j : Nat) : (described s n).fb j = s.fb j := rfl

@[simp] theorem described_tb (s : State) (n j : Nat) : (described s n).tb j = s.tb j := rfl

@[simp] theorem described_field (s : State) (n k : Nat) : (described s n).field k = s.field k := rfl

/-! ### Monitor text -/

theorem length_pathText_le (s : State) (k : Nat) : (s.pathText k).length ≤ 11 := by
  have := length_decodeCall_le (s.field k)
  simp only [State.pathText, List.length_cons, List.length_append]
  split <;> simp <;> omega

/-- The monitor text of a valid frame fits in TBUF in every legal build, so FRAME_TO_TEXT cannot overflow. -/
theorem length_monitorText_le {s : State} {n : Nat} (hs : FrameShape s n) (hp : s.params.wf = true) :
    (s.monitorText n).length ≤ 512 := by
  have h0 := length_decodeCall_le (s.field 0)
  have h1 := length_decodeCall_le (s.field 1)
  have hf : (((List.range (n - 2)).map fun j => s.pathText (j + 2)).flatten).length ≤ 11 * (n - 2) := by
    generalize n - 2 = m
    induction m with
    | zero => simp
    | succ m ih =>
      rw [List.range_succ, List.map_append, List.flatten_append, List.length_append]
      have := length_pathText_le s (m + 2)
      simp at ih ⊢
      omega
  have := hs.notLong
  have := hs.maxAddr
  have := hs.minAddr
  simp [Config.Params.wf] at hp
  simp only [State.monitorText, List.length_append, List.length_cons, State.payload, State.length_fbs, payIdxOf]
  omega

/-- Monitor text reads the bytes of the frame alone. -/
theorem State.field_congr {s t : State} {k : Nat} (h : ∀ j, j < 7 → s.fb (7 * k + j) = t.fb (7 * k + j)) :
    s.field k = t.field k := by
  have h0 := h 0 (by omega)
  rw [Nat.add_zero] at h0
  simp only [State.field, h0, h 1 (by omega), h 2 (by omega), h 3 (by omega), h 4 (by omega), h 5 (by omega), h 6 (by omega)]

end Sys2Proof.Machine
end

