-- ==== Sys2Proof/Laws/Digipeat.lean ====
section
/-! SUPPORT. The digipeat rules in the words of R213 to R231: every byte a path mutation leaves, and what each test of the rule
engine says. -/

namespace Sys2Proof.Machine

open Sys2Proof.Spec

/-! ### Bytes -/

theorem nodeSsidByte_eq (node : Addr) (e : Bool) : nodeSsidByte node e = nodeSsid node e := by
  simp only [nodeSsidByte, nodeSsid]
  generalize node.sb = b
  revert b e
  decide

/-- The bytes of the node's path entry. -/
theorem getD_nodeEntry (node : Addr) (e : Bool) (j : Nat) (hj : j < 7) :
    (nodeEntry node e).bytes.getD j 0#8 = if j < 6 then node.call.getD j 0#8 else nodeSsid node e := by
  rw [← nodeSsidByte_eq]
  interval_cases j <;> rfl

/-- OVERWRITE_NODE(k) on every byte (R231). -/
theorem State.fb_overwriteNode (s : State) (k j : Nat) : (s.overwriteNode k).fb j = overwrittenByte s k j := by
  rw [State.overwriteNode, State.fb_setFb, length_bytes, overwrittenByte]
  by_cases h1 : j < 7 * k
  · rw [if_pos (show j < 7 * k ∨ 7 * k + 7 ≤ j by omega), if_pos h1]
  · rw [if_neg h1]
    by_cases h2 : 7 * k + 7 ≤ j
    · rw [if_pos (show j < 7 * k ∨ 7 * k + 7 ≤ j by omega), if_neg (show ¬ j < 7 * k + 6 by omega),
        if_neg (show ¬ j = 7 * k + 6 by omega)]
    · rw [if_neg (show ¬ (j < 7 * k ∨ 7 * k + 7 ≤ j) by omega), getD_nodeEntry _ _ _ (by omega)]
      by_cases h3 : j < 7 * k + 6
      · rw [if_pos h3, if_pos (by omega)]
      · rw [if_neg h3, if_neg (show ¬ j - 7 * k < 6 by omega), if_pos (by omega)]
        rfl

/-- INSERT_NODE(K) on every byte (R224). -/
theorem State.fb_insertNode (s : State) {k : Nat} (hk : 1 ≤ k) (h : 7 * k ≤ s.flen.toNat) (j : Nat) :
    (s.insertNode k).fb j = insertedByte s k j := by
  have e : (s.insertNode k).fb j =
      (((s.setFb (7 * k - 1) [clearE (s.fb (7 * k - 1))]).setFb (7 * k + 7)
        (s.fbs (7 * k) (s.flen.toNat - 7 * k))).setFb (7 * k)
          (nodeEntry s.node ((s.fb (7 * k - 1)).getLsbD 0)).bytes).fb j := rfl
  rw [e, State.fb_setFb, length_bytes, insertedByte]
  by_cases h1 : 7 * k ≤ j ∧ j < 7 * k + 7
  · rw [if_neg (show ¬ (j < 7 * k ∨ 7 * k + 7 ≤ j) by omega), getD_nodeEntry _ _ _ (by omega),
      if_neg (show ¬ j = 7 * k - 1 by omega), if_neg (show ¬ j < 7 * k by omega)]
    by_cases h2 : j < 7 * k + 6
    · rw [if_pos (show j - 7 * k < 6 by omega), if_pos h2]
    · rw [if_neg (show ¬ j - 7 * k < 6 by omega), if_neg h2, if_pos (by omega)]
  · rw [if_pos (show j < 7 * k ∨ 7 * k + 7 ≤ j by omega), State.fb_setFb, State.length_fbs]
    by_cases h2 : 7 * k + 7 ≤ j ∧ j < s.flen.toNat + 7
    · rw [if_neg (show ¬ (j < 7 * k + 7 ∨ 7 * k + 7 + (s.flen.toNat - 7 * k) ≤ j) by omega),
        State.getD_fbs _ (by omega), if_neg (show ¬ j = 7 * k - 1 by omega), if_neg (show ¬ j < 7 * k by omega),
        if_neg (show ¬ j < 7 * k + 6 by omega), if_neg (show ¬ j = 7 * k + 6 by omega), if_pos h2.2]
      congr 1
      omega
    · rw [if_pos (show j < 7 * k + 7 ∨ 7 * k + 7 + (s.flen.toNat - 7 * k) ≤ j by omega), State.fb_setFb,
        List.length_singleton]
      by_cases h3 : j = 7 * k - 1
      · rw [if_neg (show ¬ (j < 7 * k - 1 ∨ 7 * k - 1 + 1 ≤ j) by omega), if_pos h3, h3, Nat.sub_self]
        rfl
      · rw [if_pos (show j < 7 * k - 1 ∨ 7 * k - 1 + 1 ≤ j by omega), if_neg h3]
        by_cases h4 : j < 7 * k
        · rw [if_pos h4]
        · rw [if_neg h4, if_neg (show ¬ j < 7 * k + 6 by omega), if_neg (show ¬ j = 7 * k + 6 by omega),
            if_neg (show ¬ j < s.flen.toNat + 7 by omega)]

theorem State.fb_setSsid (s : State) (k : Nat) (n : BitVec 4) (j : Nat) :
    (s.setSsid k n).fb j = if j = 7 * k + 6 then withSsid (s.fb (7 * k + 6)) n else s.fb j := by
  simp only [State.setSsid, State.fb_setFb, List.length_singleton]
  by_cases h : j = 7 * k + 6
  · subst h; simp
  · rw [if_neg h, if_pos (by omega)]

/-- Decrementing an SSID that is not 0 takes 2 off its byte (R225, R229). -/
theorem withSsid_pred : ∀ b : Byte, b.extractLsb' 1 4 ≠ 0#4 → withSsid b (b.extractLsb' 1 4 - 1#4) = b - 2#8 := by decide

/-- Only the SSID changes. -/
theorem withSsid_bits : ∀ (b : Byte) (n : BitVec 4), (withSsid b n).getLsbD 0 = b.getLsbD 0 ∧
    (withSsid b n).getLsbD 7 = b.getLsbD 7 := by decide

/-- Every byte after an SSID that is not 0 was decremented (R225, R229). -/
theorem State.fb_setSsid_pred {s u : State} {k : Nat} (hu : ∀ j, u.fb j = s.fb j) (h0 : (s.field k).ssid ≠ 0#4) (j : Nat) :
    (u.setSsid k ((s.field k).ssid - 1#4)).fb j = if j = 7 * k + 6 then s.fb (7 * k + 6) - 2#8 else s.fb j := by
  rw [State.fb_setSsid, hu, hu]
  split
  · exact withSsid_pred _ h0
  · rfl

/-! ### Room, insertion point, candidate -/

theorem State.noRoom_eq_none {s : State} {n : Nat} (hn : n ≤ 10) : s.noRoom n = none ↔ HasRoom s n := by
  simp only [State.noRoom, HasRoom, Config.maxPath]
  split
  · simp; omega
  · split
    · simp; omega
    · simp; omega

theorem State.noRoom_eq_some {s : State} {n : Nat} (e : RoomErr) : s.noRoom n = some e ↔
    (n - 2 = 8 ∧ e = .pathFull) ∨ (n - 2 ≠ 8 ∧ s.params.maxFrameLen < s.flen.toNat + 7 ∧ e = .frameOverflow) := by
  simp only [State.noRoom, Config.maxPath]
  split
  · rename_i h
    cases e <;> simp [h]
  · rename_i h
    split
    · rename_i h2
      cases e <;> simp [h, h2]
    · rename_i h2
      cases e <;> simp [h, h2]

/-- The entries of a valid frame: all but the last have E = 0 (R99, R104). -/
theorem frameShape_lastOnly {s : State} {n : Nat} (h : FrameShape s n) : LastOnly s n := by
  intro k hk
  have hn := h.minAddr
  by_cases hl : k = n - 1
  · subst hl
    have e : 7 * (n - 1) + 6 = 7 * n - 1 := by omega
    simp only [Addr.e, State.field, e]
    simpa using h.terminal.2.1
  · simp only [Addr.e, State.field]
    simpa [hl] using h.terminal.2.2 (7 * k + 6) (by omega)

/-- The bytes of a valid frame's address fields but the last SSID byte have bit 0 clear. -/
theorem frameShape_bit0 {s : State} {n j : Nat} (h : FrameShape s n) (hj : j < 7 * n - 1) : (s.fb j).getLsbD 0 = false :=
  h.terminal.2.2 j hj

/-- The callsign bytes of a valid frame's fields are shifted characters. -/
theorem field_bit0 {s : State} {n k : Nat} (h : FrameShape s n) (hk : k < n) :
    ∀ c ∈ (s.field k).call, c.getLsbD 0 = false := by
  intro c hc
  simp [Addr.call, State.field] at hc
  rcases hc with rfl | rfl | rfl | rfl | rfl | rfl <;> exact frameShape_bit0 h (by omega)

/-- The walk of step 6 (R223) from an entry whose predecessors all have H = 1. -/
theorem State.insertionPoint_spec {s : State} {n : Nat} (hL : LastOnly s n) : ∀ (fuel k : Nat), 2 ≤ k → k ≤ n →
    n ≤ k + fuel → (∀ j, 2 ≤ j → j < k → (s.field j).h = true) → InsertionPoint s n (s.insertionPoint fuel k) := by
  intro fuel
  induction fuel with
  | zero =>
    intro k h1 h2 h3 h4
    exact ⟨h1, h2, h4, fun h => by simp only [State.insertionPoint] at h ⊢; omega⟩
  | succ fuel ih =>
    intro k h1 h2 h3 h4
    simp only [State.insertionPoint]
    have hE := hL (k - 1) (by omega)
    by_cases hk : k = n
    · rw [hE, show decide (k - 1 = n - 1) = true by simp; omega]
      simp only [Bool.not_true, Bool.false_and, Bool.false_eq_true, if_false]
      exact ⟨h1, h2, h4, fun h => by omega⟩
    · rw [hE, show decide (k - 1 = n - 1) = false by simp; omega]
      simp only [Bool.not_false, Bool.true_and]
      cases hh : (s.field k).h
      · simp only [Bool.false_eq_true, if_false]
        exact ⟨h1, h2, h4, fun _ => hh⟩
      · simp only [if_true]
        refine ih (k + 1) (by omega) (by omega) (by omega) fun j h5 h6 => ?_
        by_cases hj : j = k
        · subst hj; exact hh
        · exact h4 j h5 (by omega)

theorem insertionPoint_unique {s : State} {n k l : Nat} (hk : InsertionPoint s n k) (hl : InsertionPoint s n l) : k = l := by
  obtain ⟨a1, a2, a3, a4⟩ := hk
  obtain ⟨b1, b2, b3, b4⟩ := hl
  rcases Nat.lt_trichotomy k l with h | h | h
  · have := b3 k a1 h
    rw [a4 (by omega)] at this
    cases this
  · exact h
  · have := a3 l b1 h
    rw [b4 (by omega)] at this
    cases this

theorem State.candidate_eq_some {s : State} {n k : Nat} : s.candidate n = some k ↔ Candidate s n k := by
  simp only [State.candidate, List.find?_range'_eq_some, Candidate, List.mem_range'_1]
  constructor
  · rintro ⟨h1, h2, h3⟩
    refine ⟨h2.1, by omega, by simpa using h1, fun j h4 h5 => ?_⟩
    have := h3 j h4 h5
    simpa using this
  · rintro ⟨h1, h2, h3, h4⟩
    refine ⟨by simp [h3], ⟨h1, by omega⟩, fun j h5 h6 => ?_⟩
    simp [h4 j h5 h6]

theorem State.candidate_eq_none {s : State} {n : Nat} :
    s.candidate n = none ↔ ∀ k, 2 ≤ k → k < n → (s.field k).h = true := by
  simp only [State.candidate, List.find?_eq_none, List.mem_range'_1]
  constructor
  · intro h k h1 h2
    simpa using h k ⟨h1, by omega⟩
  · intro h k hk
    simp [h k hk.1 (by omega)]

/-! ### The tests -/

theorem State.isSelf_eq_false {s : State} : s.isSelf = false ↔ NotSelf s := by
  simp only [State.isSelf, NotSelf, Bool.and_eq_false_iff, beq_eq_false_iff_ne, ne_eq]
  tauto

theorem messagePrefix_eq (node : Addr) : messagePrefix node = msgPfx node := by
  simp [messagePrefix, msgPfx, pad9]

theorem length_msgPfx (node : Addr) : (msgPfx node).length = 11 := by
  have := length_decodeCall_le node
  simp only [msgPfx, List.length_append, List.length_replicate, List.length_cons, List.length_nil]
  omega

theorem startsWith_iff (t p : List Byte) : startsWith t p = true ↔ p <+: t := by
  rw [startsWith, beq_iff_eq, List.prefix_iff_eq_take, eq_comm]

theorem startsWith_query (t : List Byte) : startsWith t beaconPattern = isQuery t := by
  rw [Bool.eq_iff_iff, startsWith_iff]
  simp [isQuery, beaconPattern]

theorem State.payload_eq (s : State) (n : Nat) : s.payload (payIdxOf n) = payloadOf s n := rfl

/-- WIDE match on an address whose callsign bytes are shifted characters (R228). -/
theorem wideMatch_iff (wmax : BitVec 4) (A : Addr) (h : ∀ c ∈ A.call, c.getLsbD 0 = false) :
    wideMatch wmax A = true ↔ ∃ w, IsWide wmax A w := by
  have h4 : A.c4.getLsbD 0 = false := h A.c4 (by simp [Addr.call])
  have hs : ∀ c : Byte, c.getLsbD 0 = false → c.toNat = 2 * (c >>> 1).toNat := by decide
  have hc4 := hs _ h4
  simp only [wideMatch, IsWide, Addr.call, Bool.and_eq_true, beq_iff_eq, decide_eq_true_eq, isDigit, List.cons.injEq,
    and_true]
  constructor
  · rintro ⟨⟨⟨⟨⟨⟨⟨⟨⟨⟨a0, a1⟩, a2⟩, a3⟩, a4⟩, a5⟩, a6⟩, a7⟩, a8⟩, a9⟩, a10⟩
    refine ⟨(A.c4 >>> 1).toNat - 0x30, by omega, by omega, by omega, ⟨a0, a1, a2, a3, ?_, a7⟩, a8, a10⟩
    apply BitVec.eq_of_toNat_eq
    rw [BitVec.toNat_ofNat, hc4]
    omega
  · rintro ⟨w, b1, b2, b3, ⟨a0, a1, a2, a3, a4, a5⟩, b4, b5⟩
    have : (A.c4 >>> 1).toNat = 0x30 + w := by
      have := congrArg BitVec.toNat a4
      rw [BitVec.toNat_ofNat] at this
      omega
    exact ⟨⟨⟨⟨⟨⟨⟨⟨⟨⟨a0, a1⟩, a2⟩, a3⟩, by omega, by omega⟩, by omega⟩, by omega⟩, a5⟩, b4⟩, by omega⟩, by omega⟩

/-- The first ACK tag (R219). -/
theorem ackTag_eq_some {t : List Byte} {pre digits post : List Byte} (he : t = pre ++ 0x7B#8 :: digits ++ post)
    (hn : digits ≠ []) (hd : ∀ c ∈ digits, isDigit c = true) (hp : ∀ c ∈ post.head?, isDigit c = false)
    (hf : ∀ j c, j < pre.length → t[j]? = some 0x7B#8 → t[j + 1]? = some c → isDigit c = false) :
    ackTag t = some (pre.length, digits.length) := by
  induction pre generalizing t with
  | nil =>
    subst he
    obtain ⟨d, ds, rfl⟩ := List.exists_cons_of_ne_nil hn
    have h1 : isDigit d = true := hd d (by simp)
    have h2 : (d :: ds ++ post).takeWhile isDigit = d :: ds := takeWhile_append_stop hd hp
    simp only [List.cons_append] at h2
    simp [ackTag, h1, h2]
  | cons c pre ih =>
    subst he
    have h0 : (c == 0x7B#8 && ((pre ++ 0x7B#8 :: digits ++ post).head?.any isDigit)) = false := by
      by_cases hc : c = 0x7B#8
      · subst hc
        cases hh : (pre ++ 0x7B#8 :: digits ++ post).head? with
        | none => simp
        | some x =>
          have := hf 0 x (by simp) (by simp) (by simpa [List.head?_eq_getElem?] using hh)
          simp [this]
      · simp [hc]
    have := ih (t := pre ++ 0x7B#8 :: digits ++ post) rfl fun j x hj h1 h2 =>
      hf (j + 1) x (by simpa using hj) (by simpa using h1) (by simpa using h2)
    simp only [List.cons_append, List.append_assoc] at h0 this ⊢
    simp only [ackTag, h0, this, Bool.false_eq_true, if_false, Option.map_some, List.length_cons]

theorem ackTag_eq_none {t : List Byte} (hf : ∀ j c, t[j]? = some 0x7B#8 → t[j + 1]? = some c → isDigit c = false) :
    ackTag t = none := by
  induction t with
  | nil => rfl
  | cons c t ih =>
    have h0 : (c == 0x7B#8 && (t.head?.any isDigit)) = false := by
      by_cases hc : c = 0x7B#8
      · subst hc
        cases hh : t.head? with
        | none => simp
        | some x =>
          have := hf 0 x (by simp) (by simpa [List.head?_eq_getElem?] using hh)
          simp [this]
      · simp [hc]
    have := ih fun j x h1 h2 => hf (j + 1) x (by simpa using h1) (by simpa using h2)
    simp only [ackTag, h0, this, Bool.false_eq_true, if_false, Option.map_none]

/-! ### DIGI_PROCESS, step by step -/

/-- The state after step 1 accepted the frame (R212, R233). -/
theorem accepted_eq {s : State} {n : Nat} (h : FrameShape s n) : s.clearMessage.digiCount n = accepted s n := by
  simp only [State.digiCount]
  rw [State.setHeader_eq _ n (by exact h.whole)]
  rfl

theorem execDigiProcess_valid {s : State} {n : Nat} (h : FrameShape s n) :
    execDigiProcess 0#8 0#16 s = .next (completed ((accepted s n).digiAccepted n)) := by
  rw [execDigiProcess_cases, (State.validate_eq_ok s).mpr h]
  simp only [argsUsed_zero, Bool.false_eq_true, if_false, accepted_eq h]

/-- Steps 3 to 5 on a fresh frame that is not the node's own: a message, or on to the rules. -/
theorem digiAccepted_fresh {s : State} {n : Nat} (h1 : NotSelf s)
    (h2 : ∀ i, ¬ LiveAt (swept s.tickSnap s.table) (crc (payloadOf s n)) i) :
    (accepted s n).digiAccepted n =
      if startsWith (payloadOf s n) (msgPfx s.node) then (accepted s n).sweep.digiMessage (payIdxOf n)
      else (accepted s n).sweep.digiRules n (crc (payloadOf s n)) (isQuery (payloadOf s n)) := by
  have e1 : (accepted s n).isSelf = false := State.isSelf_eq_false.mpr h1
  have e3 : (accepted s n).sweep.table = swept s.tickSnap s.table := State.sweep_table_eq _
  have e4 : (accepted s n).payload (payIdxOf n) = payloadOf s n := rfl
  simp only [State.digiAccepted, e1, Bool.false_eq_true, if_false]
  rw [e3, e4, lookupTable_eq_none.mpr h2]
  simp only [messagePrefix_eq, startsWith_query]
  rfl

/-- A frame that reaches the rules goes through them on the swept state. -/
theorem execDigiProcess_rules {s : State} {n : Nat} (h : ReachesRules s n) :
    execDigiProcess 0#8 0#16 s =
      .next (completed
        ((accepted s n).sweep.digiRules n (crc (payloadOf s n)) (isQuery (payloadOf s n)))) := by
  rw [execDigiProcess_valid h.shape, digiAccepted_fresh h.notSelf h.fresh, if_neg]
  rw [startsWith_iff]
  exact h.notMessage

theorem destApplies_iff (s : State) :
    DestApplies s ↔ (s.field 0).ssid ≠ 0#4 ∧ (s.field 0).ssid.toNat ≤ s.cfg.widenMax.toNat := by
  simp only [DestApplies, ne_eq, ← BitVec.toNat_inj, BitVec.toNat_ofNat]
  omega

/-- FLEN after an insertion (R224). -/
theorem flen_add_seven (x : Half) : x + 7#16 = BitVec.ofNat 16 (x.toNat + 7) := by
  apply BitVec.eq_of_toNat_eq
  rw [BitVec.toNat_add, BitVec.toNat_ofNat]
  rfl

@[simp] theorem State.grow_fb (s : State) (n k j : Nat) : (s.grow n k).fb j = (s.insertNode k).fb j := rfl

@[simp] theorem State.digiRepeat_fb (s : State) (cs : Half) (b : Bool) (r : Reason) (g : Bool) (k j : Nat) :
    (s.digiRepeat cs b r g k).fb j = s.fb j := rfl

/-- Everything an insertion changes but the bytes (R212, R224). -/
theorem State.grow_eq {s : State} {n : Nat} (k : Nat) (hp : s.params.wf = true)
    (hm : s.flen.toNat ≤ s.params.maxFrameLen) (hw : 7 * n + 2 ≤ s.flen.toNat) :
    s.grow n k =
      { s with
        flen := BitVec.ofNat 16 (s.flen.toNat + 7)
        hdr := ⟨BitVec.ofNat 8 (n + 1), BitVec.ofNat 8 (n - 1), BitVec.ofNat 16 (7 * n + 9)⟩
        payLen := BitVec.ofNat 16 (s.flen.toNat - (7 * n + 2))
        mem := (s.insertNode k).mem } := by
  simp only [State.grow]
  have hf : (s.insertNode k).flen = BitVec.ofNat 16 (s.flen.toNat + 7) := flen_add_seven s.flen
  simp [Config.Params.wf] at hp
  have hl : (BitVec.ofNat 16 (s.flen.toNat + 7)).toNat = s.flen.toNat + 7 := by
    rw [BitVec.toNat_ofNat, Nat.mod_eq_of_lt (by omega)]
  rw [State.setHeader_eq _ _ (by rw [hf, hl]; omega)]
  simp only [described, hf, hl, show n + 1 - 2 = n - 1 by omega,
    show 7 * (n + 1) + 2 = 7 * n + 9 by omega,
    show s.flen.toNat + 7 - (7 * n + 9) = s.flen.toNat - (7 * n + 2) by omega]
  simp only [State.insertNode, State.setFb, State.setBytes, flen_add_seven]

/-- INSERT into a table whose slot is known (R184). -/
theorem State.insert_eq {s : State} {i : Nat} {ev : Bool} (cs : Half) (h : InsertsAt s.table s.tickSnap i ev) :
    s.insert cs = { s with table := s.table.set i ⟨cs, s.tickSnap + s.dupWindow⟩ } := by
  simp only [State.insert, State.now, insertIndex_eq h, newSlot]

end Sys2Proof.Machine
end

