-- ==== Sys2Proof/Laws/Kept.lean ====
section
/-! SUPPORT. What no command writes, and the three ways a command ends. -/

namespace Sys2Proof.Machine

open Sys2Proof.Spec

/-- `r` has every field of `s` that no command's own effect writes. -/
structure Kept (s r : State) : Prop where
  params : r.params = s.params
  irqEn : r.irqEn = s.irqEn
  status : r.status = s.status
  rgn : r.rgn = s.rgn
  node : r.node = s.node
  cfg : r.cfg = s.cfg
  dupWindow : r.dupWindow = s.dupWindow
  tick : r.tick = s.tick
  tickSnap : r.tickSnap = s.tickSnap
  arb : r.arb = s.arb
  engine : r.engine = s.engine
  pend : r.pend = s.pend
  schedule : r.schedule = s.schedule
  busResp : r.busResp = s.busResp
  resets : r.resets = s.resets
  samples : r.samples = s.samples

variable (s : State)

theorem Kept.refl : Kept s s := ⟨rfl, rfl, rfl, rfl, rfl, rfl, rfl, rfl, rfl, rfl, rfl, rfl, rfl, rfl, rfl, rfl⟩

theorem Kept.trans {s r u : State} (h : Kept s r) (g : Kept r u) : Kept s u :=
  ⟨g.1.trans h.1, g.2.trans h.2, g.3.trans h.3, g.4.trans h.4, g.5.trans h.5, g.6.trans h.6, g.7.trans h.7, g.8.trans h.8,
    g.9.trans h.9, g.10.trans h.10, g.11.trans h.11, g.12.trans h.12, g.13.trans h.13, g.14.trans h.14, g.15.trans h.15,
    g.16.trans h.16⟩

theorem kept_setHeader (n p : Nat) : Kept s (s.setHeader n p) :=
  ⟨rfl, rfl, rfl, rfl, rfl, rfl, rfl, rfl, rfl, rfl, rfl, rfl, rfl, rfl, rfl, rfl⟩

theorem kept_sweep : Kept s s.sweep :=
  ⟨rfl, rfl, rfl, rfl, rfl, rfl, rfl, rfl, rfl, rfl, rfl, rfl, rfl, rfl, rfl, rfl⟩

theorem kept_digiDrop (b : Bool) (r : Reason) : Kept s (s.digiDrop b r) :=
  ⟨rfl, rfl, rfl, rfl, rfl, rfl, rfl, rfl, rfl, rfl, rfl, rfl, rfl, rfl, rfl, rfl⟩

theorem kept_digiMessage (p : Nat) : Kept s (s.digiMessage p) :=
  ⟨rfl, rfl, rfl, rfl, rfl, rfl, rfl, rfl, rfl, rfl, rfl, rfl, rfl, rfl, rfl, rfl⟩

theorem kept_digiRepeat (cs : Half) (b : Bool) (r : Reason) (g : Bool) (k : Nat) : Kept s (s.digiRepeat cs b r g k) :=
  ⟨rfl, rfl, rfl, rfl, rfl, rfl, rfl, rfl, rfl, rfl, rfl, rfl, rfl, rfl, rfl, rfl⟩

theorem kept_setBytes (o : Nat) (bs : List Byte) : Kept s (s.setBytes o bs) :=
  ⟨rfl, rfl, rfl, rfl, rfl, rfl, rfl, rfl, rfl, rfl, rfl, rfl, rfl, rfl, rfl, rfl⟩

theorem kept_flen (x : Half) : Kept s { s with flen := x } :=
  ⟨rfl, rfl, rfl, rfl, rfl, rfl, rfl, rfl, rfl, rfl, rfl, rfl, rfl, rfl, rfl, rfl⟩

theorem kept_tlen (x : Half) : Kept s { s with tlen := x } :=
  ⟨rfl, rfl, rfl, rfl, rfl, rfl, rfl, rfl, rfl, rfl, rfl, rfl, rfl, rfl, rfl, rfl⟩

theorem kept_insertNode (k : Nat) : Kept s (s.insertNode k) :=
  (((kept_setBytes s _ _).trans (kept_setBytes _ _ _)).trans (kept_setBytes _ _ _)).trans (kept_flen _ _)

theorem kept_grow (n k : Nat) : Kept s (s.grow n k) := (kept_insertNode s k).trans (kept_setHeader _ _ _)

theorem kept_setSsid (k : Nat) (x : BitVec 4) : Kept s (s.setSsid k x) :=
  ⟨rfl, rfl, rfl, rfl, rfl, rfl, rfl, rfl, rfl, rfl, rfl, rfl, rfl, rfl, rfl, rfl⟩

theorem kept_overwriteNode (k : Nat) : Kept s (s.overwriteNode k) :=
  ⟨rfl, rfl, rfl, rfl, rfl, rfl, rfl, rfl, rfl, rfl, rfl, rfl, rfl, rfl, rfl, rfl⟩

theorem kept_clear_count (n : Nat) : Kept s (s.clearMessage.digiCount n) :=
  ⟨rfl, rfl, rfl, rfl, rfl, rfl, rfl, rfl, rfl, rfl, rfl, rfl, rfl, rfl, rfl, rfl⟩

theorem kept_digiDest (n : Nat) (cs : Half) (b : Bool) : Kept s (s.digiDest n cs b) := by
  simp only [State.digiDest]
  split
  · exact kept_digiDrop s _ _
  · exact ((kept_setSsid s _ _).trans (kept_grow _ _ _)).trans (kept_digiRepeat _ _ _ _ _ _)

theorem kept_digiWide (n k : Nat) (cs : Half) (b : Bool) : Kept s (s.digiWide n k cs b) := by
  simp only [State.digiWide]
  split
  · split
    · exact kept_digiDrop s _ _
    · exact ((kept_setSsid s _ _).trans (kept_grow _ _ _)).trans (kept_digiRepeat _ _ _ _ _ _)
  · exact (kept_overwriteNode s _).trans (kept_digiRepeat _ _ _ _ _ _)

theorem kept_digiRules (n : Nat) (cs : Half) (b : Bool) : Kept s (s.digiRules n cs b) := by
  simp only [State.digiRules]
  split
  · exact kept_digiDest s _ _ _
  · split
    · exact kept_digiDrop s _ _
    · split
      · exact kept_digiDrop s _ _
      · split
        · exact kept_digiWide s _ _ _ _
        · exact kept_digiDrop s _ _

theorem kept_digiAccepted (n : Nat) : Kept s (s.digiAccepted n) := by
  simp only [State.digiAccepted]
  split
  · exact kept_digiDrop s _ _
  · split
    · exact (kept_sweep s).trans (kept_digiDrop _ _ _)
    · split
      · exact (kept_sweep s).trans (kept_digiMessage _ _)
      · exact (kept_sweep s).trans (kept_digiRules _ _ _ _)

/-- The errors of T2F (R154). -/
theorem pathLoop_error {q : BitVec 2} {e : ErrCode} : ∀ {t : List Byte} {as : List Addr},
    pathLoop q as t = .error e → e = .encNoColon ∨ e = .encTooManyPath
  | [], _, h => by cases h; exact .inl rfl
  | c :: t, as, h => by
    simp only [pathLoop] at h
    split at h
    · cases h
    · split at h
      · split at h
        · cases h; exact .inr rfl
        · exact pathLoop_error h
      · exact pathLoop_error h

theorem frameOfText_error {q : BitVec 2} {m : Nat} {t : List Byte} {e : ErrCode} (h : frameOfText q m t = .error e) :
    e ∈ [ErrCode.encNoGt, .encNoColon, .encTooManyPath, .encFrameOverflow] := by
  simp only [frameOfText] at h
  split at h
  · cases h; decide
  · split at h
    · rename_i e' he
      cases h
      rcases pathLoop_error he with rfl | rfl <;> decide
    · split at h
      · cases h; decide
      · cases h

theorem mem_raises_frame (e : FrameErr) {opc : Byte} (h : opc ∈ [0x10#8, 0x11#8, 0x31#8, 0x32#8]) :
    ErrCode.frame e ∈ raises opc := by
  simp only [List.mem_cons, List.not_mem_nil, or_false] at h
  rcases h with rfl | rfl | rfl | rfl <;> cases e <;> decide

/-- Every command ends in one of three ways: it fails with an error of its own, it starts a wait, or it completes. -/
theorem exec_cases (i : Instr) : ∃ t, exec i s = .next t ∧
    ((∃ c, c ∈ raises i.opcode ∧ c ≠ .noError ∧ t = failed s c) ∨
      (i = .csmaAcquire 0#8 0#16 ∧ t = s.startWait) ∨
      (.noError ∈ raises i.opcode ∧ ∃ r, t = completed r ∧ Kept s r)) := by
  cases i with
  | nop a b =>
    rw [exec, execNop_cases]
    refine ⟨_, rfl, ?_⟩
    simp only [Instr.opcode]
    split
    · exact .inl ⟨_, by decide, by decide, rfl⟩
    · exact .inr (.inr ⟨by decide, s, rfl, Kept.refl s⟩)
  | csmaAcquire a b =>
    rw [exec, execCsmaAcquire_cases]
    refine ⟨_, rfl, ?_⟩
    simp only [Instr.opcode]
    split
    · exact .inl ⟨_, by decide, by decide, rfl⟩
    · rename_i h
      rw [argsUsed_iff] at h
      obtain ⟨rfl, rfl⟩ : a = 0#8 ∧ b = 0#16 := by simpa using h
      exact .inr (.inl ⟨rfl, rfl⟩)
  | callDecode a b =>
    rw [exec, execCallDecode_cases]
    refine ⟨_, rfl, ?_⟩
    simp only [Instr.opcode]
    split
    · exact .inl ⟨_, by decide, by decide, rfl⟩
    · exact .inr (.inr ⟨by decide, _, rfl, ⟨rfl, rfl, rfl, rfl, rfl, rfl, rfl, rfl, rfl, rfl, rfl, rfl, rfl, rfl, rfl, rfl⟩⟩)
  | callEncode a c =>
    rw [exec, execCallEncode_cases]
    refine ⟨_, rfl, ?_⟩
    simp only [Instr.opcode]
    split
    · exact .inl ⟨_, by decide, by decide, rfl⟩
    · exact .inr (.inr ⟨by decide, _, rfl, ⟨rfl, rfl, rfl, rfl, rfl, rfl, rfl, rfl, rfl, rfl, rfl, rfl, rfl, rfl, rfl, rfl⟩⟩)
  | frameValidate a b =>
    rw [exec, execFrameValidate_cases]
    refine ⟨_, rfl, ?_⟩
    simp only [Instr.opcode]
    split
    · exact .inl ⟨_, by decide, by decide, rfl⟩
    · split
      · exact .inl ⟨_, mem_raises_frame _ (by decide), by simp, rfl⟩
      · exact .inr (.inr ⟨by decide, _, rfl, kept_setHeader _ _ _⟩)
  | frameToText a b =>
    rw [exec, execFrameToText_cases]
    refine ⟨_, rfl, ?_⟩
    simp only [Instr.opcode]
    split
    · exact .inl ⟨_, by decide, by decide, rfl⟩
    · split
      · exact .inl ⟨_, mem_raises_frame _ (by decide), by simp, rfl⟩
      · split
        · exact .inl ⟨_, by decide, by decide, rfl⟩
        · exact .inr (.inr ⟨by decide, _, rfl, ((kept_setBytes s _ _).trans (kept_tlen _ _)).trans (kept_setHeader _ _ _)⟩)
  | textToFrame a b =>
    rw [exec, execTextToFrame_cases]
    refine ⟨_, rfl, ?_⟩
    simp only [Instr.opcode]
    split
    · exact .inl ⟨_, by decide, by decide, rfl⟩
    · split
      · rename_i he
        refine .inl ⟨_, ?_, ?_, rfl⟩ <;>
          (have := frameOfText_error he; simp only [List.mem_cons, List.not_mem_nil, or_false] at this;
           rcases this with rfl | rfl | rfl | rfl <;> decide)
      · exact .inr (.inr ⟨by decide, _, rfl, ((kept_setBytes s _ _).trans (kept_flen _ _)).trans (kept_setHeader _ _ _)⟩)
  | crc16 a b =>
    rw [exec, execCrc16_cases]
    refine ⟨_, rfl, ?_⟩
    simp only [Instr.opcode]
    split
    · exact .inl ⟨_, by decide, by decide, rfl⟩
    · exact .inr (.inr ⟨by decide, _, rfl, ⟨rfl, rfl, rfl, rfl, rfl, rfl, rfl, rfl, rfl, rfl, rfl, rfl, rfl, rfl, rfl, rfl⟩⟩)
  | dupCheck a b =>
    rw [exec, execDupCheck_cases]
    refine ⟨_, rfl, ?_⟩
    simp only [Instr.opcode]
    split
    · exact .inl ⟨_, by decide, by decide, rfl⟩
    · exact .inr (.inr ⟨by decide, _, rfl, ⟨rfl, rfl, rfl, rfl, rfl, rfl, rfl, rfl, rfl, rfl, rfl, rfl, rfl, rfl, rfl, rfl⟩⟩)
  | dupRecord a b =>
    rw [exec, execDupRecord_cases]
    refine ⟨_, rfl, ?_⟩
    simp only [Instr.opcode]
    split
    · exact .inl ⟨_, by decide, by decide, rfl⟩
    · exact .inr (.inr ⟨by decide, _, rfl, ⟨rfl, rfl, rfl, rfl, rfl, rfl, rfl, rfl, rfl, rfl, rfl, rfl, rfl, rfl, rfl, rfl⟩⟩)
  | dupCheckRecord a b =>
    rw [exec, execDupCheckRecord_cases]
    refine ⟨_, rfl, ?_⟩
    simp only [Instr.opcode]
    split
    · exact .inl ⟨_, by decide, by decide, rfl⟩
    · split <;>
        exact .inr (.inr ⟨by decide, _, rfl, ⟨rfl, rfl, rfl, rfl, rfl, rfl, rfl, rfl, rfl, rfl, rfl, rfl, rfl, rfl, rfl, rfl⟩⟩)
  | digiProcess a b =>
    rw [exec, execDigiProcess_cases]
    refine ⟨_, rfl, ?_⟩
    simp only [Instr.opcode]
    split
    · exact .inl ⟨_, by decide, by decide, rfl⟩
    · split
      · exact .inr (.inr ⟨by decide, _, rfl, ⟨rfl, rfl, rfl, rfl, rfl, rfl, rfl, rfl, rfl, rfl, rfl, rfl, rfl, rfl, rfl, rfl⟩⟩)
      · exact .inr (.inr ⟨by decide, _, rfl, (kept_clear_count s _).trans (kept_digiAccepted _ _)⟩)
  | pathInsertNode k b =>
    rw [exec, execPathInsertNode_cases]
    refine ⟨_, rfl, ?_⟩
    simp only [Instr.opcode]
    split
    · exact .inl ⟨_, by decide, by decide, rfl⟩
    · split
      · exact .inl ⟨_, mem_raises_frame _ (by decide), by simp, rfl⟩
      · split
        · exact .inl ⟨_, by decide, by decide, rfl⟩
        · split
          · rename_i e _
            exact .inl ⟨_, by cases e <;> decide, by cases e <;> decide, rfl⟩
          · exact .inr (.inr ⟨by decide, _, rfl, kept_grow _ _ _⟩)
  | pathOverwriteNode k b =>
    rw [exec, execPathOverwriteNode_cases]
    refine ⟨_, rfl, ?_⟩
    simp only [Instr.opcode]
    split
    · exact .inl ⟨_, by decide, by decide, rfl⟩
    · split
      · exact .inl ⟨_, mem_raises_frame _ (by decide), by simp, rfl⟩
      · split
        · exact .inl ⟨_, by decide, by decide, rfl⟩
        · exact .inr (.inr ⟨by decide, _, rfl, (kept_overwriteNode s _).trans (kept_setHeader _ _ _)⟩)

/-- The engine's step on a pending command ends in one of three ways. -/
theorem engineStep_cases (hp : s.engine = .pending) :
    ∃ t, engineStep s = .next t ∧
      ((∃ c, c ∈ raises (opcField s.pend) ∧ c ≠ .noError ∧ t = failed s.latchTick c) ∨
        (s.pend = 0x00000040#32 ∧ t = s.latchTick.startWait) ∨
        (.noError ∈ raises (opcField s.pend) ∧ ∃ r, t = completed r ∧ Kept s.latchTick r)) := by
  rw [engineStep_pending s hp]
  rcases runPending_cases s with ⟨i, hi, h⟩ | ⟨e, he, h⟩
  · obtain ⟨t, ht, hc⟩ := exec_cases s.latchTick i
    obtain ⟨ho, ha, hb⟩ := decode_fields hi
    refine ⟨t, h.trans ht, ?_⟩
    rw [ho] at hc
    rcases hc with hc | ⟨rfl, hc⟩ | hc
    · exact .inl hc
    · refine .inr (.inl ⟨?_, hc⟩)
      rw [← word_of_fields s.pend, ← ho, ← ha, ← hb]; rfl
    · exact .inr (.inr hc)
  · refine ⟨_, h, .inl ⟨.badOpcode, ?_, by decide, rfl⟩⟩
    have := decode_eq_error_iff.mp ⟨e, he⟩
    simp [opcodes] at this
    simp [raises, this]

end Sys2Proof.Machine
end

