-- ==== Sys2Proof/Laws/PerInstr.lean ====
section
/-! SUPPORT. The word of every command against the mask and match of its row of spec/opcode_table.json. -/

namespace Sys2Proof.Laws.EncodeRow

open Sys2Proof

/-- `mask` and `match` of a command's row of spec/opcode_table.json. -/
def row : Instr → Word × Word
  | .nop _ _ => (0xFFFFFFFF#32, 0x00000000#32)
  | .callDecode _ _ => (0xFFFFFFFF#32, 0x00000001#32)
  | .callEncode _ _ => (0x0000FFFF#32, 0x00000002#32)
  | .frameValidate _ _ => (0xFFFFFFFF#32, 0x00000010#32)
  | .frameToText _ _ => (0xFFFFFFFF#32, 0x00000011#32)
  | .textToFrame _ _ => (0xFFFFFFFF#32, 0x00000012#32)
  | .crc16 _ _ => (0xFFFFFFFF#32, 0x00000020#32)
  | .dupCheck _ _ => (0xFFFFFFFF#32, 0x00000021#32)
  | .dupRecord _ _ => (0xFFFFFFFF#32, 0x00000022#32)
  | .dupCheckRecord _ _ => (0xFFFFFFFF#32, 0x00000023#32)
  | .digiProcess _ _ => (0xFFFFFFFF#32, 0x00000030#32)
  | .pathInsertNode _ _ => (0xFFFF00FF#32, 0x00000031#32)
  | .pathOverwriteNode _ _ => (0xFFFF00FF#32, 0x00000032#32)
  | .csmaAcquire _ _ => (0xFFFFFFFF#32, 0x00000040#32)

/-- The word of a well-formed command has its row's bits; the word of one that is not well formed has not (R91). -/
def Statement (i : Instr) : Prop := (encode i &&& (row i).1 = (row i).2) ↔ i.wellFormed = true

/-- A masked comparison of a command's word is one of each field. -/
theorem mask_iff (i : Instr) (m x : Word) :
    encode i &&& m = x ↔
      i.opcode &&& opcField m = opcField x ∧ i.argA &&& argAField m = argAField x ∧
        i.argB &&& argBField m = argBField x := by
  have ho : opcField (encode i &&& m) = i.opcode &&& opcField m := by
    rw [← opcField_encode i]; simp only [opcField, BitVec.extractLsb'_and]
  have ha : argAField (encode i &&& m) = i.argA &&& argAField m := by
    rw [← argAField_encode i]; simp only [argAField, BitVec.extractLsb'_and]
  have hb : argBField (encode i &&& m) = i.argB &&& argBField m := by
    rw [← argBField_encode i]; simp only [argBField, BitVec.extractLsb'_and]
  constructor
  · intro h
    rw [← ho, ← ha, ← hb, h]
    exact ⟨rfl, rfl, rfl⟩
  · rintro ⟨h1, h2, h3⟩
    rw [← word_of_fields x, ← h1, ← h2, ← h3, ← ho, ← ha, ← hb, word_of_fields]

/-- Both argument fields are checked. -/
theorem both {i : Instr} {x : Word} (hx : opcField x = i.opcode) (ha : argAField x = 0#8) (hb : argBField x = 0#16) :
    (encode i &&& 0xFFFFFFFF#32 = x) ↔ noArgs i.argA i.argB = true := by
  have e1 : opcField 0xFFFFFFFF#32 = BitVec.allOnes 8 := rfl
  have e2 : argAField 0xFFFFFFFF#32 = BitVec.allOnes 8 := rfl
  have e3 : argBField 0xFFFFFFFF#32 = BitVec.allOnes 16 := rfl
  rw [mask_iff, e1, e2, e3, BitVec.and_allOnes, BitVec.and_allOnes, BitVec.and_allOnes, hx, ha, hb]
  simp [noArgs]

/-- ARG_B alone is checked. -/
theorem onlyB {i : Instr} {x : Word} (hx : opcField x = i.opcode) (ha : argAField x = 0#8) (hb : argBField x = 0#16) :
    (encode i &&& 0xFFFF00FF#32 = x) ↔ (i.argB == 0#16) = true := by
  have e1 : opcField 0xFFFF00FF#32 = BitVec.allOnes 8 := rfl
  have e2 : argAField 0xFFFF00FF#32 = 0#8 := rfl
  have e3 : argBField 0xFFFF00FF#32 = BitVec.allOnes 16 := rfl
  rw [mask_iff, e1, e2, e3, BitVec.and_allOnes, BitVec.and_allOnes, hx, ha, hb]
  simp

/-- ARG_A alone is checked. -/
theorem onlyA {i : Instr} {x : Word} (hx : opcField x = i.opcode) (ha : argAField x = 0#8) (hb : argBField x = 0#16) :
    (encode i &&& 0x0000FFFF#32 = x) ↔ (i.argA == 0#8) = true := by
  have e1 : opcField 0x0000FFFF#32 = BitVec.allOnes 8 := rfl
  have e2 : argAField 0x0000FFFF#32 = BitVec.allOnes 8 := rfl
  have e3 : argBField 0x0000FFFF#32 = 0#16 := rfl
  rw [mask_iff, e1, e2, e3, BitVec.and_allOnes, BitVec.and_allOnes, hx, ha, hb]
  simp

theorem nop (a : BitVec 8) (b : BitVec 16) : Statement (.nop a b) :=
  both (x := 0x00000000#32) rfl (by decide) (by decide)

theorem callDecode (a : BitVec 8) (b : BitVec 16) : Statement (.callDecode a b) :=
  both (x := 0x00000001#32) rfl (by decide) (by decide)

theorem callEncode (a : BitVec 8) (c : BitVec 16) : Statement (.callEncode a c) :=
  onlyA (x := 0x00000002#32) rfl (by decide) (by decide)

theorem frameValidate (a : BitVec 8) (b : BitVec 16) : Statement (.frameValidate a b) :=
  both (x := 0x00000010#32) rfl (by decide) (by decide)

theorem frameToText (a : BitVec 8) (b : BitVec 16) : Statement (.frameToText a b) :=
  both (x := 0x00000011#32) rfl (by decide) (by decide)

theorem textToFrame (a : BitVec 8) (b : BitVec 16) : Statement (.textToFrame a b) :=
  both (x := 0x00000012#32) rfl (by decide) (by decide)

theorem crc16 (a : BitVec 8) (b : BitVec 16) : Statement (.crc16 a b) :=
  both (x := 0x00000020#32) rfl (by decide) (by decide)

theorem dupCheck (a : BitVec 8) (b : BitVec 16) : Statement (.dupCheck a b) :=
  both (x := 0x00000021#32) rfl (by decide) (by decide)

theorem dupRecord (a : BitVec 8) (b : BitVec 16) : Statement (.dupRecord a b) :=
  both (x := 0x00000022#32) rfl (by decide) (by decide)

theorem dupCheckRecord (a : BitVec 8) (b : BitVec 16) : Statement (.dupCheckRecord a b) :=
  both (x := 0x00000023#32) rfl (by decide) (by decide)

theorem digiProcess (a : BitVec 8) (b : BitVec 16) : Statement (.digiProcess a b) :=
  both (x := 0x00000030#32) rfl (by decide) (by decide)

theorem pathInsertNode (k : BitVec 8) (b : BitVec 16) : Statement (.pathInsertNode k b) :=
  onlyB (x := 0x00000031#32) rfl (by decide) (by decide)

theorem pathOverwriteNode (k : BitVec 8) (b : BitVec 16) : Statement (.pathOverwriteNode k b) :=
  onlyB (x := 0x00000032#32) rfl (by decide) (by decide)

theorem csmaAcquire (a : BitVec 8) (b : BitVec 16) : Statement (.csmaAcquire a b) :=
  both (x := 0x00000040#32) rfl (by decide) (by decide)

end Sys2Proof.Laws.EncodeRow
end

