-- ==== Sys2Proof/Tests/Slice0.lean ====
section
/-! SUPPORT. The model's own tests. Expected values are those of spec/95_test_vectors.md (the vector is named) or worked out by hand
from the rule named. The last part shows, for every statement that has hypotheses, states and operands that meet them. -/

namespace Sys2Proof.Tests

set_option Elab.async false

open Sys2Proof Sys2Proof.Machine Sys2Proof.Spec

/-! ### Helpers -/

/-- The bytes of ASCII text. -/
def ascii (t : String) : List Byte := t.toList.map fun c => BitVec.ofNat 8 c.toNat

/-- The state an execution answers. -/
def out : Result → State
  | .next s => s
  | .fault f => nomatch f
  | .refused _ => State.reset

/-- A state of the vectors: the node is N0CALL-1, WIDEN_MAX is 3, `now` is 1000. -/
def node : State :=
  { State.reset with
    node := ⟨0x9C#8, 0x60#8, 0x86#8, 0x82#8, 0x98#8, 0x98#8, 0x62#8⟩
    cfg := { widenMax := 3#4, persist := 0xBF#8, slotSamples := 10#16 }
    tick := 1000#32
    tickSnap := 1000#32 }

/-- A state with these bytes as its frame. -/
def withFrame (s : State) (f : List Byte) : State := { s.setFb 0 f with flen := BitVec.ofNat 16 f.length }

/-- A state with these bytes as its text. -/
def withText (s : State) (t : List Byte) : State := { s.setTb 0 t with tlen := BitVec.ofNat 16 t.length }

/-- A state whose checksum region is these bytes. -/
def withRegion (s : State) (b : List Byte) : State := { s.setFb 0 b with rgn := ⟨0#16, BitVec.ofNat 16 b.length⟩ }

/-- A state with this command pending. -/
def pending (s : State) (w : Word) : State := s.issue w

/-- A state in an arbiter wait. -/
def waiting (s : State) (slot : Half) (persist : Byte) : State :=
  { s.issue 0x40#32 with
    cfg := { widenMax := 3#4, persist := persist, slotSamples := slot }
    arb := ⟨0#16, 0#8, .wait⟩
    engine := .csmaWait }

/-- The four-slot table of the vector V-K1: records of A, B, C, D at the ticks 1 to 4. -/
def tableK1 : List Slot := [⟨0x5C0A#16, 0x1F#32⟩, ⟨0x6E91#16, 0x20#32⟩, ⟨0x7F18#16, 0x21#32⟩, ⟨0x0BA7#16, 0x22#32⟩]

/-- SRC>DST:x (V-F2). -/
def f2 : List Byte :=
  [0x88#8, 0xA6#8, 0xA8#8, 0x40#8, 0x40#8, 0x40#8, 0x60#8, 0xA6#8, 0xA4#8, 0x86#8, 0x40#8, 0x40#8, 0x40#8, 0x61#8, 0x03#8,
    0xF0#8, 0x78#8]

/-- SRC>DST,WIDE2-2:payload (V-F1). -/
def f1 : List Byte :=
  [0x88#8, 0xA6#8, 0xA8#8, 0x40#8, 0x40#8, 0x40#8, 0x60#8, 0xA6#8, 0xA4#8, 0x86#8, 0x40#8, 0x40#8, 0x40#8, 0x60#8, 0xAE#8,
    0x92#8, 0x88#8, 0x8A#8, 0x64#8, 0x40#8, 0x65#8, 0x03#8, 0xF0#8] ++ ascii "payload"

/-- SRC>DST,N0CALL-1*,WIDE2-1:payload (V-D1, out). -/
def d1 : List Byte :=
  [0x88#8, 0xA6#8, 0xA8#8, 0x40#8, 0x40#8, 0x40#8, 0x60#8, 0xA6#8, 0xA4#8, 0x86#8, 0x40#8, 0x40#8, 0x40#8, 0x60#8, 0x9C#8,
    0x60#8, 0x86#8, 0x82#8, 0x98#8, 0x98#8, 0xE2#8, 0xAE#8, 0x92#8, 0x88#8, 0x8A#8, 0x64#8, 0x40#8, 0x63#8, 0x03#8,
    0xF0#8] ++ ascii "payload"

/-- SRC>DST,WIDE1-1:x (V-F8). -/
def f8 : List Byte :=
  [0x88#8, 0xA6#8, 0xA8#8, 0x40#8, 0x40#8, 0x40#8, 0x60#8, 0xA6#8, 0xA4#8, 0x86#8, 0x40#8, 0x40#8, 0x40#8, 0x60#8, 0xAE#8,
    0x92#8, 0x88#8, 0x8A#8, 0x62#8, 0x40#8, 0x63#8, 0x03#8, 0xF0#8, 0x78#8]

/-- A frame of two call fields of shifted spaces, `k` repeated path entries like them, and no payload byte. -/
def padFrame (k : Nat) (sb last : Byte) : List Byte :=
  List.replicate 6 0x40#8 ++ [0x60#8] ++ List.replicate 6 0x40#8 ++ [if k = 0 then last else 0x60#8] ++
    (List.replicate (k - 1) (List.replicate 6 0x40#8 ++ [sb])).flatten ++
      (if k = 0 then [] else List.replicate 6 0x40#8 ++ [last]) ++ [0x03#8, 0xF0#8]

/-! ### Well-formedness: every check refuses -/

theorem test_wf_nop : (Instr.nop 1#8 0#16).wellFormed = false ∧ (Instr.nop 0#8 1#16).wellFormed = false := by decide
theorem test_wf_callDecode :
    (Instr.callDecode 1#8 0#16).wellFormed = false ∧ (Instr.callDecode 0#8 1#16).wellFormed = false := by decide
theorem test_wf_callEncode :
    (Instr.callEncode 1#8 0#16).wellFormed = false ∧ (Instr.callEncode 0#8 0xFFFF#16).wellFormed = true := by decide
theorem test_wf_frameValidate :
    (Instr.frameValidate 1#8 0#16).wellFormed = false ∧ (Instr.frameValidate 0#8 1#16).wellFormed = false := by decide
theorem test_wf_frameToText :
    (Instr.frameToText 1#8 0#16).wellFormed = false ∧ (Instr.frameToText 0#8 1#16).wellFormed = false := by decide
theorem test_wf_textToFrame :
    (Instr.textToFrame 1#8 0#16).wellFormed = false ∧ (Instr.textToFrame 0#8 1#16).wellFormed = false := by decide
theorem test_wf_crc16 : (Instr.crc16 1#8 0#16).wellFormed = false ∧ (Instr.crc16 0#8 1#16).wellFormed = false := by decide
theorem test_wf_dupCheck :
    (Instr.dupCheck 1#8 0#16).wellFormed = false ∧ (Instr.dupCheck 0#8 1#16).wellFormed = false := by decide
theorem test_wf_dupRecord :
    (Instr.dupRecord 1#8 0#16).wellFormed = false ∧ (Instr.dupRecord 0#8 1#16).wellFormed = false := by decide
theorem test_wf_dupCheckRecord :
    (Instr.dupCheckRecord 1#8 0#16).wellFormed = false ∧ (Instr.dupCheckRecord 0#8 1#16).wellFormed = false := by decide
theorem test_wf_digiProcess :
    (Instr.digiProcess 1#8 0#16).wellFormed = false ∧ (Instr.digiProcess 0#8 1#16).wellFormed = false := by decide
theorem test_wf_pathInsertNode :
    (Instr.pathInsertNode 2#8 1#16).wellFormed = false ∧ (Instr.pathInsertNode 0xFF#8 0#16).wellFormed = true := by decide
theorem test_wf_pathOverwriteNode :
    (Instr.pathOverwriteNode 2#8 1#16).wellFormed = false ∧ (Instr.pathOverwriteNode 0xFF#8 0#16).wellFormed = true := by
  decide
theorem test_wf_csmaAcquire :
    (Instr.csmaAcquire 1#8 0#16).wellFormed = false ∧ (Instr.csmaAcquire 0#8 1#16).wellFormed = false := by decide

/-! ### Decoding: words written out bit by bit from R90 and R92 -/

theorem test_decode_nop : decode 0b0000000000000001_00000000_00000000#32 = .ok (.nop 0#8 1#16) := by decide
theorem test_decode_callDecode : decode 0b0000000000000000_00000000_00000001#32 = .ok (.callDecode 0#8 0#16) := by decide
theorem test_decode_callEncode : decode 0b0000000000001001_00000000_00000010#32 = .ok (.callEncode 0#8 9#16) := by decide
theorem test_decode_frameValidate : decode 0b0000000000000000_00000000_00010000#32 = .ok (.frameValidate 0#8 0#16) := by
  decide
theorem test_decode_frameToText : decode 0b0000000000000000_00000000_00010001#32 = .ok (.frameToText 0#8 0#16) := by decide
theorem test_decode_textToFrame : decode 0b0000000000000000_00000000_00010010#32 = .ok (.textToFrame 0#8 0#16) := by decide
theorem test_decode_crc16 : decode 0b0000000000000000_00000000_00100000#32 = .ok (.crc16 0#8 0#16) := by decide
theorem test_decode_dupCheck : decode 0b0000000000000000_00000000_00100001#32 = .ok (.dupCheck 0#8 0#16) := by decide
theorem test_decode_dupRecord : decode 0b0000000000000000_00000000_00100010#32 = .ok (.dupRecord 0#8 0#16) := by decide
theorem test_decode_dupCheckRecord : decode 0b0000000000000000_00000000_00100011#32 = .ok (.dupCheckRecord 0#8 0#16) := by
  decide
theorem test_decode_digiProcess : decode 0b0000000000000000_11111111_00110000#32 = .ok (.digiProcess 0xFF#8 0#16) := by
  decide
theorem test_decode_pathInsertNode : decode 0b0000000000000000_00000010_00110001#32 = .ok (.pathInsertNode 2#8 0#16) := by
  decide
theorem test_decode_pathOverwriteNode :
    decode 0b1000000000000001_10000001_00110010#32 = .ok (.pathOverwriteNode 0x81#8 0x8001#16) := by decide
theorem test_decode_csmaAcquire : decode 0b0000000000000000_00000000_01000000#32 = .ok (.csmaAcquire 0#8 0#16) := by decide

/-- R93 and V-X3: the reserved opcodes the vector names. -/
theorem test_decode_reserved : ∀ o ∈ [0x05#8, 0x03#8, 0x13#8, 0x24#8, 0x33#8, 0x41#8, 0xFF#8],
    decode (o.zeroExtend 32) = .error (.reservedOpcode o) := by decide

/-- R94: fewer than four bytes are no command; R73: the first byte is bits 7:0. -/
theorem test_decodeBytes : decodeBytes [0x31#8, 0x02#8, 0x00#8] = .error (.truncated 3) ∧
    decodeBytes [0x31#8, 0x02#8, 0x00#8, 0x00#8, 0xAA#8] = .ok (.pathInsertNode 2#8 0#16, [0xAA#8]) := by decide

theorem test_decodeTableWord : decodeTableWord 32 0x00000231 = some (.pathInsertNode 2#8 0#16) ∧
    decodeTableWord 32 0x05 = none := by decide

/-! ### One step each -/

/-- V-X1. -/
theorem test_nop : (out (exec (.nop 0#8 0#16) (pending State.reset 0#32))).status.word = 0x00000002#32 := by decide
/-- V-X2. -/
theorem test_nop_badArg : (out (exec (.nop 0#8 1#16) (pending State.reset 0x00010000#32))).status.word = 0x00000206#32 := by
  decide
/-- V-X3. -/
theorem test_reserved : (out (runPending (pending State.reset 0x05#32))).status.word = 0x00050106#32 := by decide
/-- V-C3: an inner space stays, the E bit is ignored. -/
theorem test_callDecode :
    (out (exec (.callDecode 0#8 0#16)
      { State.reset with callp := ⟨0x82#8, 0x40#8, 0x84#8, 0x40#8, 0x40#8, 0x40#8, 0xFF#8⟩ })).callTxt.take 6 =
      ascii "A B-15" := by decide
/-- V-E16: leading zeros are read; V-E1's field. -/
theorem test_callEncode :
    (out (exec (.callEncode 0#8 0#16) (withText State.reset (ascii "N0CALL-01")))).callp =
      ⟨0x9C#8, 0x60#8, 0x86#8, 0x82#8, 0x98#8, 0x98#8, 0x62#8⟩ := by decide +kernel
/-- V-E20: a cursor past the end of the text. -/
theorem test_callEncode_badArg :
    (out (exec (.callEncode 0#8 9#16) (pending (withText State.reset (ascii "SRC>DST:")) 0x00090002#32))).status.word =
      0x00020206#32 := by decide +kernel
/-- V-F36: three address fields, no payload. -/
theorem test_frameValidate :
    (out (exec (.frameValidate 0#8 0#16) (withFrame State.reset (padFrame 1 0x60#8 0x61#8)))).readReg 0x054 =
      0x00170103#32 := by decide +kernel
/-- V-F32: the length check comes first. -/
theorem test_frameValidate_tooLong :
    (out (exec (.frameValidate 0#8 0#16) (pending { State.reset with flen := 300#16 } 0x10#32))).status.word =
      0x00101606#32 := by decide +kernel
/-- V-F1 back to text. -/
theorem test_frameToText :
    (out (exec (.frameToText 0#8 0#16) (withFrame State.reset f1))).text = ascii "SRC>DST,WIDE2-2:payload" := by
  decide +kernel
/-- V-D1's frame as text: a repeated entry has its star. -/
theorem test_frameToText_star :
    (out (exec (.frameToText 0#8 0#16) (withFrame State.reset d1))).text = ascii "SRC>DST,N0CALL-1*,WIDE2-1:payload" := by
  decide +kernel
/-- V-F1. -/
theorem test_textToFrame :
    (out (exec (.textToFrame 0#8 0#16) (withText State.reset (ascii "SRC>DST,WIDE2-2:payload")))).fbs 0 30 = f1 := by
  decide +kernel
/-- V-F16 and P5. -/
theorem test_textToFrame_noGt :
    (out (exec (.textToFrame 0#8 0#16) (pending (withText State.reset (ascii "SRCDST:x")) 0x12#32))).status.word =
      0x00122006#32 := by decide +kernel
/-- V-R13: the check value of the parameters in R180. -/
theorem test_crc16 :
    (out (exec (.crc16 0#8 0#16) (withRegion State.reset (ascii "123456789")))).crcRes = 0x6F91#16 := by decide +kernel
/-- V-R17: a region past the end of FBUF. -/
theorem test_crc16_badArg :
    (out (exec (.crc16 0#8 0#16) (pending { State.reset with rgn := ⟨250#16, 7#16⟩ } 0x20#32))).status.word =
      0x00200206#32 := by decide +kernel
/-- V-K2: B is live at its deadline, in slot 1. -/
theorem test_dupCheck :
    (out (exec (.dupCheck 0#8 0#16)
      { withRegion State.reset (ascii "B") with table := tableK1, tickSnap := 32#32 })).dupRes =
      ⟨true, false, false, 1#4, 0x6E91#16⟩ := by decide +kernel
/-- V-K2: B has passed one tick later, and its slot is swept. -/
theorem test_dupCheck_expired :
    (out (exec (.dupCheck 0#8 0#16)
      { withRegion State.reset (ascii "B") with table := tableK1, tickSnap := 33#32 })).table.map Slot.exp =
      [0#32, 0#32, 0x21#32, 0x22#32] := by decide +kernel
/-- V-K2: E evicts A. -/
theorem test_dupRecord :
    (out (exec (.dupRecord 0#8 0#16)
      { withRegion State.reset (ascii "E") with table := tableK1, tickSnap := 5#32 })).table.head? =
      some ⟨0x1A2E#16, 0x23#32⟩ := by decide +kernel
/-- V-K5: a deadline that wraps to 0 is stored as computed. -/
theorem test_dupRecord_wraps :
    (out (exec (.dupRecord 0#8 0#16)
      { withRegion State.reset (ascii "A") with tickSnap := 0xFFFFFFE2#32 })).table.head? =
      some ⟨0x5C0A#16, 0#32⟩ := by decide +kernel
/-- P3: the first DUP_CHECK_RECORD records. -/
theorem test_dupCheckRecord :
    (out (exec (.dupCheckRecord 0#8 0#16)
      { withRegion State.reset (ascii "payload") with tickSnap := 100#32 })).dupRes.word = 0xBD3B0002#32 := by
  decide +kernel
/-- P3: the second one hits and leaves the deadline. -/
theorem test_dupCheckRecord_hit :
    (out (exec (.dupCheckRecord 0#8 0#16)
      { withRegion State.reset (ascii "payload") with
        tickSnap := 101#32, table := [⟨0xBD3B#16, 0x82#32⟩] })).dupRes.word = 0xBD3B0001#32 := by decide +kernel
/-- V-D1: the frame out. -/
theorem test_digiProcess :
    (out (exec (.digiProcess 0#8 0#16) (withFrame node f1))).fbs 0 37 = d1 := by decide +kernel
/-- V-D1: DIGI_RES. -/
theorem test_digiProcess_res :
    (out (exec (.digiProcess 0#8 0#16) (withFrame node f1))).digiRes.word = 0x020C5102#32 := by decide +kernel
/-- P6: the first insertion, SRC>DST,N0CALL-1*:x. -/
theorem test_pathInsertNode :
    (out (exec (.pathInsertNode 2#8 0#16) (withFrame node f2))).fbs 7 17 =
      [0xA6#8, 0xA4#8, 0x86#8, 0x40#8, 0x40#8, 0x40#8, 0x60#8, 0x9C#8, 0x60#8, 0x86#8, 0x82#8, 0x98#8, 0x98#8, 0xE3#8, 0x03#8,
        0xF0#8, 0x78#8] := by decide +kernel
/-- V-D42: index 1 is no path index. -/
theorem test_pathInsertNode_badArg :
    (out (exec (.pathInsertNode 1#8 0#16) (pending (withFrame node f2) 0x00000131#32))).status.word = 0x00310206#32 := by
  decide +kernel
/-- V-D45. -/
theorem test_pathOverwriteNode :
    (out (exec (.pathOverwriteNode 2#8 0#16) (withFrame node f8))).fbs 14 7 =
      [0x9C#8, 0x60#8, 0x86#8, 0x82#8, 0x98#8, 0x98#8, 0xE3#8] := by decide +kernel
/-- V-D46: no path entry. -/
theorem test_pathOverwriteNode_badArg :
    (out (exec (.pathOverwriteNode 2#8 0#16) (pending (withFrame node f2) 0x00000232#32))).status.word = 0x00320206#32 := by
  decide +kernel
/-- P4: the engine step of CSMA_ACQUIRE. -/
theorem test_csmaAcquire :
    (out (exec (.csmaAcquire 0#8 0#16) (pending State.reset 0x40#32))).readReg 0x070 = 0x01000000#32 := by decide
/-- P4: the granting sample event; CSMA_INFO and STATUS. -/
theorem test_sample_grant :
    (({ waiting State.reset 3#16 0xBF#8 with arb := ⟨2#16, 1#8, .wait⟩ } : State).sampleEvent false 0xC0#8).readReg 0x070 =
        0x00020003#32 ∧
      (({ waiting State.reset 3#16 0xBF#8 with arb := ⟨2#16, 1#8, .wait⟩ } : State).sampleEvent false 0xC0#8).status.word =
        0x0040000A#32 := by decide
/-- V-S3: a draw that equals PERSIST fails. -/
theorem test_sample_retry :
    (({ waiting State.reset 3#16 0xBF#8 with arb := ⟨2#16, 0#8, .wait⟩ } : State).sampleEvent false 0xBF#8).arb =
      ⟨0#16, 1#8, .wait⟩ := by decide

/-! ### The bus -/

/-- V-X12. -/
theorem test_reads_after_reset :
    [0x000, 0x004, 0x008, 0x02C].map State.reset.readReg = [0x35325841#32, 0x00010000#32, 0x1E03FF04#32, 0x000ABF00#32] := by
  decide
/-- P1: NODE as written and as read back. -/
theorem test_node_registers : node.readReg 0x024 = 0x8286609C#32 ∧ node.readReg 0x028 = 0x00629898#32 := by decide
/-- V-S9: SLOT_SAMPLES = 0 stores 1 (R33). -/
theorem test_slot_samples : (State.reset.hostAccess (.write32 0x02C#10 0x0000BF00#32)).readReg 0x02C = 0x0001BF00#32 := by
  decide
/-- V-X8: a misaligned 32-bit access. -/
theorem test_misaligned :
    (State.reset.hostAccess (.read32 0x102#10)).status.word = 0x00000040#32 := by decide
/-- V-X13: a slot that is not built reads 0, and so does an empty one. -/
theorem test_dup_window : State.reset.readWord 0x090 = 0#32 ∧ State.reset.readWord 0x0A0 = 0#32 ∧
    { State.reset with table := tableK1 }.readWord 0x088 = 0x6E91#32 := by decide
/-- P4: the last write clears the W1C bits and leaves GRANT. -/
theorem test_status_w1c :
    ({ Status.zero with done := true, grant := true, overrun := true, wbusy := true, lastop := 0x40#8 } : Status).word =
        0x0040003A#32 ∧
      (({ Status.zero with done := true, grant := true, overrun := true, wbusy := true, lastop := 0x40#8 } :
        Status).writeOneToClear 0x7E#32).word = 0x00400008#32 := by decide
/-- V-X11: the soft reset abandons a wait, without DONE. -/
theorem test_soft_reset :
    ((waiting State.reset 3#16 0#8).hostAccess (.write32 0x00C#10 0x03#32)).status.word = 0#32 ∧
      ((waiting State.reset 3#16 0#8).hostAccess (.write32 0x00C#10 0x03#32)).engine = .idle := by decide
/-- R113: the placed word runs at the very next step. -/
theorem test_withFetchWord : (out (step (State.reset.withFetchWord 32 0x00))).status.word = 0x00000002#32 := by decide

/-! ### The per-command family -/

/-- R91 and the table's masks: the row test takes exactly the well-formed words. -/
theorem test_encodeRow : Laws.EncodeRow.Statement (.callEncode 0#8 9#16) ∧
    (encode (.callEncode 0#8 9#16) &&& 0x0000FFFF#32) = 0x00000002#32 :=
  ⟨Laws.EncodeRow.callEncode 0#8 9#16, by decide⟩

/-! ### The statements' hypotheses are met

One theorem per statement (per clause where a statement has several): concrete states and operands that meet its hypotheses. -/

/-- The frame of a state has this shape. -/
theorem shape {s : State} {n : Nat} (h : s.validate = .ok n) : FrameShape s n := (State.validate_eq_ok s).mp h

theorem ferr {s : State} {e : FrameErr} (h : s.validate = .error e) : FrameError s e := (State.validate_eq_error s).mp h

theorem fresh {t : List Slot} {cs : Half} (h : lookupTable cs t = none) : ∀ i, ¬ LiveAt t cs i := lookupTable_eq_none.mp h

theorem inserts {t : List Slot} {now : Word} {i : Nat} {ev : Bool} (hn : t ≠ []) (h : insertIndex now t = (i, ev)) :
    InsertsAt t now i ev := by
  have := insertIndex_spec now t hn
  rwa [h] at this

theorem witness_EveryWordIsOneCommandOrReserved :
    decode 0x00090002#32 = .ok (.callEncode 0#8 9#16) ∧ decode 0xFFFFFFFF#32 = .error (.reservedOpcode 0xFF#8) := by decide

theorem witness_EngineStepRunsThePendingCommand :
    (pending State.reset 0x00090002#32).engine = .pending ∧
      decode (pending State.reset 0x00090002#32).pend = .ok (.callEncode 0#8 9#16) ∧
      (pending State.reset 0x00090002#32).schedule = [] ∧
      decode (pending State.reset 0x05#32).pend = .error (.reservedOpcode 5#8) ∧
      (pending State.reset 0x40#32).pend = 0x40#32 ∧ State.reset.engine ≠ .pending := by decide

theorem witness_CmdWriteIssuesOrOverruns :
    State.reset.status.busy = false ∧ (pending State.reset 0#32).status.busy = true := by decide

theorem witness_UnusedArgumentFieldFails :
    ((Instr.callEncode 1#8 0#16).argA ≠ 0#8 ∧ (Instr.callEncode 1#8 0#16).opcode ≠ 0x31#8 ∧
        (Instr.callEncode 1#8 0#16).opcode ≠ 0x32#8) ∧
      ((Instr.pathInsertNode 2#8 1#16).argB ≠ 0#16 ∧ (Instr.pathInsertNode 2#8 1#16).opcode ≠ 0x02#8) := by decide

/-- Also of ErrorCodesFollowTheRaiseMatrix and ExecutedCommandCompletesOrFails. -/
theorem witness_FailureChangesOnlyStatus :
    (pending State.reset 0x05#32).engine = .pending ∧ (pending State.reset 0x05#32).status.err = false ∧
      (pending State.reset 0x05#32).status.errcode = .noError ∧
      step (before .engine (pending State.reset 0x05#32)) = .next (failed (pending State.reset 0x05#32) .badOpcode) ∧
      (failed (pending State.reset 0x05#32) .badOpcode).status.err = true := by
  exact ⟨rfl, rfl, rfl, rfl, rfl⟩

/-- Also of TickMovesByItsEventsAndCommandsReadTheSnapshot. NOP and FRAME_TO_TEXT between them are outside every list of the statement. -/
theorem witness_CommandsWriteOnlyTheirOwnState :
    State.reset.params.wf = true ∧ exec (.nop 0#8 0#16) State.reset = .next (completed State.reset) ∧
      (Instr.nop 0#8 0#16).opcode ∉ [0x21#8, 0x22#8, 0x23#8, 0x30#8, 0x12#8, 0x31#8, 0x32#8, 0x10#8, 0x11#8] ∧
      (Instr.nop 0#8 0#16).opcode ≠ 0x02#8 ∧ (Instr.nop 0#8 0#16).opcode ≠ 0x01#8 ∧
      (Instr.nop 0#8 0#16).opcode ≠ 0x20#8 ∧ (Instr.nop 0#8 0#16).opcode ≠ 0x40#8 := by
  exact ⟨by decide, rfl, by simp [Instr.opcode], by simp [Instr.opcode], by simp [Instr.opcode], by simp [Instr.opcode],
    by simp [Instr.opcode]⟩

theorem witness_NopOnlyCompletes :
    (pending State.reset 0#32).engine = .pending ∧ (pending State.reset 0#32).pend = 0x00000000#32 := by decide

/-- All six characters, and none: V-C1 and V-C7. -/
theorem witness_CallDecodeGivesTheCallText :
    (∀ m, 6 = m + 1 → node.node.call.getD m 0#8 >>> 1 ≠ 0x20#8) ∧
      (∀ i, 0 ≤ i → i < 6 → [0x40#8, 0x40#8, 0x40#8, 0x40#8, 0x40#8, 0x40#8].getD i 0#8 >>> 1 = 0x20#8) := by
  refine ⟨fun m hm => ?_, fun i _ hi => ?_⟩
  · obtain rfl : m = 5 := by omega
    decide
  · interval_cases i <;> decide

/-- V-E19 with its parts, and the bounds of TLEN and the cursor. -/
theorem witness_CallEncodeReadsTheLongestCall :
    (withText State.reset (ascii "N0CALL-1*,X")).tbs 0 11 =
        ascii "N0CALL" ++ (if true then 0x2D#8 :: ascii "1" else []) ++ (if true then [0x2A#8] else []) ++ ascii ",X" ∧
      (withText State.reset (ascii "N0CALL-1*,X")).tlen.toNat = 11 ∧ (ascii "N0CALL").length ≤ 6 ∧
      (∀ c ∈ ascii "N0CALL", isAlnum c = true) ∧ (∀ c ∈ ascii "1", isDigit c = true) ∧
      512 < (513#16).toNat ∧ (512#16).toNat ≤ 512 ∧ (8#16).toNat < (9#16).toNat := by decide +kernel

/-- The stops of each part: V-E12, V-E2, V-E18. -/
theorem witness_CallEncodeReadsTheLongestCall_stops :
    (∀ c ∈ (ascii ",X").head?, isAlnum c = false ∧ c ≠ 0x2D#8 ∧ isDigit c = false ∧ c ≠ 0x2A#8) ∧
      (withText State.reset (ascii "A-B")).tbs 0 3 =
        ascii "A" ++ (if true then 0x2D#8 :: [] else []) ++ (if false then [0x2A#8] else []) ++ ascii "B" := by
  decide +kernel

/-- A call text that ends at the end of the text, from a cursor that is not 0. -/
theorem witness_CallTextRoundTrips :
    (withText State.reset (ascii ",abc-15")).tbs 1 (7 - 1) = (⟨ascii "abc", 15⟩ : CallText).chars ∧
      (⟨ascii "abc", 15⟩ : CallText).call.length ≤ 6 ∧ (∀ x ∈ (⟨ascii "abc", 15⟩ : CallText).call, isAlnum x = true) ∧
      (withText State.reset (ascii ",abc-15")).tlen.toNat = 7 := by decide +kernel

/-- V-F23's shape and V-F33's: two and ten address fields. -/
theorem witness_FrameValidateReportsTheGeometry :
    FrameShape (withFrame State.reset (padFrame 0 0x60#8 0x61#8)) 2 ∧
      FrameShape (withFrame State.reset (padFrame 8 0x60#8 0x61#8)) 10 :=
  ⟨shape (by decide +kernel), shape (by decide +kernel)⟩

/-- V-F24, V-F26, V-F25, V-F28, V-F29, V-F30, V-F31 and V-F35: every error, the first in both its forms. -/
theorem witness_MalformedFramesAreRefusedOrDropped :
    FrameError (withFrame State.reset ((padFrame 0 0x60#8 0x61#8).take 15)) .tooShort ∧
      FrameError (withFrame State.reset ((padFrame 1 0x60#8 0x61#8).take 22)) .tooShort ∧
      FrameError (withFrame State.reset (padFrame 0 0x60#8 0x60#8)) .misaligned ∧
      FrameError (withFrame State.reset (List.replicate 16 0x40#8)) .noTerminal ∧
      FrameError (withFrame State.reset (List.replicate 6 0x40#8 ++ [0x61#8] ++ List.replicate 9 0x40#8)) .tooFewAddr ∧
      FrameError (withFrame State.reset (padFrame 9 0x60#8 0x61#8)) .tooManyAddr ∧
      FrameError (withFrame State.reset ((padFrame 0 0x60#8 0x61#8).set 14 0x13#8)) .notUi ∧
      FrameError { State.reset with flen := 256#16 } .tooLong :=
  ⟨ferr (by decide +kernel), ferr (by decide +kernel), ferr (by decide +kernel), ferr (by decide +kernel),
    ferr (by decide +kernel), ferr (by decide +kernel), ferr (by decide +kernel), ferr (by decide +kernel)⟩

theorem witness_FrameToTextWritesTheMonitorText :
    (withFrame State.reset d1).params.wf = true ∧ FrameShape (withFrame State.reset d1) 4 :=
  ⟨by decide, shape (by decide +kernel)⟩

/-- V-F9's text with its parts; and MAX_FRAME_LEN below its frame's length. -/
theorem witness_TextToFrameWritesTheFrame :
    (withText State.reset (ascii "SRC>DST,N0CALL-1*,WIDE2-1:payload")).text =
        ascii "SRC" ++ 0x3E#8 :: ascii "DST" ++
          [ascii "N0CALL-1*", ascii "WIDE2-1"].flatMap (fun p => 0x2C#8 :: p) ++ 0x3A#8 :: ascii "payload" ∧
      (withText State.reset (ascii "SRC>DST,N0CALL-1*,WIDE2-1:payload")).tlen.toNat ≤ 512 ∧
      0x3E#8 ∉ ascii "SRC" ∧ (0x2C#8 ∉ ascii "DST" ∧ 0x3A#8 ∉ ascii "DST") ∧
      (∀ p ∈ [ascii "N0CALL-1*", ascii "WIDE2-1"], 0x2C#8 ∉ p ∧ 0x3A#8 ∉ p) ∧
      7 * 4 + 2 + (ascii "payload").length ≤ State.reset.params.maxFrameLen ∧
      ({ Config.defaultParams with maxFrameLen := 36 } : Config.Params).wf = true ∧
      36 < 7 * 4 + 2 + (ascii "payload").length := by decide +kernel

/-- V-F22, V-F16, V-F18 and V-F19. -/
theorem witness_TextToFrameFailures :
    512 < ({ State.reset with tlen := 513#16 } : State).tlen.toNat ∧
      0x3E#8 ∉ (withText State.reset (ascii "SRCDST:x")).text ∧
      (withText State.reset (ascii "SRC>DST")).text = ascii "SRC" ++ 0x3E#8 :: ascii "DST" ∧ 0x3E#8 ∉ ascii "SRC" ∧
      0x3A#8 ∉ ascii "DST" ∧ (ascii "DST").count 0x2C#8 ≤ 8 ∧
      (withText State.reset (ascii "A>B,1,2,3,4,5,6,7,8,9:x")).text =
        ascii "A" ++ 0x3E#8 :: (ascii "B,1,2,3,4,5,6,7,8" ++ 0x2C#8 :: ascii "9:x") ∧
      0x3A#8 ∉ ascii "B,1,2,3,4,5,6,7,8" ∧ (ascii "B,1,2,3,4,5,6,7,8").count 0x2C#8 = 8 := by decide +kernel

theorem witness_TextToFrameLeavesAValidFrame :
    (withText State.reset (ascii "SRC>DST:x")).params.wf = true ∧
      exec (.textToFrame 0#8 0#16) (withText State.reset (ascii "SRC>DST:x")) =
        .next (out (exec (.textToFrame 0#8 0#16) (withText State.reset (ascii "SRC>DST:x")))) ∧
      (out (exec (.textToFrame 0#8 0#16) (withText State.reset (ascii "SRC>DST:x")))).status.err = false := by
  refine ⟨by decide, ?_, by decide +kernel⟩
  simp only [exec, execTextToFrame_cases, out]

/-- V-D1's text: an entry with a star and one without. -/
theorem witness_MonitorTextRoundTrips :
    (withText State.reset (ascii "SRC>DST,N0CALL-1*,WIDE2-1:payload")).text =
        Spec.monitorText ⟨ascii "SRC", 0⟩ ⟨ascii "DST", 0⟩ [(⟨ascii "N0CALL", 1⟩, true), (⟨ascii "WIDE2", 1⟩, false)]
          (ascii "payload") ∧
      (⟨ascii "SRC", 0⟩ : CallText).canonical ∧ (⟨ascii "DST", 0⟩ : CallText).canonical ∧
      (∀ p ∈ [((⟨ascii "N0CALL", 1⟩ : CallText), true), (⟨ascii "WIDE2", 1⟩, false)], p.1.canonical) ∧
      7 * (2 + 2) + 2 + (ascii "payload").length ≤ State.reset.params.maxFrameLen := by
  unfold CallText.canonical
  decide +kernel

/-- V-R18's region, the longest, and V-R17's, which is one byte too long. -/
theorem witness_Crc16ChecksumsTheRegion :
    (256#16 : Half).toNat + (0#16 : Half).toNat ≤ 256 ∧ 256 < (250#16 : Half).toNat + (7#16 : Half).toNat := by decide

theorem witness_CrcTakesEveryBitInOrder : crc ([1#8] ++ 2#8 :: [3#8]) = crc ([1#8] ++ 2#8 :: [3#8]) := rfl

/-- V-K2 at 32 (B hits in slot 1, nothing is swept) and at 33 (B misses). Also of DupCheckRecordChecksThenRecords. -/
theorem witness_DupCheckReportsTheFirstLiveMatch :
    LiveAt (swept 32#32 tableK1) (crc (ascii "B")) 1 ∧ (∀ j, j < 1 → ¬ LiveAt (swept 32#32 tableK1) (crc (ascii "B")) j) ∧
      (∀ i, ¬ LiveAt (swept 33#32 tableK1) (crc (ascii "B")) i) ∧
      (withRegion State.reset (ascii "B")).rgn.off.toNat + (withRegion State.reset (ascii "B")).rgn.len.toNat ≤ 256 := by
  have h := (lookupTable_eq_some (cs := crc (ascii "B")) (t := swept 32#32 tableK1) (i := 1)).mp (by decide +kernel)
  exact ⟨h.1, h.2, fresh (by decide +kernel), by decide +kernel⟩

/-- V-K1's first record (an empty slot) and V-K2's E (an eviction). Also of DupCheckRecordChecksThenRecords. -/
theorem witness_DupRecordWritesOneSlot :
    State.reset.table ≠ [] ∧ InsertsAt (swept 1#32 State.reset.table) 1#32 0 false ∧
      InsertsAt (swept 5#32 tableK1) 5#32 0 true :=
  ⟨by decide, inserts (by decide +kernel) (by decide +kernel), inserts (by decide +kernel) (by decide +kernel)⟩

theorem witness_DupCheckIsIdempotent : ∃ t, exec (.dupCheck 0#8 0#16) (withRegion State.reset (ascii "A")) = .next t :=
  ⟨_, execDupCheck_cases _ _ _⟩

/-- S3 with one slot: A at tick 1, then B at tick 2 (V-K7). -/
theorem witness_EvictionKeepsTheLatestRecords :
    ∃ (st : Nat → State) (cs : Nat → Half) (d : Nat → Nat),
      (∀ i j, i < j → j ≤ 1 → d i < d j) ∧ d 1 ≤ d 0 + (30#32).toNat ∧ (30#32).toNat < 2 ^ 31 ∧
      (∀ i j, i ≤ 1 → j ≤ 1 → cs i = cs j → i = j) ∧
      (∀ k, k ≤ 1 → (st k).tickSnap = 0#32 + BitVec.ofNat 32 (d k) ∧ (st k).dupWindow = 30#32 ∧
        0#32 + BitVec.ofNat 32 (d k) + 30#32 ≠ 0#32 ∧ (st k).rgn.off.toNat + (st k).rgn.len.toNat ≤ 256 ∧
        crc ((st k).fbs (st k).rgn.off.toNat (st k).rgn.len.toNat) = cs k) ∧
      (st 0).table = List.replicate 1 ⟨0#16, 0#32⟩ ∧
      ∀ k, k < 1 → ∃ t, exec (.dupRecord 0#8 0#16) (st k) = .next t ∧ (st (k + 1)).table = t.table := by
  refine ⟨fun k => if k = 0 then { withRegion State.reset (ascii "A") with tickSnap := 1#32, table := [Slot.empty] }
      else { withRegion State.reset (ascii "B") with tickSnap := 2#32, table := [⟨0x5C0A#16, 31#32⟩] },
    fun k => if k = 0 then 0x5C0A#16 else 0x6E91#16, fun k => k + 1, fun i j h _ => Nat.succ_lt_succ h, by decide, by decide, ?_, ?_,
    by decide, ?_⟩
  · intro i j hi hj
    interval_cases i <;> interval_cases j <;> decide
  · intro k hk
    interval_cases k <;> decide +kernel
  · intro k hk
    interval_cases k
    exact ⟨_, execDupRecord_cases _ _ _, by decide +kernel⟩

/-- V-K5. -/
theorem witness_DeadlineThatWrapsToZeroIsEmpty :
    State.reset.table ≠ [] ∧ 0xFFFFFFE2#32 + State.reset.dupWindow = 0#32 ∧
      (∀ i, ¬ LiveAt (swept 0xFFFFFFE2#32 State.reset.table) (crc (ascii "A")) i) ∧
      ∃ t, exec (.dupRecord 0#8 0#16) { withRegion State.reset (ascii "A") with tickSnap := 0xFFFFFFE2#32 } = .next t :=
  ⟨by decide, by decide, fresh (by decide +kernel), _, execDupRecord_cases _ _ _⟩

/-- A frame from the node itself: N0CALL-1>DST:x. -/
def ownFrame : List Byte := f2.take 7 ++ [0x9C#8, 0x60#8, 0x86#8, 0x82#8, 0x98#8, 0x98#8, 0x63#8] ++ f2.drop 14

theorem witness_OwnAndDuplicateFramesAreDropped_own :
    FrameShape (withFrame node ownFrame) 2 ∧ ((withFrame node ownFrame).field 1).call = node.node.call ∧
      ((withFrame node ownFrame).field 1).sb &&& node.params.selfMask = node.node.sb &&& node.params.selfMask :=
  ⟨shape (by decide +kernel), by decide +kernel, by decide +kernel⟩

/-- V-D2's table: the payload's checksum is live. -/
theorem witness_OwnAndDuplicateFramesAreDropped_duplicate :
    FrameShape (withFrame { node with table := [⟨0xBD3B#16, 0x406#32⟩] } f1) 3 ∧
      NotSelf (withFrame { node with table := [⟨0xBD3B#16, 0x406#32⟩] } f1) ∧
      LiveAt (swept 1000#32 [⟨0xBD3B#16, 0x406#32⟩])
        (crc (payloadOf (withFrame { node with table := [⟨0xBD3B#16, 0x406#32⟩] } f1) 3)) 0 :=
  ⟨shape (by decide +kernel), State.isSelf_eq_false.mp (by decide +kernel),
    (lookupTable_eq_some.mp (by decide +kernel)).1⟩

/-- V-D25's frame: its message has the tag of V-D27. -/
def messageFrame (rem : List Byte) : List Byte := f2.take 16 ++ ascii ":N0CALL-1 :" ++ rem

/-- V-D25: `hello`, the brace 0x7B, `42`. -/
theorem witness_DirectedMessageIsReported :
    FrameShape (withFrame node (messageFrame (ascii "hello" ++ [0x7B#8] ++ ascii "42"))) 2 ∧
      NotSelf (withFrame node (messageFrame (ascii "hello" ++ [0x7B#8] ++ ascii "42"))) ∧
      (∀ i, ¬ LiveAt (swept 1000#32 node.table)
        (crc (payloadOf (withFrame node (messageFrame (ascii "hello" ++ [0x7B#8] ++ ascii "42"))) 2)) i) ∧
      payloadOf (withFrame node (messageFrame (ascii "hello" ++ [0x7B#8] ++ ascii "42"))) 2 =
        msgPfx node.node ++ (ascii "hello" ++ 0x7B#8 :: ascii "42" ++ []) ∧
      (∀ c ∈ ascii "42", isDigit c = true) ∧ (∀ j, j < 5 → (ascii "hello")[j]? ≠ some 0x7B#8) :=
  ⟨shape (by decide +kernel), State.isSelf_eq_false.mp (by decide +kernel), fresh (by decide +kernel), by decide +kernel,
    by decide +kernel, by decide +kernel⟩

/-- V-D26: no brace. -/
theorem witness_DirectedMessageIsReported_noTag :
    payloadOf (withFrame node (messageFrame (ascii "hello"))) 2 = msgPfx node.node ++ ascii "hello" ∧
      ∀ j, j < 5 → (ascii "hello")[j]? ≠ some 0x7B#8 := by decide +kernel

/-- A frame passes steps 1 to 4. -/
theorem reaches {s : State} {n : Nat} (h1 : s.validate = .ok n) (h2 : s.isSelf = false)
    (h3 : lookupTable (crc (payloadOf s n)) (swept s.tickSnap s.table) = none)
    (h4 : startsWith (payloadOf s n) (msgPfx s.node) = false) : ReachesRules s n :=
  ⟨shape h1, State.isSelf_eq_false.mp h2, fresh h3, fun h => by rw [startsWith_iff _ _ |>.mpr h] at h4; cases h4⟩

/-- V-D7's frame: no path, destination SSID 1. -/
def destFrame : List Byte :=
  [0x82#8, 0xA0#8, 0xB4#8, 0x40#8, 0x40#8, 0x40#8, 0x62#8] ++ f2.drop 7

/-- V-D6's frame: the destination SSID is 2, and the first path entry is not repeated. -/
def destPathFrame : List Byte :=
  [0x82#8, 0xA0#8, 0xB4#8, 0x88#8, 0x8E#8, 0x64#8, 0x64#8] ++ f1.drop 7

/-- V-D6 (insertion at 2, before a path entry) and V-D7 (insertion at 2 = NADDR, no path). -/
theorem witness_DestinationSsidDigipeats :
    (ReachesRules (withFrame node destPathFrame) 3 ∧ DestApplies (withFrame node destPathFrame) ∧
        HasRoom (withFrame node destPathFrame) 3 ∧ InsertionPoint (withFrame node destPathFrame) 3 2) ∧
      (ReachesRules (withFrame node destFrame) 2 ∧ DestApplies (withFrame node destFrame) ∧
        HasRoom (withFrame node destFrame) 2 ∧ InsertionPoint (withFrame node destFrame) 2 2) ∧
      InsertsAt (swept 1000#32 node.table) 1000#32 0 false := by
  refine ⟨⟨reaches (by decide +kernel) (by decide +kernel) (by decide +kernel) (by decide +kernel),
    by unfold DestApplies; decide +kernel, by unfold HasRoom; decide +kernel, ?_⟩,
    ⟨reaches (by decide +kernel) (by decide +kernel) (by decide +kernel) (by decide +kernel),
      by unfold DestApplies; decide +kernel, by unfold HasRoom; decide +kernel, ?_⟩,
    inserts (by decide +kernel) (by decide +kernel)⟩
  · exact ⟨le_rfl, by decide, fun j h1 h2 => by omega, fun _ => by decide +kernel⟩
  · exact ⟨le_rfl, le_rfl, fun j h1 h2 => by omega, fun h => absurd h (by decide)⟩

/-- V-D1: WIDE2-2 in the first path entry. -/
theorem witness_WideHopInsertsTheNode :
    ReachesRules (withFrame node f1) 3 ∧ ¬ DestApplies (withFrame node f1) ∧ Candidate (withFrame node f1) 3 2 ∧
      IsWide 3#4 ((withFrame node f1).field 2) 2 ∧ 2 ≤ ((withFrame node f1).field 2).ssid.toNat ∧
      HasRoom (withFrame node f1) 3 ∧ InsertsAt (swept 1000#32 node.table) 1000#32 0 false :=
  ⟨reaches (by decide +kernel) (by decide +kernel) (by decide +kernel) (by decide +kernel),
    by unfold DestApplies; decide +kernel, State.candidate_eq_some.mp (by decide +kernel), by unfold IsWide; decide +kernel,
    by decide +kernel, by unfold HasRoom; decide +kernel, inserts (by decide +kernel) (by decide +kernel)⟩

/-- V-F8: WIDE1-1. -/
theorem witness_LastWideHopIsOverwritten :
    ReachesRules (withFrame node f8) 3 ∧ ¬ DestApplies (withFrame node f8) ∧ Candidate (withFrame node f8) 3 2 ∧
      IsWide 3#4 ((withFrame node f8).field 2) 1 ∧ ((withFrame node f8).field 2).ssid.toNat = 1 ∧
      InsertsAt (swept 1000#32 node.table) 1000#32 0 false :=
  ⟨reaches (by decide +kernel) (by decide +kernel) (by decide +kernel) (by decide +kernel),
    by unfold DestApplies; decide +kernel, State.candidate_eq_some.mp (by decide +kernel), by unfold IsWide; decide +kernel,
    by decide +kernel, inserts (by decide +kernel) (by decide +kernel)⟩

/-- The frame of eight repeated path entries, and with a destination SSID of 1. -/
def fullDest : List Byte := (padFrame 8 0xE0#8 0xE1#8).set 6 0x62#8

/-- A build with MAX_FRAME_LEN 30, which V-D1's frame just fills. -/
def shortNode : State := { node with params := { Config.defaultParams with maxFrameLen := 30 } }

/-- A path whose last entry is WIDE2-2, after seven repeated ones. -/
def fullWide : List Byte :=
  List.replicate 6 0x40#8 ++ [0x60#8] ++ List.replicate 6 0x40#8 ++ [0x60#8] ++
    (List.replicate 7 (List.replicate 6 0x40#8 ++ [0xE0#8])).flatten ++
      [0xAE#8, 0x92#8, 0x88#8, 0x8A#8, 0x64#8, 0x40#8, 0x65#8, 0x03#8, 0xF0#8]

/-- The step 6 clauses: no room in the path, and none in the frame. -/
theorem witness_RuleDropsAndTheBeaconTrigger_dest :
    ReachesRules (withFrame node fullDest) 10 ∧ DestApplies (withFrame node fullDest) ∧
      ReachesRules (withFrame shortNode destPathFrame) 3 ∧ DestApplies (withFrame shortNode destPathFrame) ∧
      shortNode.params.maxFrameLen < (withFrame shortNode destPathFrame).flen.toNat + 7 :=
  ⟨reaches (by decide +kernel) (by decide +kernel) (by decide +kernel) (by decide +kernel),
    by unfold DestApplies; decide +kernel,
    reaches (by decide +kernel) (by decide +kernel) (by decide +kernel) (by decide +kernel),
    by unfold DestApplies; decide +kernel, by decide +kernel⟩

/-- The steps 7 and 8 clauses: no path, a path all repeated, and a candidate that is no WIDEn-N (V-D8's neighbour). -/
theorem witness_RuleDropsAndTheBeaconTrigger_path :
    ReachesRules (withFrame node f2) 2 ∧ ¬ DestApplies (withFrame node f2) ∧
      ReachesRules (withFrame node (padFrame 8 0xE0#8 0xE1#8)) 10 ∧
      (∀ k, 2 ≤ k → k < 10 → ((withFrame node (padFrame 8 0xE0#8 0xE1#8)).field k).h = true) ∧
      ReachesRules (withFrame node (padFrame 1 0x60#8 0x61#8)) 3 ∧ Candidate (withFrame node (padFrame 1 0x60#8 0x61#8)) 3 2 ∧
      (∀ w, ¬ IsWide 3#4 ((withFrame node (padFrame 1 0x60#8 0x61#8)).field 2) w) :=
  ⟨reaches (by decide +kernel) (by decide +kernel) (by decide +kernel) (by decide +kernel),
    by unfold DestApplies; decide +kernel,
    reaches (by decide +kernel) (by decide +kernel) (by decide +kernel) (by decide +kernel),
    State.candidate_eq_none.mp (by decide +kernel),
    reaches (by decide +kernel) (by decide +kernel) (by decide +kernel) (by decide +kernel),
    State.candidate_eq_some.mp (by decide +kernel), fun w h =>
      absurd ((wideMatch_iff _ _ (by decide +kernel)).mpr ⟨w, h⟩) (by decide +kernel)⟩

/-- The WIDEn-N clauses: no room in the path, and none in the frame. -/
theorem witness_RuleDropsAndTheBeaconTrigger_wide :
    ReachesRules (withFrame node fullWide) 10 ∧ ¬ DestApplies (withFrame node fullWide) ∧
      Candidate (withFrame node fullWide) 10 9 ∧ IsWide 3#4 ((withFrame node fullWide).field 9) 2 ∧
      2 ≤ ((withFrame node fullWide).field 9).ssid.toNat ∧
      ReachesRules (withFrame shortNode f1) 3 ∧ ¬ DestApplies (withFrame shortNode f1) ∧
      Candidate (withFrame shortNode f1) 3 2 ∧ IsWide 3#4 ((withFrame shortNode f1).field 2) 2 ∧
      shortNode.params.maxFrameLen < (withFrame shortNode f1).flen.toNat + 7 :=
  ⟨reaches (by decide +kernel) (by decide +kernel) (by decide +kernel) (by decide +kernel),
    by unfold DestApplies; decide +kernel, State.candidate_eq_some.mp (by decide +kernel),
    by unfold IsWide; decide +kernel, by decide +kernel,
    reaches (by decide +kernel) (by decide +kernel) (by decide +kernel) (by decide +kernel),
    by unfold DestApplies; decide +kernel, State.candidate_eq_some.mp (by decide +kernel),
    by unfold IsWide; decide +kernel, by decide +kernel⟩

/-- Indexes 1, 2 and 3 of V-F2 (two fields) and any of a full path. Also of PathOverwriteReplacesTheEntry (indexes 1, 2 of V-F8). -/
theorem witness_PathInsertSplicesTheNode :
    FrameShape (withFrame node f2) 2 ∧ HasRoom (withFrame node f2) 2 ∧ (1#8).toNat < 2 ∧ 2 < (3#8).toNat ∧
      (2 ≤ (2#8).toNat ∧ (2#8).toNat ≤ 2) ∧ FrameShape (withFrame node fullDest) 10 ∧
      FrameShape (withFrame shortNode f1) 3 ∧ shortNode.params.wf = true ∧
      shortNode.params.maxFrameLen < (withFrame shortNode f1).flen.toNat + 7 ∧
      FrameShape (withFrame node f8) 3 ∧ (2 ≤ (2#8).toNat ∧ (2#8).toNat ≤ 3 - 1) ∧ 3 - 1 < (3#8).toNat :=
  ⟨shape (by decide +kernel), by unfold HasRoom; decide +kernel, by decide, by decide, by decide, shape (by decide +kernel),
    shape (by decide +kernel), by decide, by decide +kernel, shape (by decide +kernel), by decide, by decide⟩

/-- One for each of the three commands. -/
theorem witness_PathMutationsKeepTheFrameInvariant :
    FrameShape (withFrame node f8) 3 ∧ (∀ c ∈ node.node.call, c.getLsbD 0 = false) ∧
      (∀ i ∈ [Instr.digiProcess 0#8 0#16, .pathInsertNode 2#8 0#16, .pathOverwriteNode 2#8 0#16],
        i.opcode ∈ [0x30#8, 0x31#8, 0x32#8] ∧ (out (exec i (withFrame node f8))).status.err = false) :=
  ⟨shape (by decide +kernel), by decide, by decide +kernel⟩

/-- The counts before, at and after the slot's end; persistence 255 and its complement. -/
theorem witness_SampleEventsCountDrawAndGrant :
    State.reset.engine ≠ .csmaWait ∧ (waiting State.reset 3#16 0xBF#8).engine = .csmaWait ∧
      (0#16 : Half) + 1#16 ≠ 3#16 ∧ (2#16 : Half) + 1#16 = 3#16 ∧ (0xBF#8).toNat < (0xC0#8).toNat ∧
      (0xBF#8).toNat ≤ (0xBF#8).toNat := by decide

/-- V-S5 and V-S8. -/
theorem witness_WaitCanLastForever :
    (waiting State.reset 2#16 0xFF#8).engine = .csmaWait ∧ (waiting State.reset 2#16 0xFF#8).cfg.persist = 0xFF#8 ∧
      (∀ x ∈ [(true, 0#8), (true, 0xFF#8)], x.1 = true) ∧ (waiting State.reset 2#16 0xFF#8).arb.idleCnt = 0#16 :=
  ⟨rfl, rfl, by simp, rfl⟩

/-- V-S4's shape: with one idle sample to a slot, a failed draw and then the grant. Also of IdleSlotAndDrawGrant. -/
theorem witness_GrantNeedsAFullIdleSlot :
    (waiting State.reset 1#16 0#8).engine = .csmaWait ∧ (waiting State.reset 1#16 0#8).arb.idleCnt = 0#16 ∧
      (waiting State.reset 1#16 0#8).cfg.slotSamples ≠ 0#16 ∧
      (∃ u, Host.Core.run Sys2Proof.core 1 (beforeSamples [(false, 0#8)] (waiting State.reset 1#16 0#8)) = .next u ∧
        u.engine = .csmaWait) ∧
      (∃ t, Host.Core.run Sys2Proof.core 2 (beforeSamples [(false, 0#8), (false, 1#8)] (waiting State.reset 1#16 0#8)) =
        .next t ∧ t.engine ≠ .csmaWait) := by
  refine ⟨rfl, rfl, by decide, ⟨_, run_beforeSamples [(false, 0#8)] _, by decide⟩,
    _, run_beforeSamples [(false, 0#8), (false, 1#8)] _, by decide⟩

/-- A history of a busy and two idle samples with IDLE_CNT = 2, and the step that grants. -/
theorem witness_GrantNeedsAFullIdleSlot_step :
    (waiting State.reset 3#16 0xBF#8).status.busy = true ∧
      IdleTrail { waiting State.reset 3#16 0xBF#8 with arb := ⟨2#16, 0#8, .wait⟩ } [false, false, true] ∧
      (out (step (before (.sample false 0xC0#8) { waiting State.reset 3#16 0xBF#8 with arb := ⟨2#16, 0#8, .wait⟩ }))).status.grant =
        true := by
  refine ⟨rfl, ⟨by decide, by simp⟩, by decide⟩

/-- The wait's start and the last sample of a slot; both clauses of one slot of one sample. -/
theorem witness_DrawsGrantInTheStatedProportion :
    (waiting State.reset 1#16 0xBF#8).engine = .csmaWait ∧ (waiting State.reset 1#16 0xBF#8).arb.idleCnt = 0#16 ∧
      (waiting State.reset 1#16 0xBF#8).cfg.slotSamples ≠ 0#16 ∧
      (waiting State.reset 1#16 0xBF#8).arb.idleCnt + 1#16 = (waiting State.reset 1#16 0xBF#8).cfg.slotSamples := by decide

/-- R258: "p = 64/256" with the reset PERSIST. -/
theorem test_grantingDraws : grantingDraws 0xBF#8 = 64 ∧ grantingDraws 0xFF#8 = 0 := by
  simp [grantingDraws_eq]

/-- Ignored writes at the first and last read-only register and at the ends of the table window; a table write by bytes. -/
theorem witness_ReadsAndIgnoredWritesChangeNothing :
    0x000#10 ∈ readOnly ∧ 0x07C#10 ∈ readOnly ∧ (0x080#10).toNat % 4 = 0 ∧ (0x0FC#10).toNat < 0x100 ∧
      0x80 ≤ (0x080#10).toNat ∧ (0x0FF#10).toNat < 0x100 ∧ 0x00C#10 ∉ readOnly := by decide

/-- A CALLP write while BUSY = 1 (log entry 10), and a tick that wraps (R51). -/
theorem test_callp_while_busy_and_tick_wrap :
    (out (step (before (.host (.write32 0x040#10 0xAB62CDEF#32)) (pending State.reset 0#32)))).callp =
        ⟨0#8, 0#8, 0#8, 0#8, 0xEF#8, 0xCD#8, 0x62#8⟩ ∧
      (out (step (before (.tick 0x19#32) { State.reset with tick := 0xFFFFFFF0#32 }))).tick = 0x9#32 := by decide

theorem witness_IdleSlotAndDrawGrant :
    (waiting State.reset 3#16 0xBF#8).engine = .csmaWait ∧
      (waiting State.reset 3#16 0xBF#8).arb.idleCnt.toNat + [(false, 0#8), (false, 0xFF#8)].length + 1 =
        (waiting State.reset 3#16 0xBF#8).cfg.slotSamples.toNat ∧
      (∀ x ∈ [(false, 0#8), (false, 0xFF#8)], x.1 = false) ∧ (0xBF#8).toNat < (0xC0#8).toNat :=
  ⟨rfl, by decide, by simp, by decide⟩

theorem witness_WaitEndsOnlyByGrantOrReset :
    (waiting State.reset 3#16 0xBF#8).engine = .csmaWait ∧ (waiting State.reset 3#16 0xBF#8).status.busy = true ∧
      step (before .hardReset (waiting State.reset 3#16 0xBF#8)) = .next (waiting State.reset 3#16 0xBF#8).hardReset :=
  ⟨rfl, rfl, rfl⟩

theorem witness_WritesWhileBusyAreDropped :
    (pending State.reset 0#32).status.busy = true ∧ (0x100 ≤ (0x100#10).toNat ∧ (0x100#10).toNat % 4 = 0) ∧
      (0x100 ≤ (0x3FC#10).toNat ∧ (0x3FC#10).toNat % 4 = 0) ∧ 0x100 ≤ (0x3FF#10).toNat := by decide

/-- Also of ReadsShowTheFields: the first and last offsets. -/
theorem witness_BufferWritesAreLittleEndian :
    State.reset.status.busy = false ∧ 0x100 ≤ (0x100#10).toNat ∧ (0x100#10).toNat % 4 = 0 ∧ (0x3FC#10).toNat % 4 = 0 ∧
      0x80 ≤ (0x080#10).toNat ∧ 0x80 ≤ (0x3FF#10).toNat ∧ State.reset.table[3]? = some ⟨0#16, 0#32⟩ ∧
      State.reset.table[4]? = none := by decide

/-- Also of ConfigurationWritesAreStored: BUSY = 0 after reset. Each form at an offset it is refused at. -/
theorem witness_UnsupportedAccessesAreRefused :
    (0x3FF#10).toNat % 4 ≠ 0 ∧ (0x001#10).toNat % 4 ≠ 0 ∧ (0x07F#10).toNat < 0x80 ∧ (0x000#10).toNat < 0x80 ∧
      State.reset.status.busy = false := by decide

/-- Each bit set, and cleared by the write, the soft reset and the hard reset. -/
theorem witness_StickyBitsStayUntilCleared :
    ∀ e ∈ [Event.host (.write32 0x010#10 0x70#32), .host (.write32 0x00C#10 0x02#32), .hardReset],
      (out (step (before e { State.reset with
        status := { Status.zero with overrun := true, wbusy := true, buserr := true } }))).status = Status.zero := by
  decide

theorem witness_CtrlWritesAndResets : (0x03#32 : Word).getLsbD 1 = true ∧ (0x05#32 : Word).getLsbD 1 = false := by decide

/-- A state that meets the invariant inside a wait. -/
theorem witness_EveryStepKeepsTheInvariant : Inv (waiting node 3#16 0xBF#8) where
  build := by decide
  memory := by decide
  busy := by decide
  waiting := by decide
  quiet := by decide
  lastOp := by decide
  waitOp := by decide
  grantOp := by decide
  errCode := by decide
  slot := by decide
  idleCount := by decide
  tableSize := by decide
  callText := ⟨by decide, by decide, fun j _ hj => by interval_cases j <;> rfl⟩
  header := .inl rfl
  recorded := by decide
  trigger := by decide
  ackTag := by decide

end Sys2Proof.Tests
end

section
/-! PROOFS. Host accesses: what each read shows and each write stores (O50, O53, O54, O55), and the reset values (O58). -/

namespace Sys2Proof.Machine

open Sys2Proof.Spec

variable {s : State}

/-! ### Host accesses, one equation per access -/

theorem step_read32 {off : Offset} (h : off.toNat % 4 = 0) :
    step (before (.host (.read32 off)) s) = .next { s with busResp := .data32 (s.readWord off.toNat) } := by
  simp only [step_before, eventStep, State.hostAccess, Access.legal, h, decide_true, if_true]

theorem step_read8 {off : Offset} (h : 0x80 ≤ off.toNat) :
    step (before (.host (.read8 off)) s) = .next { s with busResp := .data8 (s.readWindowByte off.toNat) } := by
  simp only [step_before, eventStep, State.hostAccess, Access.legal, h, decide_true, if_true]

theorem step_write32 {off : Offset} (h : off.toNat % 4 = 0) (v : Word) :
    step (before (.host (.write32 off v)) s) = .next { s.writeWord off.toNat v with busResp := .ack } := by
  simp only [step_before, eventStep, State.hostAccess, Access.legal, h, decide_true, if_true]

theorem step_write8 {off : Offset} (h : 0x80 ≤ off.toNat) (v : Byte) :
    step (before (.host (.write8 off v)) s) = .next { s.writeWindow off.toNat [v] with busResp := .ack } := by
  simp only [step_before, eventStep, State.hostAccess, Access.legal, h, decide_true, if_true]

theorem State.readWord_reg {off : Nat} (h : off < 0x80) : s.readWord off = s.readReg off := if_pos h

theorem State.writeWord_reg {off : Nat} (h : off < 0x80) (v : Word) : s.writeWord off v = s.writeReg off v := if_pos h

theorem step_read32_reg {off : Offset} (h : off.toNat % 4 = 0) (hr : off.toNat < 0x80) :
    step (before (.host (.read32 off)) s) = .next { s with busResp := .data32 (s.readReg off.toNat) } := by
  rw [step_read32 h, State.readWord_reg hr]

theorem step_write32_reg {off : Offset} (h : off.toNat % 4 = 0) (hr : off.toNat < 0x80) (v : Word) :
    step (before (.host (.write32 off v)) s) = .next { s.writeReg off.toNat v with busResp := .ack } := by
  rw [step_write32 h, State.writeWord_reg hr]

/-! ### What a write stores -/

theorem Addr.withLo_eq (A : Addr) (v : Word) :
    A.withLo v = { A with
      c0 := v.extractLsb' 0 8, c1 := v.extractLsb' 8 8, c2 := v.extractLsb' 16 8, c3 := v.extractLsb' 24 8 } := by
  simp only [Addr.withLo, wordByte_eq_extract]

theorem Addr.withHi_eq (A : Addr) (v : Word) :
    A.withHi v = { A with c4 := v.extractLsb' 0 8, c5 := v.extractLsb' 8 8, sb := v.extractLsb' 16 8 } := by
  simp only [Addr.withHi, wordByte_eq_extract]

/-- Settles O50: each guarded register takes its write because BUSY = 0, and CALLP takes it at any BUSY. -/
theorem configurationWritesAreStored : Obligations.ConfigurationWritesAreStored := by
  intro s v
  refine ⟨fun hb => ?_, ?_, ?_⟩
  · refine ⟨?_, ?_, ?_, ?_, ?_, ?_, ?_⟩ <;> rw [step_write32_reg rfl (by decide)] <;>
      simp only [BitVec.toNat_ofNat, State.writeReg, State.guarded_idle s _ hb, Addr.withLo_eq, Addr.withHi_eq, cfgOfWord]
  · rw [step_write32_reg rfl (by decide), ← Addr.withLo_eq]
    rfl
  · rw [step_write32_reg rfl (by decide), ← Addr.withHi_eq]
    rfl

/-- Settles O55: the model's AND with the complement is the choice by the written bit. -/
theorem statusWriteClearsTheOnes : Obligations.StatusWriteClearsTheOnes := by
  intro s v
  have hbit (b x : Bool) : (b && !x) = if x then false else b := by cases b <;> cases x <;> rfl
  rw [step_write32_reg rfl (by decide)]
  simp only [BitVec.toNat_ofNat, State.writeReg, Status.writeOneToClear, hbit]

/-- A write to a read-only register is ignored (R21). -/
theorem State.writeReg_readOnly {off : Offset} (h : off ∈ readOnly) (v : Word) : s.writeReg off.toNat v = s := by
  simp only [readOnly, List.mem_cons, List.not_mem_nil, or_false] at h
  rcases h with rfl | rfl | rfl | rfl | rfl | rfl | rfl | rfl | rfl | rfl | rfl | rfl | rfl | rfl | rfl | rfl | rfl | rfl |
    rfl | rfl <;> rfl

theorem readOnly_aligned : ∀ off ∈ readOnly, off.toNat % 4 = 0 ∧ off.toNat < 0x80 := by decide

/-- A write to the duplicate-table window is ignored (R49). -/
theorem State.writeWindow_table {off : Nat} (h : off < 0x100) (bs : List Byte) : s.writeWindow off bs = s := if_pos h

/-- Settles O53: a read only answers, and a write to a read-only place is the identity on the state. -/
theorem readsAndIgnoredWritesChangeNothing : Obligations.ReadsAndIgnoredWritesChangeNothing := by
  intro s off
  refine ⟨fun h => ⟨_, step_read32 h⟩, fun h => ⟨_, step_read8 h⟩, fun v h => ?_, fun v h1 h2 => ?_⟩
  · rcases h with h | ⟨h1, h2, h4⟩
    · obtain ⟨h4, hr⟩ := readOnly_aligned off h
      rw [step_write32_reg h4 hr, State.writeReg_readOnly h]
    · rw [step_write32 h4, State.writeWord, if_neg (by omega), State.writeWindow_table h2]
  · rw [step_write8 h1, State.writeWindow_table h2]

/-- Settles O58: each field of the reset state and each register word is written out by the model. -/
theorem resetLeavesTheListedValues : Obligations.ResetLeavesTheListedValues := by
  unfold Obligations.ResetLeavesTheListedValues
  decide

/-! ### Fields of a register word -/

theorem extract_fieldAt_same {n : Nat} (v : BitVec n) (lo : Nat) (h : lo + n ≤ 32) : (fieldAt v lo).extractLsb' lo n = v := by
  ext k hk
  simp [getLsbD_fieldAt, ← BitVec.getLsbD_eq_getElem, show lo + k < 32 by omega, hk]

theorem extract_fieldAt_other {n : Nat} (v : BitVec n) (lo pos len : Nat) (h : pos + len ≤ lo ∨ lo + n ≤ pos) :
    (fieldAt v lo).extractLsb' pos len = 0#len := by
  ext k hk
  rcases h with h | h
  · simp [getLsbD_fieldAt, show ¬ lo ≤ pos + k by omega]
  · simp [getLsbD_fieldAt, BitVec.getLsbD_of_ge v (pos + k - lo) (by omega)]

theorem extract_flagAt_other (b : Bool) (lo pos len : Nat) (h : pos + len ≤ lo ∨ lo + 1 ≤ pos) :
    (flagAt b lo).extractLsb' pos len = 0#len := extract_fieldAt_other _ lo pos len h

theorem extract_wordOfBytes (b0 b1 b2 b3 : Byte) :
    (wordOfBytes b0 b1 b2 b3).extractLsb' 0 8 = b0 ∧ (wordOfBytes b0 b1 b2 b3).extractLsb' 8 8 = b1 ∧
      (wordOfBytes b0 b1 b2 b3).extractLsb' 16 8 = b2 ∧ (wordOfBytes b0 b1 b2 b3).extractLsb' 24 8 = b3 := by
  simpa only [wordByte_eq_extract] using wordByte_wordOfBytes b0 b1 b2 b3

/-- Where STATUS shows its flags and fields (R26). -/
theorem Status.word_fields (t : Status) :
    t.word.getLsbD 0 = t.busy ∧ t.word.getLsbD 1 = t.done ∧ t.word.getLsbD 2 = t.err ∧ t.word.getLsbD 3 = t.grant ∧
      t.word.getLsbD 4 = t.overrun ∧ t.word.getLsbD 5 = t.wbusy ∧ t.word.getLsbD 6 = t.buserr ∧
      t.word.getLsbD 7 = false ∧ t.word.extractLsb' 8 8 = t.errcode.code ∧ t.word.extractLsb' 16 8 = t.lastop ∧
      t.word.extractLsb' 24 8 = 0#8 := by
  simp [-BitVec.getLsbD_eq_getElem, Status.word, getLsbD_flagAt, getLsbD_fieldAt, BitVec.extractLsb'_or,
    extract_flagAt_other, extract_fieldAt_other, extract_fieldAt_same]

/-- Where CFG shows its fields (R32). -/
theorem cfg_word_fields (c : Cfg) :
    let w := fieldAt c.widenMax 0 ||| fieldAt c.persist 8 ||| fieldAt c.slotSamples 16
    w.extractLsb' 0 4 = c.widenMax ∧ w.extractLsb' 4 4 = 0#4 ∧ w.extractLsb' 8 8 = c.persist ∧
      w.extractLsb' 16 16 = c.slotSamples := by
  simp [BitVec.extractLsb'_or, extract_fieldAt_other, extract_fieldAt_same]

/-- Where DIGI_RES shows its flags and fields (R44). -/
theorem DigiRes.word_fields (d : DigiRes) :
    d.word.extractLsb' 0 2 = d.verdict.code ∧ d.word.extractLsb' 8 8 = d.reason.code ∧ d.word.getLsbD 16 = d.beaconReq ∧
      d.word.getLsbD 17 = d.ackFound ∧ d.word.getLsbD 18 = d.grew ∧ d.word.getLsbD 19 = d.dupRecorded ∧
      d.word.extractLsb' 24 4 = d.field := by
  simp [-BitVec.getLsbD_eq_getElem, DigiRes.word, getLsbD_flagAt, getLsbD_fieldAt, BitVec.extractLsb'_or,
    extract_flagAt_other, extract_fieldAt_other, extract_fieldAt_same]

/-! ### The duplicate-table window and the buffers -/

/-- An aligned word of the duplicate-table window (R49). -/
theorem State.readWord_table {off : Nat} (h1 : 0x80 ≤ off) (h2 : off < 0x100) (h4 : off % 4 = 0) :
    s.readWord off = s.readDupWord ((off - 0x80) / 4) := by
  have hbyte (k : Nat) (hk : k < 4) : s.readWindowByte (off + k) = wordByte (s.readDupWord ((off - 0x80) / 4)) k := by
    rw [State.readWindowByte, if_pos (by omega), show (off + k - 0x80) / 4 = (off - 0x80) / 4 by omega,
      show (off + k) % 4 = k by omega]
  rw [State.readWord, if_neg (by omega), hbyte 1 (by omega), hbyte 2 (by omega), hbyte 3 (by omega),
    show s.readWindowByte off = _ from hbyte 0 (by omega), wordOfBytes_wordByte]

theorem State.readWindowByte_table {off : Nat} (h2 : off < 0x100) :
    s.readWindowByte off = (s.readDupWord ((off - 0x80) / 4)).extractLsb' (8 * (off % 4)) 8 := by
  rw [State.readWindowByte, if_pos h2, wordByte_eq_extract]

theorem State.readWindowByte_buffer {off : Nat} (h : 0x100 ≤ off) : s.readWindowByte off = s.byteAt off :=
  if_neg (by omega)

/-- Each byte of a word of FBUF or TBUF (R73). -/
theorem State.extract_readWord_buffer {off k : Nat} (h : 0x100 ≤ off) (hk : k < 4) :
    (s.readWord off).extractLsb' (8 * k) 8 = s.byteAt (off + k) := by
  obtain ⟨h0, h1, h2, h3⟩ :=
    extract_wordOfBytes (s.byteAt off) (s.byteAt (off + 1)) (s.byteAt (off + 2)) (s.byteAt (off + 3))
  have hbyte (j : Nat) : s.readWindowByte (off + j) = s.byteAt (off + j) := State.readWindowByte_buffer (by omega)
  rw [State.readWord, if_neg (by omega), hbyte, hbyte, hbyte, State.readWindowByte_buffer h]
  interval_cases k
  exacts [h0, h1, h2, h3]

/-- The two words of a built slot: its checksum and its deadline (R49). -/
theorem State.readDupWord_slot {i : Nat} {x : Slot} (h : s.table[i]? = some x) :
    s.readDupWord (2 * i) = x.csum.zeroExtend 32 ∧ s.readDupWord (2 * i + 1) = x.exp := by
  have h1 : (2 * i + 1) / 2 = i := by omega
  simp [State.readDupWord, h, h1, fieldAt]

/-- Both words of a slot that is not built read 0 (R49). -/
theorem State.readDupWord_unbuilt {i : Nat} (h : s.table[i]? = none) :
    s.readDupWord (2 * i) = 0#32 ∧ s.readDupWord (2 * i + 1) = 0#32 := by
  have h1 : (2 * i + 1) / 2 = i := by omega
  simp [State.readDupWord, h, h1, fieldAt, Slot.empty]

/-- The reads of a word of the table window: its four bytes, and it as a whole. -/
theorem step_read_table {w : Nat} (hw : w < 32) :
    step (before (.host (.read32 (BitVec.ofNat 10 (0x80 + 4 * w)))) s) =
        .next { s with busResp := .data32 (s.readDupWord w) } ∧
      ∀ k, k < 4 → step (before (.host (.read8 (BitVec.ofNat 10 (0x80 + 4 * w + k)))) s) =
        .next { s with busResp := .data8 ((s.readDupWord w).extractLsb' (8 * k) 8) } := by
  have hoff (k : Nat) (hk : k < 4) : (BitVec.ofNat 10 (0x80 + 4 * w + k)).toNat = 0x80 + 4 * w + k := by simp; omega
  refine ⟨?_, fun k hk => ?_⟩
  · have h0 := hoff 0 (by omega)
    rw [Nat.add_zero] at h0
    rw [step_read32 (by omega), h0, State.readWord_table (by omega) (by omega) (by omega),
      show (0x80 + 4 * w - 0x80) / 4 = w by omega]
  · rw [step_read8 (by rw [hoff k hk]; omega), hoff k hk, State.readWindowByte_table (by omega),
      show (0x80 + 4 * w + k - 0x80) / 4 = w by omega, show (0x80 + 4 * w + k) % 4 = k by omega]

/-! ### Registers as numbers -/

/-- PARAMS shows a legal build's parameters (R24). -/
theorem toNat_paramsWord {p : Config.Params} (h : p.wf = true) :
    (paramsWord p).toNat = p.dupSlots + p.maxFrameLen * 2 ^ 8 + p.encRR.toNat * 2 ^ 16 + p.selfMask.toNat * 2 ^ 24 := by
  simp only [Config.Params.wf, Bool.and_eq_true, decide_eq_true_eq] at h
  have hn := ((((IsNumber.first (BitVec.ofNat 8 p.dupSlots) (by omega)).or (BitVec.ofNat 8 p.maxFrameLen) 8 (by omega)
    (by omega)).or p.encRR 16 (by omega) (by omega)).or p.selfMask 24 (by omega) (by omega)).eq
  rw [BitVec.toNat_ofNat, BitVec.toNat_ofNat, Nat.mod_eq_of_lt (by omega), Nat.mod_eq_of_lt (by omega)] at hn
  exact hn

theorem toNat_flagAt_zero (b : Bool) : (flagAt b 0).toNat = b.toNat := (IsNumber.flag b).eq

theorem toNat_fieldAt_zero {n : Nat} (v : BitVec n) (h : n ≤ 32) : (fieldAt v 0).toNat = v.toNat := (IsNumber.first v h).eq

/-- A register of two fields, the upper one at bit 16. -/
theorem toNat_pair {m n : Nat} (u : BitVec m) (v : BitVec n) (hm : m ≤ 16) (hn : n ≤ 16) :
    (fieldAt u 0 ||| fieldAt v 16).toNat = u.toNat + v.toNat * 2 ^ 16 :=
  ((IsNumber.first u (by omega)).or v 16 hm (by omega)).eq

/-- A register of three fields, at bits 0, `a` and `b`. -/
theorem toNat_triple {l m n : Nat} (u : BitVec l) (v : BitVec m) (w : BitVec n) (a b : Nat) (ha : l ≤ a) (hb : a + m ≤ b)
    (hn : b + n ≤ 32) : (fieldAt u 0 ||| fieldAt v a ||| fieldAt w b).toNat = u.toNat + v.toNat * 2 ^ a + w.toNat * 2 ^ b :=
  (((IsNumber.first u (by omega)).or v a ha (by omega)).or w b hb hn).eq

theorem toNat_packHi (A : Addr) : (packHi A).toNat = littleEndian [A.c4, A.c5, A.sb] := by
  rw [packHi, toNat_wordOfBytes]
  simp [littleEndian]

theorem toNat_callTxtWord (t : List Byte) (w : Nat) : (callTxtWord t w).toNat = littleEndian ((t.drop (4 * w)).take 4) := by
  rw [callTxtWord, toNat_wordOfBytes, littleEndian_getD]

/-- The last character of CALLTXT has a register of its own (R38). -/
theorem toNat_lastCallTxt (t : List Byte) : (fieldAt (t.getD 8 0#8) 0).toNat = littleEndian ((t.drop 8).take 1) := by
  have hd : t.getD 8 0#8 = (t.drop 8).getD 0 0#8 := by simp [List.getD_eq_getElem?_getD, List.getElem?_drop]
  rw [toNat_fieldAt_zero _ (by omega), hd]
  cases t.drop 8 <;> simp [littleEndian]

theorem DupRes.toNat_word (d : DupRes) : d.word.toNat =
    d.hit.toNat + d.recorded.toNat * 2 + d.evicted.toNat * 2 ^ 2 + d.slot.toNat * 2 ^ 8 + d.csum.toNat * 2 ^ 16 :=
  (((((IsNumber.flag d.hit).orFlag d.recorded 1 (by omega) (by omega)).orFlag d.evicted 2 (by omega) (by omega)).or d.slot 8
    (by omega) (by omega)).or d.csum 16 (by omega) (by omega)).eq

theorem DigiRes.toNat_word (d : DigiRes) : d.word.toNat =
    d.verdict.code.toNat + d.reason.code.toNat * 2 ^ 8 + d.beaconReq.toNat * 2 ^ 16 + d.ackFound.toNat * 2 ^ 17 +
      d.grew.toNat * 2 ^ 18 + d.dupRecorded.toNat * 2 ^ 19 + d.field.toNat * 2 ^ 24 :=
  (((((((IsNumber.first d.verdict.code (by omega)).or d.reason.code 8 (by omega) (by omega)).orFlag d.beaconReq 16 (by omega)
    (by omega)).orFlag d.ackFound 17 (by omega) (by omega)).orFlag d.grew 18 (by omega) (by omega)).orFlag d.dupRecorded 19
    (by omega) (by omega)).or d.field 24 (by omega) (by omega)).eq

theorem toNat_csmaInfo (r : Arbiter) : (fieldAt r.idleCnt 0 ||| fieldAt r.attempts 16 ||| fieldAt r.state.code 24).toNat =
    r.idleCnt.toNat + r.attempts.toNat * 2 ^ 16 + (if r.state = .wait then 2 ^ 24 else 0) := by
  rw [toNat_triple _ _ _ _ _ (by omega) (by omega) (by omega)]
  cases r.state <;> rfl

theorem registerValues_aligned : ∀ e ∈ registerValues s, e.1.toNat % 4 = 0 ∧ e.1.toNat < 0x80 := by
  simp [registerValues]

/-- Every register of R20 but STATUS reads as the number its fields make. -/
theorem State.toNat_readReg (hp : s.params.wf = true) :
    ∀ e ∈ registerValues s, (s.readReg e.1.toNat).toNat = e.2 := by
  simp only [registerValues, List.forall_mem_cons, List.not_mem_nil, false_imp_iff, implies_true, and_true]
  refine ⟨rfl, rfl, toNat_paramsWord hp, toNat_flagAt_zero _, rfl, toNat_fieldAt_zero s.flen (by omega),
    toNat_fieldAt_zero s.tlen (by omega), toNat_pair s.rgn.off s.rgn.len (by omega) (by omega), toNat_wordOfBytes _ _ _ _,
    toNat_packHi s.node, toNat_triple s.cfg.widenMax s.cfg.persist s.cfg.slotSamples 8 16 (by omega) (by omega) (by omega),
    rfl, rfl, rfl, toNat_wordOfBytes _ _ _ _, toNat_packHi s.callp, toNat_callTxtWord s.callTxt 0,
    toNat_callTxtWord s.callTxt 1, toNat_lastCallTxt s.callTxt,
    toNat_pair s.callInfo.tlen s.callInfo.curOut (by omega) (by omega),
    toNat_triple s.hdr.naddr s.hdr.npath s.hdr.payIdx 8 16 (by omega) (by omega) (by omega),
    toNat_fieldAt_zero s.payLen (by omega), toNat_fieldAt_zero s.crcRes (by omega), s.dupRes.toNat_word,
    s.digiRes.toNat_word, toNat_pair s.msgInfo.remIdx s.msgInfo.remLen (by omega) (by omega),
    toNat_pair s.ackInfo.idx s.ackInfo.len (by omega) (by omega), toNat_csmaInfo s.arb, rfl, rfl, rfl⟩

/-- Settles O54, register by register, then the table window and the buffers. -/
theorem readsShowTheFields : Obligations.ReadsShowTheFields := by
  intro s
  refine ⟨⟨_, step_read32_reg rfl (by decide), s.status.word_fields⟩,
    ⟨_, step_read32_reg rfl (by decide), extract_wordOfBytes _ _ _ _⟩,
    ⟨_, step_read32_reg rfl (by decide), extract_wordOfBytes _ _ _ _⟩,
    ⟨_, step_read32_reg rfl (by decide), cfg_word_fields s.cfg⟩,
    ⟨_, step_read32_reg rfl (by decide), s.digiRes.word_fields⟩,
    fun i hi => ?_, fun hp off x hx => ?_, fun off h => ⟨?_, fun h4 => ?_⟩⟩
  · obtain ⟨hc, hc8⟩ := step_read_table (s := s) (w := 2 * i) (by omega)
    obtain ⟨he, he8⟩ := step_read_table (s := s) (w := 2 * i + 1) (by omega)
    rw [show 0x80 + 4 * (2 * i) = 0x080 + 8 * i by omega] at hc hc8
    rw [show 0x80 + 4 * (2 * i + 1) = 0x084 + 8 * i by omega] at he he8
    exact ⟨_, _, hc, he, fun x => State.readDupWord_slot, State.readDupWord_unbuilt, fun k hk => ⟨hc8 k hk, he8 k hk⟩⟩
  · obtain ⟨h4, hr⟩ := registerValues_aligned _ hx
    have hn : (s.readReg off.toNat).toNat = x := State.toNat_readReg hp _ hx
    rw [step_read32_reg h4 hr, ← hn, BitVec.ofNat_toNat, BitVec.setWidth_eq]
  · rw [step_read8 (by omega), State.readWindowByte_buffer h]
  · exact ⟨_, step_read32 h4, fun k hk => State.extract_readWord_buffer h hk⟩

end Sys2Proof.Machine
end

section
/-! PROOFS. What the block's own moves leave alone: the sticky bits (O56) and the TICK input (O12). -/

namespace Sys2Proof.Machine

open Sys2Proof.Spec

variable {s t : State}

/-! ### The sticky bits -/

/-- STATUS's sticky bit at a bit position (R26): OVERRUN, WBUSY or BUSERR; no other position has one. -/
def Status.sticky (u : Status) (bit : Nat) : Bool :=
  match bit with
  | 4 => u.overrun
  | 5 => u.wbusy
  | 6 => u.buserr
  | _ => false

theorem Status.sticky_mono {u v : Status} (ho : u.overrun = true → v.overrun = true) (hw : u.wbusy = true → v.wbusy = true)
    (hb : u.buserr = true → v.buserr = true) {bit : Nat} (h : u.sticky bit = true) : v.sticky bit = true := by
  unfold Status.sticky at h ⊢
  split at h
  exacts [ho h, hw h, hb h, nomatch h]

theorem Status.sticky_writeOneToClear (u : Status) (v : Word) (bit : Nat) :
    (u.writeOneToClear v).sticky bit = (u.sticky bit && !v.getLsbD bit) := by
  unfold Status.sticky
  split <;> simp [Status.writeOneToClear]

/-! ### The moves of the block itself -/

/-- `t` has the TICK input and the sticky bits of `s`. -/
structure Steady (s t : State) : Prop where
  tick : t.tick = s.tick
  sticky : ∀ bit, t.status.sticky bit = s.status.sticky bit

theorem Kept.steady (h : Kept s t) : Steady s t := ⟨h.tick, fun bit => by rw [h.status]⟩

/-- A pending command moves neither TICK nor a sticky bit, however it ends. -/
theorem runPending_steady (hp : s.engine = .pending) (h : runPending s = .next t) : Steady s t := by
  obtain ⟨u, hu, hend⟩ := engineStep_cases s hp
  rw [engineStep_pending s hp, h] at hu
  cases hu
  rcases hend with ⟨c, -, -, rfl⟩ | ⟨-, rfl⟩ | ⟨-, r, rfl, hk⟩
  · exact ⟨rfl, fun _ => rfl⟩
  · exact ⟨rfl, fun _ => rfl⟩
  · exact ⟨hk.steady.tick, hk.steady.sticky⟩

theorem engineStep_steady (h : engineStep s = .next t) : Steady s t := by
  by_cases hp : s.engine = .pending
  · rw [engineStep_pending s hp] at h
    exact runPending_steady hp h
  · rw [engineStep_other s hp] at h
    cases h
    exact ⟨rfl, fun _ => rfl⟩

theorem sampleEvent_steady (b : Bool) (r : Byte) : Steady s (s.sampleEvent b r) := by
  by_cases hw : s.engine = .csmaWait
  · rcases State.sampleEvent_cases hw b r with ⟨-, ht⟩ | ⟨-, -, ht⟩ | ⟨-, -, -, ht⟩ | ⟨-, -, -, ht⟩ <;> rw [ht] <;>
      exact ⟨rfl, fun _ => rfl⟩
  · rw [State.sampleEvent_other hw]
    exact ⟨rfl, fun _ => rfl⟩

/-- A step is a move of the block itself, which leaves TICK and the sticky bits, or a scheduled event of its environment. -/
theorem step_moves (h : step s = .next t) :
    Steady s t ∨
      (∃ a rest, s.schedule = .host a :: rest ∧ t = State.hostAccess { s with schedule := rest } a) ∨
      (∃ n rest, s.schedule = .tick n :: rest ∧ t = State.advanceTick { s with schedule := rest } n) ∨
      (∃ rest, s.schedule = .hardReset :: rest ∧ t = State.hardReset { s with schedule := rest }) := by
  rcases step_cases s with ⟨e, rest, hs, ht⟩ | ⟨-, hp, ht⟩ | ⟨-, -, ht⟩ | ⟨-, -, ht⟩ <;> rw [h] at ht
  · cases e with
    | host a => cases ht; exact .inr (.inl ⟨a, rest, hs, rfl⟩)
    | engine =>
      have hq := engineStep_steady (s := { s with schedule := rest }) ht.symm
      exact .inl { hq with }
    | sample b r =>
      cases ht
      have hq := sampleEvent_steady (s := { s with schedule := rest }) b r
      exact .inl { hq with }
    | tick n => cases ht; exact .inr (.inr (.inl ⟨n, rest, hs, rfl⟩))
    | hardReset => cases ht; exact .inr (.inr (.inr ⟨rest, hs, rfl⟩))
  · exact .inl (runPending_steady hp ht.symm)
  · cases ht
    have hq := sampleEvent_steady (s := { s with samples := s.samples + 1 }) (Config.csBusy s.samples)
      (Config.rndDraw s.samples)
    exact .inl { hq with }
  · cases ht
    exact .inl ⟨rfl, fun _ => rfl⟩

/-! ### What clears a sticky bit -/

/-- An access that clears a sticky bit is a STATUS write with a 1 for it, or a soft reset. -/
theorem effect_clears {a : Access} {bit : Nat} (he : Effect s a t) (h1 : s.status.sticky bit = true)
    (h0 : t.status.sticky bit = false) :
    (∃ v, a = .write32 0x010#10 v ∧ v.getLsbD bit = true) ∨ (∃ v, a = .write32 0x00C#10 v ∧ v.getLsbD 1 = true) := by
  have hkept (u : Status) (ho : s.status.overrun = true → u.overrun = true) (hw : s.status.wbusy = true → u.wbusy = true)
      (hb : s.status.buserr = true → u.buserr = true) : u.sticky bit ≠ false := by
    rw [Status.sticky_mono ho hw hb h1]
    decide
  cases he with
  | status v ha =>
    rw [Status.sticky_writeOneToClear, h1, Bool.true_and, Bool.not_eq_false'] at h0
    exact .inl ⟨v, ha, h0⟩
  | reset v ha hv => exact .inr ⟨v, ha, hv⟩
  | overrun => exact absurd h0 (hkept _ (fun _ => rfl) id id)
  | dropped => exact absurd h0 (hkept _ id (fun _ => rfl) id)
  | none => exact absurd h0 (hkept _ id id id)
  | config => exact absurd h0 (hkept _ id id id)
  | callp => exact absurd h0 (hkept _ id id id)
  | ctrl => exact absurd h0 (hkept _ id id id)
  | issue => exact absurd h0 (hkept _ id id id)
  | bytes => exact absurd h0 (hkept _ id id id)

theorem hostAccess_clears {a : Access} {bit : Nat} (h1 : s.status.sticky bit = true)
    (h0 : (s.hostAccess a).status.sticky bit = false) :
    (∃ v, a = .write32 0x010#10 v ∧ v.getLsbD bit = true) ∨ (∃ v, a = .write32 0x00C#10 v ∧ v.getLsbD 1 = true) := by
  rcases hostAccess_cases s a with ⟨-, ht⟩ | ⟨u, r, he, ht⟩ <;> rw [ht] at h0
  · have hset : (s.refuse a).status.sticky bit = true :=
      Status.sticky_mono (u := s.status) (v := (s.refuse a).status) id id (fun _ => rfl) h1
    simp [hset] at h0
  · exact effect_clears he h1 h0

/-- Settles O56: the block's own moves and tick events keep the sticky bits, and an access clears one only in the two named ways. -/
theorem stickyBitsStayUntilCleared : Obligations.StickyBitsStayUntilCleared := by
  intro s t bit h hlost
  obtain ⟨h1, h0⟩ : s.status.sticky bit = true ∧ t.status.sticky bit = false := by
    rcases hlost with ⟨rfl, h⟩ | ⟨rfl, h⟩ | ⟨rfl, h⟩ <;> exact h
  rcases step_moves h with hq | ⟨a, rest, hs, rfl⟩ | ⟨n, rest, hs, rfl⟩ | ⟨rest, hs, -⟩
  · exact absurd (h1.symm.trans ((hq.sticky bit).symm.trans h0)) (by decide)
  · refine ⟨_, rest, hs, ?_⟩
    rcases hostAccess_clears (s := { s with schedule := rest }) h1 h0 with ⟨v, rfl, hv⟩ | ⟨v, rfl, hv⟩
    exacts [.inl ⟨v, rfl, hv⟩, .inr (.inl ⟨v, rfl, hv⟩)]
  · exact absurd (h1.symm.trans h0) (by decide)
  · exact ⟨_, rest, hs, .inr (.inr rfl)⟩

/-! ### TICK -/

theorem effect_tick {a : Access} (he : Effect s a t) : t.tick = s.tick := by cases he <;> rfl

theorem hostAccess_tick (a : Access) : (s.hostAccess a).tick = s.tick := by
  rcases hostAccess_cases s a with ⟨-, ht⟩ | ⟨u, r, he, ht⟩ <;> rw [ht]
  · rfl
  · exact show u.tick = s.tick from effect_tick he

/-- `s` with the value `x` on the TICK input (R51). -/
def State.onTick (s : State) (x : Config.Tick) : State := { s with tick := x }

variable (s) (x : Config.Tick)

theorem State.insertionPoint_onTick : ∀ fuel k, (s.onTick x).insertionPoint fuel k = s.insertionPoint fuel k
  | 0, _ => rfl
  | fuel + 1, k => by
    simp only [State.insertionPoint, State.insertionPoint_onTick fuel]
    rfl

theorem State.digiDest_onTick (n : Nat) (cs : Half) (b : Bool) :
    (s.onTick x).digiDest n cs b = (s.digiDest n cs b).onTick x := by
  have hr : (s.onTick x).noRoom n = s.noRoom n := rfl
  have hk := (s.setSsid 0 ((s.field 0).ssid - 1#4)).insertionPoint_onTick x n 2
  simp only [State.digiDest, hr]
  cases s.noRoom n with
  | some e => rfl
  | none =>
    simp only
    rw [← hk]
    rfl

theorem State.digiWide_onTick (n k : Nat) (cs : Half) (b : Bool) :
    (s.onTick x).digiWide n k cs b = (s.digiWide n k cs b).onTick x := by
  have hr : (s.onTick x).noRoom n = s.noRoom n := rfl
  have hf : (s.onTick x).field k = s.field k := rfl
  simp only [State.digiWide, hr, hf]
  split
  · cases s.noRoom n <;> rfl
  · rfl

theorem State.digiRules_onTick (n : Nat) (cs : Half) (b : Bool) :
    (s.onTick x).digiRules n cs b = (s.digiRules n cs b).onTick x := by
  have hf (k : Nat) : (s.onTick x).field k = s.field k := rfl
  have hc : (s.onTick x).candidate n = s.candidate n := rfl
  have hg : (s.onTick x).cfg = s.cfg := rfl
  simp only [State.digiRules, hf, hc, hg, State.digiDest_onTick, State.digiWide_onTick]
  split
  · rfl
  · split
    · rfl
    · split
      · rfl
      · split <;> rfl

theorem State.digiAccepted_onTick (n : Nat) : (s.onTick x).digiAccepted n = (s.digiAccepted n).onTick x := by
  have hself : (s.onTick x).isSelf = s.isSelf := rfl
  have hpay : (s.onTick x).payload = s.payload := rfl
  have hsw : (s.onTick x).sweep = s.sweep.onTick x := rfl
  have htab : (s.sweep.onTick x).table = s.sweep.table := rfl
  have hnode : (s.sweep.onTick x).node = s.sweep.node := rfl
  simp only [State.digiAccepted, hself, hpay, hsw, htab, hnode, State.digiRules_onTick]
  split
  · rfl
  · split
    · rfl
    · split <;> rfl

/-- A command does the same whatever value stands on the TICK input: it reads only the snapshot (R36). -/
theorem exec_onTick (i : Instr) : ∃ t, exec i s = .next t ∧ exec i (s.onTick x) = .next (t.onTick x) := by
  have hv : (s.onTick x).validate = s.validate := rfl
  have hl : (s.onTick x).regionLegal = s.regionLegal := rfl
  cases i with
  | nop a b => exact ⟨_, execNop_cases s a b, (execNop_cases _ a b).trans (by split <;> rfl)⟩
  | csmaAcquire a b => exact ⟨_, execCsmaAcquire_cases s a b, (execCsmaAcquire_cases _ a b).trans (by split <;> rfl)⟩
  | callDecode a b => exact ⟨_, execCallDecode_cases s a b, (execCallDecode_cases _ a b).trans (by split <;> rfl)⟩
  | callEncode a c =>
    have ht : (s.onTick x).tlen = s.tlen := rfl
    refine ⟨_, execCallEncode_cases s a c, (execCallEncode_cases _ a c).trans ?_⟩
    rw [ht]
    split <;> rfl
  | frameValidate a b =>
    refine ⟨_, execFrameValidate_cases s a b, (execFrameValidate_cases _ a b).trans ?_⟩
    rw [hv]
    cases argsUsed a b <;> cases s.validate <;> rfl
  | frameToText a b =>
    have ht (n : Nat) : (s.onTick x).monitorText n = s.monitorText n := rfl
    refine ⟨_, execFrameToText_cases s a b, (execFrameToText_cases _ a b).trans ?_⟩
    simp only [hv, ht]
    split
    · rfl
    · split
      · rfl
      · split <;> rfl
  | textToFrame a b =>
    have ht : (s.onTick x).text = s.text := rfl
    have hn : (s.onTick x).tlen = s.tlen := rfl
    have hp : (s.onTick x).params = s.params := rfl
    refine ⟨_, execTextToFrame_cases s a b, (execTextToFrame_cases _ a b).trans ?_⟩
    simp only [ht, hn, hp]
    split
    · rfl
    · split <;> rfl
  | crc16 a b =>
    refine ⟨_, execCrc16_cases s a b, (execCrc16_cases _ a b).trans ?_⟩
    rw [hl]
    split <;> rfl
  | dupCheck a b =>
    refine ⟨_, execDupCheck_cases s a b, (execDupCheck_cases _ a b).trans ?_⟩
    rw [hl]
    split <;> rfl
  | dupRecord a b =>
    refine ⟨_, execDupRecord_cases s a b, (execDupRecord_cases _ a b).trans ?_⟩
    rw [hl]
    split <;> rfl
  | dupCheckRecord a b =>
    have hr : (s.onTick x).region = s.region := rfl
    have ht : (s.onTick x).sweep.table = s.sweep.table := rfl
    refine ⟨_, execDupCheckRecord_cases s a b, (execDupCheckRecord_cases _ a b).trans ?_⟩
    simp only [hl, hr, ht]
    split
    · rfl
    · split <;> rfl
  | digiProcess a b =>
    have hc (n : Nat) : (s.onTick x).clearMessage.digiCount n = (s.clearMessage.digiCount n).onTick x := rfl
    refine ⟨_, execDigiProcess_cases s a b, (execDigiProcess_cases _ a b).trans ?_⟩
    simp only [hv, hc, State.digiAccepted_onTick]
    split
    · rfl
    · split <;> rfl
  | pathInsertNode k b =>
    have hr (n : Nat) : (s.onTick x).noRoom n = s.noRoom n := rfl
    refine ⟨_, execPathInsertNode_cases s k b, (execPathInsertNode_cases _ k b).trans ?_⟩
    simp only [hv, hr]
    split
    · rfl
    · split
      · rfl
      · split
        · rfl
        · split <;> rfl
  | pathOverwriteNode k b =>
    refine ⟨_, execPathOverwriteNode_cases s k b, (execPathOverwriteNode_cases _ k b).trans ?_⟩
    rw [hv]
    split
    · rfl
    · split
      · rfl
      · split <;> rfl

/-- Settles O12: only a tick event is left by `step_moves`, and every command commutes with the TICK input. -/
theorem tickMovesByItsEventsAndCommandsReadTheSnapshot : Obligations.TickMovesByItsEventsAndCommandsReadTheSnapshot := by
  refine ⟨fun s n => ?_, fun s t h hne => ?_, fun i s t x h => ?_⟩
  · have hadd : s.tick + n = BitVec.ofNat 32 ((s.tick.toNat + n.toNat) % 2 ^ 32) := by
      apply BitVec.eq_of_toNat_eq
      simp
    rw [← hadd]
    rfl
  · rcases step_moves h with hq | ⟨a, rest, -, rfl⟩ | ⟨n, rest, hs, -⟩ | ⟨rest, -, rfl⟩
    · exact absurd hq.tick hne
    · exact absurd (hostAccess_tick a) hne
    · exact ⟨n, rest, hs⟩
    · exact absurd rfl hne
  · obtain ⟨u, hu, hx⟩ := exec_onTick s x i
    cases h.symm.trans hu
    exact hx

end Sys2Proof.Machine
end

section
/-! PROOFS. Every step keeps the invariant of the block (O60), and reset meets it (O59).

Each operation of a command keeps `Inv` (the fields it does not write are taken over by `{ h with … }`), so each command keeps it
until its end; then come the two ends, the samples, the host accesses and the resets. -/

namespace Sys2Proof.Machine

theorem State.insertionPoint_le (s : State) : ∀ fuel k, s.insertionPoint fuel k ≤ k + fuel
  | 0, k => Nat.le_refl k
  | fuel + 1, k => by
    have := s.insertionPoint_le fuel (k + 1)
    simp only [State.insertionPoint]
    split <;> omega

end Sys2Proof.Machine

namespace Sys2Proof.Spec

open Sys2Proof.Machine

variable {s : State}

/-! ### The operations of a command -/

theorem maxFrameLen_le {p : Config.Params} (h : p.wf = true) : p.maxFrameLen ≤ 255 := by
  simp only [Config.Params.wf, Bool.and_eq_true, decide_eq_true_eq] at h
  exact h.2

theorem frameShape_flen_le {n : Nat} (hs : FrameShape s n) (h : Inv s) : s.flen.toNat ≤ 255 :=
  hs.notLong.trans (maxFrameLen_le h.build)

theorem Inv.setBytes (h : Inv s) {o : Nat} {bs : List Byte} (h1 : 0x100 ≤ o) (h2 : o + bs.length ≤ 0x400) :
    Inv (s.setBytes o bs) :=
  { h with memory := Memory.wf_storeAll bs h.memory h1 h2 }

theorem Inv.setFb (h : Inv s) {i : Nat} {bs : List Byte} (hb : i + bs.length ≤ 0x300) : Inv (s.setFb i bs) :=
  h.setBytes (by omega) (by omega)

theorem Inv.setTb (h : Inv s) {i : Nat} {bs : List Byte} (hb : i + bs.length ≤ 0x200) : Inv (s.setTb i bs) :=
  h.setBytes (by omega) (by omega)

theorem Inv.frameLength (h : Inv s) (x : Half) : Inv { s with flen := x } := { h with }

theorem Inv.textLength (h : Inv s) (x : Half) : Inv { s with tlen := x } := { h with }

theorem Inv.setHeader (h : Inv s) {n : Nat} (h2 : 2 ≤ n) (h10 : n ≤ 10) : Inv (s.setHeader n (payIdxOf n)) :=
  { h with header := .inr ⟨n, h2, h10, rfl⟩ }

theorem Inv.sweep (h : Inv s) : Inv s.sweep :=
  { h with tableSize := (List.length_map _).trans h.tableSize }

theorem Inv.insert (h : Inv s) (cs : Half) : Inv (s.insert cs) :=
  { h with tableSize := List.length_set.trans h.tableSize }

theorem Inv.digiDrop (h : Inv s) (b : Bool) (r : Reason) : Inv (s.digiDrop b r) :=
  { h with
    recorded := by cases b <;> simp [State.digiDrop, DigiRes.zero]
    trigger := by cases b <;> simp [State.digiDrop]
    ackTag := by simp [State.digiDrop, DigiRes.zero] }

theorem Inv.digiMessage (h : Inv s) (p : Nat) : Inv (s.digiMessage p) :=
  { h with
    recorded := by simp [State.digiMessage, DigiRes.zero]
    trigger := by simp [State.digiMessage]
    ackTag := fun _ => rfl }

theorem Inv.digiRepeat (h : Inv s) (cs : Half) (b : Bool) (r : Reason) (g : Bool) (k : Nat) :
    Inv (s.digiRepeat cs b r g k) :=
  { h.insert cs with
    recorded := by simp [State.digiRepeat]
    trigger := by simp [State.digiRepeat]
    ackTag := by simp [State.digiRepeat] }

theorem Inv.digiCount (h : Inv s) {n : Nat} (h2 : 2 ≤ n) (h10 : n ≤ 10) : Inv (s.clearMessage.digiCount n) :=
  { h.setHeader h2 h10 with }

/-! ### Path mutation -/

theorem Inv.setSsid (h : Inv s) {k : Nat} (hk : k ≤ 10) (x : BitVec 4) : Inv (s.setSsid k x) :=
  h.setFb (by simp; omega)

theorem Inv.overwriteNode (h : Inv s) {k : Nat} (hk : k ≤ 10) : Inv (s.overwriteNode k) :=
  h.setFb (by simp; omega)

theorem Inv.insertNode (h : Inv s) {k : Nat} (hk : k ≤ 12) (hf : s.flen.toNat ≤ 255) : Inv (s.insertNode k) := by
  have hcleared := h.setFb (i := 7 * k - 1) (bs := [clearE (s.fb (7 * k - 1))]) (by simp; omega)
  have hshifted := hcleared.setFb (i := 7 * k + 7) (bs := s.fbs (7 * k) (s.flen.toNat - 7 * k)) (by simp; omega)
  have hwritten := hshifted.setFb (i := 7 * k) (bs := (nodeEntry s.node ((s.fb (7 * k - 1)).getLsbD 0)).bytes)
    (by simp; omega)
  exact { hwritten with }

theorem Inv.grow (h : Inv s) {n k : Nat} (h2 : 2 ≤ n) (h9 : n ≤ 9) (hk : k ≤ 12) (hf : s.flen.toNat ≤ 255) :
    Inv (s.grow n k) :=
  (h.insertNode hk hf).setHeader (by omega) (by omega)

/-- Where there is room for an insertion (R222), the path is not full. -/
theorem le_nine_of_noRoom {n : Nat} (hs : FrameShape s n) (hr : s.noRoom n = none) : n ≤ 9 := by
  have h10 := hs.maxAddr
  have := ((State.noRoom_eq_none h10).mp hr).1
  omega

/-! ### The rule engine -/

/-- Both insertions of the rule engine: an SSID is lowered, the node is inserted, and the digipeat is recorded (R225, R229). -/
theorem Inv.digiInsert (h : Inv s) {n j k : Nat} (hs : FrameShape s n) (hr : s.noRoom n = none) (hj : j ≤ 10) (hk : k ≤ 12)
    (x : BitVec 4) (cs : Half) (b : Bool) (r : Reason) :
    Inv (((s.setSsid j x).grow n k).digiRepeat cs b r true k) := by
  have hf : s.flen.toNat ≤ 255 := frameShape_flen_le hs h
  exact ((h.setSsid hj x).grow hs.minAddr (le_nine_of_noRoom hs hr) hk hf).digiRepeat _ _ _ _ _

theorem Inv.digiDest (h : Inv s) {n : Nat} (hs : FrameShape s n) (cs : Half) (b : Bool) : Inv (s.digiDest n cs b) := by
  simp only [State.digiDest]
  split
  next => exact h.digiDrop _ _
  next hr =>
    have hk := State.insertionPoint_le (s.setSsid 0 ((s.field 0).ssid - 1#4)) n 2
    have h10 := hs.maxAddr
    exact h.digiInsert hs hr (by omega) (by omega) _ _ _ _

theorem Inv.digiWide (h : Inv s) {n k : Nat} (hs : FrameShape s n) (hk : k < n) (cs : Half) (b : Bool) :
    Inv (s.digiWide n k cs b) := by
  have h10 := hs.maxAddr
  simp only [State.digiWide]
  split
  · split
    next => exact h.digiDrop _ _
    next hr => exact h.digiInsert hs hr (by omega) (by omega) _ _ _ _
  · exact (h.overwriteNode (by omega)).digiRepeat _ _ _ _ _

theorem Inv.digiRules (h : Inv s) {n : Nat} (hs : FrameShape s n) (cs : Half) (b : Bool) : Inv (s.digiRules n cs b) := by
  simp only [State.digiRules]
  split
  · exact h.digiDest hs _ _
  · split
    · exact h.digiDrop _ _
    · split
      next => exact h.digiDrop _ _
      next k hc =>
        split
        · exact h.digiWide hs (State.candidate_eq_some.mp hc).2.1 _ _
        · exact h.digiDrop _ _

theorem Inv.digiAccepted (h : Inv s) {n : Nat} (hs : FrameShape s n) : Inv (s.digiAccepted n) := by
  simp only [State.digiAccepted]
  split
  · exact h.digiDrop _ _
  · split
    · exact h.sweep.digiDrop _ _
    · split
      · exact h.sweep.digiMessage _
      · exact h.sweep.digiRules { hs with } _ _

/-! ### The two ends of a command and the start of a wait -/

theorem Inv.not_waiting (h : Inv s) (he : s.engine ≠ .csmaWait) : s.arb.state ≠ .wait := fun hw => he (h.waiting.mp hw)

/-- The end of a running command: ERR goes with the code it ends with (R114, R280). -/
theorem Inv.ended (h : Inv s) (hp : s.engine = .pending) {err : Bool} {c : ErrCode} (hc : err = true → c ≠ .noError) :
    Inv { s with status := { s.status with busy := false, done := true, err := err, errcode := c }, engine := .idle } :=
  { h with
    busy := by simp
    waiting := by simpa using h.not_waiting (by simp [hp])
    quiet := by simp
    waitOp := by simp
    errCode := hc
    idleCount := by simp }

theorem Inv.completed (h : Inv s) (hp : s.engine = .pending) : Inv (completed s) := h.ended hp nofun

theorem Inv.failed (h : Inv s) (hp : s.engine = .pending) {c : ErrCode} (hc : c ≠ .noError) : Inv (failed s c) :=
  h.ended hp fun _ => hc

theorem Inv.slot_pos (h : Inv s) : 0 < s.cfg.slotSamples.toNat := by
  have := h.slot
  bv_omega

theorem Inv.startWait (h : Inv s) (hp : s.engine = .pending) (ho : opcField s.pend = 0x40#8) : Inv s.startWait :=
  { h with
    busy := by simpa [hp] using h.busy
    waiting := by simp
    waitOp := fun _ => ho
    idleCount := fun _ => h.slot_pos }

/-! ### Commands -/

/-- CALL_DECODE's text fills CALLTXT up to CALLTLEN and leaves 0x00 beyond (R38, R132). -/
theorem Inv.callDecoded (h : Inv s) (A : Addr) :
    Inv { s with
      callTxt := decodeCall A ++ List.replicate (9 - (decodeCall A).length) 0x00#8
      callInfo := { s.callInfo with tlen := BitVec.ofNat 4 (decodeCall A).length } } := by
  have hl := length_decodeCall_le A
  have ht : (BitVec.ofNat 4 (decodeCall A).length).toNat = (decodeCall A).length := by simp; omega
  refine { h with callText := ⟨by simp; omega, ht.trans_le hl, fun j h1 h2 => ?_⟩ }
  simp only [ht] at h1
  rw [List.getElem?_append_right h1, List.getElem?_replicate, if_pos (by omega)]

/-- The frame TEXT_TO_FRAME builds has 2 to 10 address fields and at most MAX_FRAME_LEN bytes (R154). -/
theorem frameOfText_bounds {q : BitVec 2} {m n : Nat} {t f : List Byte} (h : frameOfText q m t = .ok (n, f)) :
    2 ≤ n ∧ n ≤ 10 ∧ f.length ≤ m := by
  simp only [frameOfText] at h
  split at h
  next => cases h
  next =>
    split at h
    next => cases h
    next hp =>
      obtain ⟨h2, h10, -⟩ := pathLoop_shape (by simp) hp
      split at h
      next => cases h
      next hf =>
        cases h
        exact ⟨h2, h10, Nat.le_of_not_lt hf⟩

/-- A command that is running keeps the invariant to its end; only CSMA_ACQUIRE may go on into a wait. -/
theorem exec_keeps_inv (h : Inv s) (hp : s.engine = .pending) (i : Instr) (ho : i.opcode = opcField s.pend) :
    ∃ t, exec i s = .next t ∧ Inv t := by
  have hbad : Inv (Spec.failed s .badArg) := h.failed hp (by decide)
  have hframe : ∀ e, Inv (Spec.failed s (.frame e)) := fun e => h.failed hp (by simp)
  cases i with
  | nop a b =>
    refine ⟨_, execNop_cases s a b, ?_⟩
    split
    exacts [hbad, h.completed hp]
  | csmaAcquire a b =>
    refine ⟨_, execCsmaAcquire_cases s a b, ?_⟩
    split
    exacts [hbad, h.startWait hp ho.symm]
  | callDecode a b =>
    refine ⟨_, execCallDecode_cases s a b, ?_⟩
    split
    exacts [hbad, (h.callDecoded s.callp).completed hp]
  | callEncode a c =>
    refine ⟨_, execCallEncode_cases s a c, ?_⟩
    split
    exacts [hbad, Inv.completed { h with } hp]
  | frameValidate a b =>
    refine ⟨_, execFrameValidate_cases s a b, ?_⟩
    split
    · exact hbad
    · split
      next e _ => exact hframe e
      next n hv =>
        have hs := s.validate_eq_ok.mp hv
        exact (h.setHeader hs.minAddr hs.maxAddr).completed hp
  | frameToText a b =>
    refine ⟨_, execFrameToText_cases s a b, ?_⟩
    split
    · exact hbad
    · split
      next e _ => exact hframe e
      next n hv =>
        have hs := s.validate_eq_ok.mp hv
        split
        · exact h.failed hp (by decide)
        · have ht := h.setTb (i := 0) (bs := s.monitorText n) (by omega)
          exact ((ht.textLength _).setHeader hs.minAddr hs.maxAddr).completed hp
  | textToFrame a b =>
    refine ⟨_, execTextToFrame_cases s a b, ?_⟩
    split
    · exact hbad
    · split
      next e he =>
        have := frameOfText_error he
        exact h.failed hp (by rintro rfl; simp at this)
      next n f hf =>
        obtain ⟨h2, h10, hl⟩ := frameOfText_bounds hf
        have hm := maxFrameLen_le h.build
        have ht := h.setFb (i := 0) (bs := f) (by omega)
        exact ((ht.frameLength _).setHeader h2 h10).completed hp
  | crc16 a b =>
    refine ⟨_, execCrc16_cases s a b, ?_⟩
    split
    exacts [hbad, Inv.completed { h with } hp]
  | dupCheck a b =>
    refine ⟨_, execDupCheck_cases s a b, ?_⟩
    split
    exacts [hbad, Inv.completed { h.sweep with } hp]
  | dupRecord a b =>
    refine ⟨_, execDupRecord_cases s a b, ?_⟩
    split
    exacts [hbad, Inv.completed { h.sweep.insert _ with } hp]
  | dupCheckRecord a b =>
    refine ⟨_, execDupCheckRecord_cases s a b, ?_⟩
    split
    · exact hbad
    · split
      exacts [Inv.completed { h.sweep with } hp, Inv.completed { h.sweep.insert _ with } hp]
  | digiProcess a b =>
    refine ⟨_, execDigiProcess_cases s a b, ?_⟩
    split
    · exact hbad
    · split
      next e _ =>
        have hc : Inv s.clearMessage := { h with }
        exact (hc.digiDrop false (.frame e)).completed hp
      next n hv =>
        have hs := s.validate_eq_ok.mp hv
        have hk := (kept_clear_count s n).trans (kept_digiAccepted _ n)
        exact ((h.digiCount hs.minAddr hs.maxAddr).digiAccepted { hs with }).completed (hk.engine.trans hp)
  | pathInsertNode k b =>
    refine ⟨_, execPathInsertNode_cases s k b, ?_⟩
    split
    · exact hbad
    · split
      next e _ => exact hframe e
      next n hv =>
        have hs := s.validate_eq_ok.mp hv
        have h10 := hs.maxAddr
        split
        next => exact hbad
        next hk =>
          split
          next e _ => exact h.failed hp (by cases e <;> decide)
          next hr =>
            have hg := h.grow (k := k.toNat) hs.minAddr (le_nine_of_noRoom hs hr) (by omega) (frameShape_flen_le hs h)
            exact hg.completed ((kept_grow s n k.toNat).engine.trans hp)
  | pathOverwriteNode k b =>
    refine ⟨_, execPathOverwriteNode_cases s k b, ?_⟩
    split
    · exact hbad
    · split
      next e _ => exact hframe e
      next n hv =>
        have hs := s.validate_eq_ok.mp hv
        have h10 := hs.maxAddr
        split
        · exact hbad
        · exact ((h.overwriteNode (by omega)).setHeader hs.minAddr h10).completed hp

/-- The engine's step on a pending command. -/
theorem runPending_keeps_inv (h : Inv s) (hp : s.engine = .pending) : ∃ t, runPending s = .next t ∧ Inv t := by
  have hl : Inv s.latchTick := { h with }
  rcases runPending_cases s with ⟨i, hi, hr⟩ | ⟨e, -, hr⟩
  · rw [hr]
    exact exec_keeps_inv hl hp i (decode_fields hi).1
  · exact ⟨_, hr, hl.failed hp (by decide)⟩

/-! ### Samples -/

theorem Inv.sampleEvent (h : Inv s) (b : Bool) (r : Byte) : Inv (s.sampleEvent b r) := by
  by_cases hw : s.engine = .csmaWait
  · have hlt := h.idleCount hw
    rcases State.sampleEvent_cases hw b r with ⟨-, ht⟩ | ⟨-, hne, ht⟩ | ⟨-, -, -, ht⟩ | ⟨-, -, -, ht⟩ <;> rw [ht]
    · exact { h with idleCount := fun _ => h.slot_pos }
    · exact { h with idleCount := fun _ => by simp only; bv_omega }
    · exact { h with
        busy := by simp
        waiting := by simp
        quiet := by simp
        waitOp := by simp
        grantOp := fun _ => h.waitOp hw
        errCode := by simp
        idleCount := by simp }
    · exact { h with idleCount := fun _ => h.slot_pos }
  · rw [State.sampleEvent_other hw]
    exact h

theorem Inv.freeSample (h : Inv s) : Inv s.freeSample :=
  Inv.sampleEvent (s := { s with samples := s.samples + 1 }) { h with } _ _

/-! ### Resets -/

/-- After a soft reset only the build and the buffers are left as they were. -/
theorem inv_softReset (hb : s.params.wf = true) (hm : Memory.wf s.mem) : Inv s.softReset where
  build := hb
  memory := hm
  busy := iff_of_true rfl rfl
  waiting := iff_of_false nofun nofun
  quiet := nofun
  lastOp := rfl
  waitOp := nofun
  grantOp := nofun
  errCode := nofun
  slot := (by decide : (10#16 : Half) ≠ 0#16)
  idleCount := nofun
  tableSize := List.length_replicate
  callText := ⟨rfl, Nat.zero_le 9, fun j _ hj => by interval_cases j <;> rfl⟩
  header := .inl rfl
  recorded := iff_of_false nofun nofun
  trigger := nofun
  ackTag := nofun

theorem Inv.hardReset (h : Inv s) : Inv s.hardReset :=
  { inv_softReset h.build h.memory with memory := ⟨List.Pairwise.nil, nofun⟩ }

/-! ### Host accesses -/

theorem Inv.idle_of_not_busy (h : Inv s) (hb : s.status.busy = false) : s.engine = .idle := h.busy.mp hb

theorem Inv.issue (h : Inv s) (hb : s.status.busy = false) (w : Word) : Inv (s.issue w) :=
  { h with
    busy := by simp
    waiting := by simpa using h.not_waiting (by simp [h.idle_of_not_busy hb])
    quiet := by simp
    lastOp := rfl
    waitOp := by simp
    grantOp := by simp
    errCode := by simp
    idleCount := by simp }

theorem Inv.writeOneToClear (h : Inv s) (v : Word) : Inv { s with status := s.status.writeOneToClear v } :=
  { h with
    quiet := fun hb => by
      obtain ⟨hd, he, hg, hc⟩ := h.quiet hb
      simp [Status.writeOneToClear, hd, he, hg, hc]
    errCode := fun he => h.errCode (by simp [Status.writeOneToClear] at he; exact he.1) }

/-- Whatever an access does keeps the invariant. -/
theorem Inv.effect (h : Inv s) {a : Access} {t : State} (he : Effect s a t) : Inv t := by
  cases he with
  | none => exact h
  | config flen tlen rgn node cfg w hb hc =>
    exact { h with
      slot := by rcases hc with hc | rfl; exacts [hc, h.slot]
      idleCount := fun hw => by simp [h.idle_of_not_busy hb] at hw }
  | callp A => exact { h with }
  | ctrl irq c => exact { h with }
  | reset v => exact inv_softReset h.build h.memory
  | status v => exact h.writeOneToClear v
  | issue w hb => exact h.issue hb w
  | overrun => exact { h with }
  | dropped => exact { h with }
  | bytes off bs _ h1 h2 => exact h.setBytes h1 h2

theorem Inv.hostAccess (h : Inv s) (a : Access) : Inv (s.hostAccess a) := by
  rcases hostAccess_cases s a with ⟨-, ht⟩ | ⟨t, r, he, ht⟩ <;> rw [ht]
  · exact { h with }
  · exact { h.effect he with }

/-! ### One step -/

theorem eventStep_keeps_inv (h : Inv s) (e : Event) : ∃ t, eventStep e s = .next t ∧ Inv t := by
  cases e with
  | host a => exact ⟨_, rfl, h.hostAccess a⟩
  | engine =>
    by_cases hp : s.engine = .pending
    · obtain ⟨t, ht, hi⟩ := runPending_keeps_inv h hp
      exact ⟨t, (engineStep_pending s hp).trans ht, hi⟩
    · exact ⟨s, engineStep_other s hp, h⟩
  | sample b r => exact ⟨_, rfl, h.sampleEvent b r⟩
  | tick n => exact ⟨_, rfl, { h with }⟩
  | hardReset => exact ⟨_, rfl, h.hardReset⟩

theorem step_keeps_inv (h : Inv s) : ∃ t, step s = .next t ∧ Inv t := by
  rcases step_cases s with ⟨e, rest, -, ht⟩ | ⟨-, hp, ht⟩ | ⟨-, -, ht⟩ | ⟨-, -, ht⟩
  · rw [ht]
    exact eventStep_keeps_inv (s := { s with schedule := rest }) { h with } e
  · rw [ht]
    exact runPending_keeps_inv h hp
  · exact ⟨_, ht, h.freeSample⟩
  · exact ⟨_, ht, h⟩

/-- Settles O60, event by event: every operation of a command, each of its ends, a sample, a host access and both resets keep the
invariant. -/
theorem everyStepKeepsTheInvariant : Obligations.EveryStepKeepsTheInvariant := fun _ h => step_keeps_inv h

/-- Settles O59: the reset state is its own soft reset. -/
theorem invariantHoldsAfterReset : Obligations.InvariantHoldsAfterReset :=
  inv_softReset (s := State.reset) rfl ⟨List.Pairwise.nil, nofun⟩

end Sys2Proof.Spec
end

section
/-! PROOFS. Host accesses: guarded writes while BUSY = 1 (O49), what a buffer write stores (O51), and refused accesses (O52). -/

namespace Sys2Proof.Machine

open Sys2Proof.Spec

variable {s : State}

/-! ### Guarded places -/

/-- A write to FBUF or TBUF is guarded by BUSY (R78). -/
theorem State.writeWindow_buffer {off : Nat} (h : 0x100 ≤ off) (bs : List Byte) :
    s.writeWindow off bs = s.guarded fun s => s.setBytes off bs := if_neg (by omega)

/-- A word write into FBUF or TBUF writes the word's bytes (R73). -/
theorem State.writeWord_buffer {off : Nat} (h : 0x100 ≤ off) (v : Word) :
    s.writeWord off v = s.guarded fun s => s.setBytes off (bytesOfWord v) := by
  rw [State.writeWord, if_neg (by omega), State.writeWindow_buffer h]

/-- The operand and configuration registers whose writes BUSY guards (R78). -/
def guardedRegs : List Offset := [0x018#10, 0x01C#10, 0x020#10, 0x024#10, 0x028#10, 0x02C#10, 0x030#10]

theorem guardedRegs_aligned : ∀ off ∈ guardedRegs, off.toNat % 4 = 0 ∧ off.toNat < 0x80 := by decide

theorem State.writeReg_busy (hb : s.status.busy = true) {off : Offset} (h : off ∈ guardedRegs) (v : Word) :
    s.writeReg off.toNat v = { s with status := { s.status with wbusy := true } } := by
  simp only [guardedRegs, List.mem_cons, List.not_mem_nil, or_false] at h
  rcases h with rfl | rfl | rfl | rfl | rfl | rfl | rfl <;>
    simp only [BitVec.toNat_ofNat, State.writeReg, State.guarded_busy s _ hb]

/-- Settles O49: each of the named places is written under the guard, which drops the write because BUSY = 1. -/
theorem writesWhileBusyAreDropped : Obligations.WritesWhileBusyAreDropped := by
  intro s off hb
  refine ⟨fun v h => ?_, fun v h => ?_⟩
  · rcases h with h | ⟨h, h4⟩
    · obtain ⟨h4, hr⟩ := guardedRegs_aligned off h
      rw [step_write32_reg h4 hr, State.writeReg_busy hb h]
    · rw [step_write32 h4, State.writeWord_buffer h, State.guarded_busy s _ hb]
  · rw [step_write8 (by omega), State.writeWindow_buffer h, State.guarded_busy s _ hb]

/-! ### The bytes of a buffer write -/

theorem getD_bytesOfWord (v : Word) {k : Nat} (h : k < 4) : (bytesOfWord v).getD k 0#8 = v.extractLsb' (8 * k) 8 := by
  rw [← wordByte_eq_extract]
  interval_cases k <;> rfl

/-- Settles O51: with BUSY = 0 the guard lets the bytes through, and a byte read after the write is either one of them or the
old one. -/
theorem bufferWritesAreLittleEndian : Obligations.BufferWritesAreLittleEndian := by
  intro s off hb h
  refine ⟨fun v => ⟨{ s.setBytes off.toNat [v] with busResp := .ack }, ?_, fun a => ?_, rfl⟩,
    fun v h4 => ⟨{ s.setBytes off.toNat (bytesOfWord v) with busResp := .ack }, ?_, fun a => ?_, rfl⟩⟩
  · rw [step_write8 (by omega), State.writeWindow_buffer h, State.guarded_idle s _ hb]
  · refine (State.byteAt_setBytes s off.toNat [v] a).trans ?_
    by_cases ha : a = off.toNat
    · simp [ha]
    · rw [if_neg ha, if_pos (by simp only [List.length_singleton]; omega)]
  · rw [step_write32 h4, State.writeWord_buffer h, State.guarded_idle s _ hb]
  · refine (State.byteAt_setBytes s off.toNat (bytesOfWord v) a).trans ?_
    have hl : (bytesOfWord v).length = 4 := rfl
    by_cases ha : off.toNat ≤ a ∧ a < off.toNat + 4
    · rw [if_pos ha, if_neg (by omega), getD_bytesOfWord v (by omega)]
    · rw [if_neg ha, if_pos (by omega)]

/-! ### Refused accesses -/

/-- An access outside R72 is refused whatever the state (R74). -/
theorem step_refused {a : Access} (h : a.legal = false) :
    step (before (.host a) s) = .next { s with status := { s.status with buserr := true }, busResp := .refused a } := by
  simp only [step_before, eventStep, State.hostAccess, h, Bool.false_eq_true, if_false, State.refuse]

/-- Settles O52: none of the six forms is an access of R72. -/
theorem unsupportedAccessesAreRefused : Obligations.UnsupportedAccessesAreRefused := by
  intro s a ha
  refine ⟨step_refused ?_, rfl⟩
  rcases ha with ⟨off, rfl⟩ | ⟨off, v, rfl⟩ | ⟨off, rfl, h⟩ | ⟨off, v, rfl, h⟩ | ⟨off, rfl, h⟩ | ⟨off, v, rfl, h⟩
  · rfl
  · rfl
  · exact decide_eq_false h
  · exact decide_eq_false h
  · exact decide_eq_false (by omega)
  · exact decide_eq_false (by omega)

end Sys2Proof.Machine
end

section
/-! PROOFS. Command words (O1, O2, O3), the engine's step and the CMD write (O4, O5), and the unused argument fields (O6). -/

namespace Sys2Proof.Machine

open Sys2Proof.Spec

variable {s : State}

/-! ### Words and commands -/

/-- The encoded word has the command's own three fields, and these decode to it. -/
theorem decode_encode (i : Instr) : decode (encode i) = .ok i := by
  simp only [decode, opcField_encode, argAField_encode, argBField_encode]
  cases i <;> rfl

/-- Settles O1: the bytes of the word are the word again. -/
theorem decodeInvertsEncode : Obligations.DecodeInvertsEncode := fun i rest =>
  ⟨decode_encode i, by rw [decodeBytes_bytesOfWord, decode_encode]⟩

/-- A word is its three fields, which are the decoded command's. -/
theorem encode_of_decode {w : Word} {i : Instr} (h : decode w = .ok i) : encode i = w := by
  obtain ⟨ho, ha, hb⟩ := decode_fields h
  rw [encode, ho, ha, hb, word_of_fields]

/-- Settles O2: the rejected words are those whose OPC is not in the opcode map, and the decoder has one error. -/
theorem everyWordIsOneCommandOrReserved : Obligations.EveryWordIsOneCommandOrReserved := fun _ =>
  ⟨fun _ => encode_of_decode, decode_eq_error_iff.symm, fun _ => decode_error⟩

/-- Settles O3: the opcode map and the argument fields, read off each word. -/
theorem specWordsDecode : Obligations.SpecWordsDecode :=
  ⟨rfl, rfl, rfl, rfl, rfl, rfl, rfl, rfl, rfl, rfl, rfl⟩

/-! ### The engine -/

/-- With nothing scheduled a pending command runs by itself (R116, log entry 1). -/
theorem step_pending_own (hp : s.engine = .pending) (hs : s.schedule = []) : step s = runPending s := by
  simp only [step, hs, ownStep, hp]

theorem step_before_engine (hp : s.engine = .pending) : step (before .engine s) = runPending s :=
  engineStep_pending s hp

theorem runPending_ok {i : Instr} (h : decode s.pend = .ok i) : runPending s = exec i { s with tickSnap := s.tick } := by
  simp only [runPending, h, State.latchTick_eq]

theorem runPending_error {e : DecodeError} (h : decode s.pend = .error e) :
    runPending s = .next (failed { s with tickSnap := s.tick } .badOpcode) := by
  simp only [runPending, h]
  rfl

/-- Settles O4: both ways to the engine's step run the pending command, whose word decodes or is reserved. -/
theorem engineStepRunsThePendingCommand : Obligations.EngineStepRunsThePendingCommand := by
  intro s
  refine ⟨fun hp => ⟨fun i hi => ?_, fun e he => ?_, fun hw => ?_⟩, engineStep_other s⟩
  · rw [step_before_engine hp, runPending_ok hi]
    exact ⟨rfl, fun hs => by rw [step_pending_own hp hs, runPending_ok hi]⟩
  · rw [step_before_engine hp, runPending_error he]
    exact ⟨rfl, fun hs => by rw [step_pending_own hp hs, runPending_error he]⟩
  · have hi : decode s.pend = .ok (.csmaAcquire 0#8 0#16) := by rw [hw]; rfl
    rw [step_before_engine hp, runPending_ok hi]
    rfl

/-! ### The CMD write -/

theorem step_writeCmd (w : Word) :
    step (before (.host (.write32 0x014#10 w)) s) = .next { s.writeCmd w with busResp := .ack } :=
  step_write32_reg rfl (by decide) w

/-- Settles O5: BUSY decides between the issue and the overrun. -/
theorem cmdWriteIssuesOrOverruns : Obligations.CmdWriteIssuesOrOverruns := by
  intro s w
  refine ⟨fun hb => ?_, fun hb => ?_⟩ <;> rw [step_writeCmd, State.writeCmd, hb] <;> rfl

/-! ### Argument fields -/

/-- Settles O6: CALL_ENCODE checks ARG_A alone, the two path commands ARG_B alone, and the others both. -/
theorem unusedArgumentFieldFails : Obligations.UnusedArgumentFieldFails := by
  intro i s h
  cases i with
  | callEncode a c =>
    have ha : a ≠ 0#8 := by simpa [Instr.argA, Instr.argB, Instr.opcode] using h
    rw [exec, execCallEncode_cases, if_pos (.inl ha)]
  | pathInsertNode k b =>
    have hb : b ≠ 0#16 := by simpa [Instr.argA, Instr.argB, Instr.opcode] using h
    rw [exec, execPathInsertNode_cases, if_pos hb]
  | pathOverwriteNode k b =>
    have hb : b ≠ 0#16 := by simpa [Instr.argA, Instr.argB, Instr.opcode] using h
    rw [exec, execPathOverwriteNode_cases, if_pos hb]
  | nop a b | callDecode a b | frameValidate a b | frameToText a b | textToFrame a b | crc16 a b | dupCheck a b
  | dupRecord a b | dupCheckRecord a b | digiProcess a b | csmaAcquire a b =>
    have hu : argsUsed a b = true := by
      simpa [argsUsed_iff, Instr.argA, Instr.argB, Instr.opcode] using h
    simp only [exec, execNop_cases, execCallDecode_cases, execFrameValidate_cases, execFrameToText_cases,
      execTextToFrame_cases, execCrc16_cases, execDupCheck_cases, execDupRecord_cases, execDupCheckRecord_cases,
      execDigiProcess_cases, execCsmaAcquire_cases, hu, true_or, if_true]

end Sys2Proof.Machine
end

section
/-! PROOFS. The address fields of a frame: the frame TEXT_TO_FRAME builds is valid (O23), and path mutations keep its end (O41).

Both follow where bit 0 is set in the bytes of the address fields: at the last byte and nowhere else (R99, R104, R150). -/

namespace Sys2Proof.Machine

open Sys2Proof.Spec

variable {s t : State}

/-! ### Where bit 0 is set -/

/-- In a valid frame's address fields exactly the last byte has bit 0 set. -/
theorem frameShape_bit0_eq {n j : Nat} (h : FrameShape s n) (hj : j < 7 * n) :
    (s.fb j).getLsbD 0 = decide (j + 1 = 7 * n) := by
  by_cases hl : j + 1 = 7 * n
  · rw [show j = 7 * n - 1 by omega, h.terminal.2.1, decide_eq_true (by omega)]
  · rw [frameShape_bit0 h (by omega), decide_eq_false hl]

/-- If in `n` address fields exactly the last byte has bit 0 set, it is the end of the address block (R150). -/
theorem firstTerminal_of_bit0 {n : Nat} (hn : 1 ≤ n) (hw : 7 * n ≤ s.flen.toNat)
    (h : ∀ j, j < 7 * n → (s.fb j).getLsbD 0 = decide (j + 1 = 7 * n)) : FirstTerminal s (7 * n - 1) :=
  ⟨by omega, by rw [h _ (by omega), decide_eq_true (by omega)], fun j hj => by rw [h j (by omega), decide_eq_false (by omega)]⟩

/-- If among the SSID bytes of `n` address fields exactly the last has bit 0 set, so has exactly the last field E (R104). -/
theorem lastOnly_of_bit0 {n : Nat}
    (h : ∀ k, k < n → (s.fb (7 * k + 6)).getLsbD 0 = decide (7 * k + 6 + 1 = 7 * n)) : LastOnly s n := by
  intro k hk
  rw [show (s.field k).e = (s.fb (7 * k + 6)).getLsbD 0 from rfl, h k hk]
  exact decide_eq_decide.mpr (by omega)

/-- The bytes of FBUF are the bytes of its address fields. -/
theorem State.getD_bytes_field (s : State) (k : Nat) {i : Nat} (hi : i < 7) :
    (s.field k).bytes.getD i 0#8 = s.fb (7 * k + i) := by
  interval_cases i <;> rfl

theorem toNat_naddr {n : Nat} (h : n ≤ 10) : (BitVec.ofNat 8 n).toNat = n := by
  rw [BitVec.toNat_ofNat, Nat.mod_eq_of_lt (by omega)]

/-! ### The frame TEXT_TO_FRAME builds -/

theorem clearH_bit0 (b : Byte) : (clearH b).getLsbD 0 = b.getLsbD 0 := by simp [clearH]

theorem setE_bit0 (b : Byte) : (setE b).getLsbD 0 = true := by simp [setE]

/-- Every byte of the address has bit 0 clear (R95). -/
def Addr.Shifted (A : Addr) : Prop := ∀ b ∈ A.bytes, b.getLsbD 0 = false

theorem Addr.shifted_iff (A : Addr) : A.Shifted ↔ (∀ c ∈ A.call, c.getLsbD 0 = false) ∧ A.sb.getLsbD 0 = false := by
  simp [Addr.Shifted, Addr.bytes, Addr.call, and_assoc]

theorem encodeCall_shifted (q : BitVec 2) (x : List Byte) : (encodeCall q x).1.Shifted := encodeCall_bit0 q x

theorem Addr.Shifted.clearH {A : Addr} (h : A.Shifted) : Addr.Shifted { A with sb := clearH A.sb } := by
  rw [Addr.shifted_iff] at h ⊢
  exact ⟨h.1, (clearH_bit0 A.sb).trans h.2⟩

theorem Addr.Shifted.bit0 {A : Addr} (h : A.Shifted) {i : Nat} (hi : i < 7) : (A.bytes.getD i 0#8).getLsbD 0 = false := by
  rw [List.getD_eq_getElem _ _ (by simpa using hi)]
  exact h _ (List.getElem_mem _)

/-- With E set, bit 0 of the SSID byte is the only one. -/
theorem Addr.Shifted.setE_bit0 {A : Addr} (h : A.Shifted) {i : Nat} (hi : i < 7) :
    ((Addr.bytes { A with sb := setE A.sb }).getD i 0#8).getLsbD 0 = decide (i = 6) := by
  by_cases h6 : i = 6
  · subst h6
    exact Machine.setE_bit0 A.sb
  · have hi6 : i < 6 := by omega
    rw [decide_eq_false h6, ← h.bit0 hi]
    interval_cases i <;> rfl

/-- T2F's frame is made of encoded addresses; clearing H leaves bit 0 of the first two as it is (R154). -/
theorem frameOfText_ok {q : BitVec 2} {m n : Nat} {x f : List Byte} (h : frameOfText q m x = .ok (n, f)) :
    ∃ as pay, n = as.length ∧ f = frameBytes as pay ∧ ∀ A ∈ as, A.Shifted := by
  simp only [frameOfText] at h
  split at h
  next => cases h
  next =>
    split at h
    next => cases h
    next as pay hp =>
      split at h
      next => cases h
      next =>
        cases h
        refine ⟨as, pay, rfl, rfl, fun A hA => ?_⟩
        rcases (pathLoop_shape (by simp) hp).2.2 A hA with hA | ⟨r, rfl⟩
        · simp only [List.mem_cons, List.not_mem_nil, or_false] at hA
          rcases hA with rfl | rfl <;> exact (encodeCall_shifted q _).clearH
        · exact encodeCall_shifted q r

/-- In a written frame of encoded addresses exactly the last byte of the address fields has bit 0 set. -/
theorem frame_written_bit0 (s : State) {as : List Addr} (pay : List Byte) (has : ∀ A ∈ as, A.Shifted) {j : Nat}
    (hj : j < 7 * as.length) :
    ((s.setFb 0 (frameBytes as pay)).fb j).getLsbD 0 = decide (j + 1 = 7 * as.length) := by
  obtain ⟨hfield, -⟩ := State.frame_written s as pay
  obtain ⟨k, i, hi, rfl⟩ : ∃ k i, i < 7 ∧ j = 7 * k + i := ⟨j / 7, j % 7, by omega, by omega⟩
  have hk : k < as.length := by omega
  have hA := has _ (List.getElem_mem hk)
  rw [← State.getD_bytes_field _ _ hi, hfield k _ (List.getElem?_eq_getElem hk)]
  split
  · rw [hA.setE_bit0 hi]
    exact decide_eq_decide.mpr (by omega)
  · rw [hA.bit0 hi, decide_eq_false (by omega)]

/-- Writing a frame of encoded addresses and its length leaves a valid frame (R154). -/
theorem frame_written_shape (hp : s.params.wf = true) {as : List Addr} {pay : List Byte} (h2 : 2 ≤ as.length)
    (h10 : as.length ≤ 10) (hm : (frameBytes as pay).length ≤ s.params.maxFrameLen) (has : ∀ A ∈ as, A.Shifted) :
    FrameShape { s.setFb 0 (frameBytes as pay) with flen := BitVec.ofNat 16 (frameBytes as pay).length } as.length := by
  have hlen := length_frameBytes as pay
  have hmax := maxFrameLen_le hp
  have hflen : (BitVec.ofNat 16 (frameBytes as pay).length).toNat = (frameBytes as pay).length := by
    rw [BitVec.toNat_ofNat, Nat.mod_eq_of_lt (by omega)]
  obtain ⟨-, hcontrol, -⟩ := State.frame_written s as pay
  exact {
    notLong := hflen.trans_le hm
    notShort := by simp only [hflen]; omega
    terminal := firstTerminal_of_bit0 (by omega) (by simp only [hflen]; omega) fun j hj => frame_written_bit0 s pay has hj
    minAddr := h2
    maxAddr := h10
    whole := by simp only [hflen]; omega
    control := hcontrol }

/-- Settles O23: a text that is accepted is the frame of encoded addresses, and E on the last field only is part of its validity. -/
theorem textToFrameLeavesAValidFrame : Obligations.TextToFrameLeavesAValidFrame := by
  intro s t hp he hok
  rw [exec, execTextToFrame_cases, Host.Outcome.next.injEq] at he
  split at he
  · subst he
    cases hok
  · split at he
    next =>
      subst he
      cases hok
    next n f hf =>
      obtain ⟨h2, h10, hm⟩ := frameOfText_bounds hf
      obtain ⟨as, pay, rfl, rfl, has⟩ := frameOfText_ok hf
      have hs := frame_written_shape hp h2 h10 hm has
      have hn : t.hdr.naddr.toNat = as.length := he ▸ toNat_naddr h10
      have ht : FrameShape t as.length := he ▸ { hs with }
      rw [hn]
      exact ⟨ht, frameShape_lastOnly ht⟩

end Sys2Proof.Machine

namespace Sys2Proof.Spec

open Sys2Proof.Machine

variable {s t : State}

/-! ### Path mutations -/

/-- `t` holds the frame of `m` address fields that the rule engine or a path mutation leaves of a frame of `n` address fields in
`s`. The node's call bytes are the host's to choose, so nothing is said about their bit 0 (R104, R224, R231). -/
structure PathMutated (s : State) (n : Nat) (t : State) (m : Nat) : Prop where
  header : t.hdr.naddr.toNat = m
  params : t.params = s.params
  fields : n ≤ m
  grown : t.flen.toNat = s.flen.toNat + 7 * (m - n)
  notLong : t.flen.toNat ≤ s.params.maxFrameLen
  minAddr : 2 ≤ m
  maxAddr : m ≤ 10
  whole : 7 * m + 2 ≤ t.flen.toNat
  control : t.fb (7 * m) = 0x03#8
  bit0 : ∀ j, j < 7 * m →
    (t.fb j).getLsbD 0 = decide (j + 1 = 7 * m) ∨ (j % 7 ≠ 6 ∧ t.fb j ∈ s.node.call)

/-- No SSID byte is a call byte of the node. -/
theorem PathMutated.lastOnly {n m : Nat} (h : PathMutated s n t m) : LastOnly t m :=
  lastOnly_of_bit0 fun k hk => (h.bit0 _ (by omega)).resolve_right fun hc => by omega

/-- With shifted call bytes in NODE the mutated frame is valid. -/
theorem PathMutated.frameShape {n m : Nat} (h : PathMutated s n t m) (hnode : ∀ c ∈ s.node.call, c.getLsbD 0 = false) :
    FrameShape t m := by
  have hm := h.minAddr
  have hw := h.whole
  refine {
    notLong := by rw [h.params]; exact h.notLong
    notShort := by omega
    terminal := firstTerminal_of_bit0 (by omega) (by omega) fun j hj => ?_
    minAddr := hm
    maxAddr := h.maxAddr
    whole := hw
    control := h.control }
  rcases h.bit0 j hj with hb | ⟨h6, hc⟩
  · exact hb
  · rw [hnode _ hc, decide_eq_false (by omega)]

/-- A frame that is left as it is. -/
theorem FrameShape.unmutated {n : Nat} (h : FrameShape s n) (hn : s.hdr.naddr.toNat = n) : PathMutated s n s n where
  header := hn
  params := rfl
  fields := le_rfl
  grown := by omega
  notLong := h.notLong
  minAddr := h.minAddr
  maxAddr := h.maxAddr
  whole := h.whole
  control := h.control
  bit0 := fun _ hj => .inl (frameShape_bit0_eq h hj)

theorem nodeSsid_bit0 (node : Addr) (e : Bool) : (nodeSsid node e).getLsbD 0 = e := by
  cases e <;> simp [nodeSsid]

theorem getD_call_mem (A : Addr) {i : Nat} (hi : i < 6) : A.call.getD i 0#8 ∈ A.call := by
  rw [List.getD_eq_getElem _ _ (by simpa [Addr.call] using hi)]
  exact List.getElem_mem _

/-- OVERWRITE_NODE keeps the entry's E bit (R231). -/
theorem FrameShape.overwriteNode {n k : Nat} (h : FrameShape s n) (hk : k < n) :
    PathMutated s n ((s.overwriteNode k).setHeader n (payIdxOf n)) n where
  header := toNat_naddr h.maxAddr
  params := rfl
  fields := le_rfl
  grown := by rw [Nat.sub_self]; rfl
  notLong := h.notLong
  minAddr := h.minAddr
  maxAddr := h.maxAddr
  whole := h.whole
  control := by
    refine (s.fb_overwriteNode k _).trans ?_
    rw [overwrittenByte, if_neg (by omega), if_neg (by omega), if_neg (by omega), h.control]
  bit0 := fun j hj => by
    have hfb : ((s.overwriteNode k).setHeader n (payIdxOf n)).fb j = overwrittenByte s k j := s.fb_overwriteNode k j
    rw [hfb, overwrittenByte]
    split
    · exact .inl (frameShape_bit0_eq h hj)
    · split
      · exact .inr ⟨by omega, getD_call_mem _ (by omega)⟩
      · split
        · rw [nodeSsid_bit0, frameShape_bit0_eq h (by omega)]
          exact .inl (decide_eq_decide.mpr (by omega))
        · exact .inl (frameShape_bit0_eq h hj)

/-- INSERT_NODE moves the end of the address block up by one field, or to the node's entry behind the last field (R224). -/
theorem FrameShape.grow {n k : Nat} (h : FrameShape s n) (hp : s.params.wf = true) (hr : s.noRoom n = none) (h2 : 2 ≤ k)
    (hk : k ≤ n) : PathMutated s n (s.grow n k) (n + 1) := by
  have h9 := le_nine_of_noRoom h hr
  have hroom := ((State.noRoom_eq_none h.maxAddr).mp hr).2
  have hw := h.whole
  have hmax := maxFrameLen_le hp
  have hflen : (s.grow n k).flen.toNat = s.flen.toNat + 7 := by
    have hf : (s.grow n k).flen = BitVec.ofNat 16 (s.flen.toNat + 7) := flen_add_seven s.flen
    rw [hf, BitVec.toNat_ofNat, Nat.mod_eq_of_lt (by omega)]
  have hfb (j : Nat) : (s.grow n k).fb j = insertedByte s k j :=
    (s.grow_fb n k j).trans (s.fb_insertNode (by omega) (by omega) j)
  refine {
    header := toNat_naddr (n := n + 1) (by omega)
    params := (kept_grow s n k).params
    fields := by omega
    grown := by omega
    notLong := by omega
    minAddr := by omega
    maxAddr := by omega
    whole := by omega
    control := ?_
    bit0 := fun j hj => ?_ }
  · rw [hfb, insertedByte, if_neg (by omega), if_neg (by omega), if_neg (by omega), if_neg (by omega), if_pos (by omega),
      show 7 * (n + 1) - 7 = 7 * n by omega, h.control]
  · rw [hfb, insertedByte]
    split
    · refine .inl ?_
      rw [decide_eq_false (by omega)]
      simp
    · split
      · rw [frameShape_bit0_eq h (by omega)]
        exact .inl (decide_eq_decide.mpr (by omega))
      · split
        · exact .inr ⟨by omega, getD_call_mem _ (by omega)⟩
        · split
          · rw [nodeSsid_bit0, frameShape_bit0_eq h (by omega)]
            exact .inl (decide_eq_decide.mpr (by omega))
          · rw [if_pos (by omega), frameShape_bit0_eq h (by omega)]
            exact .inl (decide_eq_decide.mpr (by omega))

/-- Replacing the SSID of a field leaves bit 0 of every byte, and so the frame valid (R225, R229). -/
theorem FrameShape.setSsid {n : Nat} (h : FrameShape s n) (k : Nat) (x : BitVec 4) : FrameShape (s.setSsid k x) n := by
  have hm := h.minAddr
  have hw := h.whole
  refine { h with
    terminal := firstTerminal_of_bit0 (by omega) (show _ ≤ s.flen.toNat by omega) fun j hj => ?_
    control := by rw [State.fb_setSsid, if_neg (by omega), h.control] }
  rw [← frameShape_bit0_eq h hj, State.fb_setSsid]
  split
  next he => rw [he, (withSsid_bits _ x).1]
  next => rfl

/-! ### The rule engine -/

/-- Recording a digipeat leaves the frame (R225, R229, R230). -/
theorem PathMutated.digiRepeat {n m : Nat} (h : PathMutated s n t m) (cs : Half) (b : Bool) (r : Reason) (g : Bool) (k : Nat) :
    PathMutated s n (t.digiRepeat cs b r g k) m :=
  { h with }

/-- A new SSID leaves what a mutation is measured against in the first state: MAX_FRAME_LEN, FLEN and NODE. -/
theorem PathMutated.of_setSsid {n m i : Nat} {x : BitVec 4} (h : PathMutated (s.setSsid i x) n t m) : PathMutated s n t m :=
  { h with }

/-- An insertion of the rule engine, after an SSID was lowered (R225, R229). -/
theorem FrameShape.digiInsert {n i k : Nat} (h : FrameShape s n) (hp : s.params.wf = true) (hr : s.noRoom n = none)
    (h2 : 2 ≤ k) (hk : k ≤ n) (x : BitVec 4) (cs : Half) (b : Bool) (r : Reason) :
    PathMutated s n (((s.setSsid i x).grow n k).digiRepeat cs b r true k) (n + 1) :=
  ((h.setSsid i x).grow hp hr h2 hk).of_setSsid.digiRepeat _ _ _ _ _

theorem FrameShape.digiDest {n : Nat} (h : FrameShape s n) (hp : s.params.wf = true) (hn : s.hdr.naddr.toNat = n) (cs : Half)
    (b : Bool) : ∃ m, PathMutated s n (s.digiDest n cs b) m := by
  have h2 := h.minAddr
  simp only [State.digiDest]
  split
  next => exact ⟨n, { h.unmutated hn with }⟩
  next hr =>
    have hL := frameShape_lastOnly (h.setSsid 0 ((s.field 0).ssid - 1#4))
    obtain ⟨hk2, hkn, -⟩ := State.insertionPoint_spec hL n 2 le_rfl h2 (by omega) fun j _ _ => by omega
    exact ⟨n + 1, h.digiInsert hp hr hk2 hkn _ _ _ _⟩

theorem FrameShape.digiWide {n k : Nat} (h : FrameShape s n) (hp : s.params.wf = true) (hn : s.hdr.naddr.toNat = n)
    (h2 : 2 ≤ k) (hk : k < n) (cs : Half) (b : Bool) : ∃ m, PathMutated s n (s.digiWide n k cs b) m := by
  simp only [State.digiWide]
  split
  · split
    next => exact ⟨n, { h.unmutated hn with }⟩
    next hr => exact ⟨n + 1, h.digiInsert hp hr h2 hk.le _ _ _ _⟩
  · have ho : PathMutated s n (s.overwriteNode k) n := { h.overwriteNode hk with header := hn }
    exact ⟨n, ho.digiRepeat _ _ _ _ _⟩

theorem FrameShape.digiRules {n : Nat} (h : FrameShape s n) (hp : s.params.wf = true) (hn : s.hdr.naddr.toNat = n) (cs : Half)
    (b : Bool) : ∃ m, PathMutated s n (s.digiRules n cs b) m := by
  have hdrop (r : Reason) : ∃ m, PathMutated s n (s.digiDrop b r) m := ⟨n, { h.unmutated hn with }⟩
  simp only [State.digiRules]
  split
  · exact h.digiDest hp hn cs b
  · split
    · exact hdrop _
    · split
      next => exact hdrop _
      next k hc =>
        obtain ⟨h2, hk, -⟩ := State.candidate_eq_some.mp hc
        split
        · exact h.digiWide hp hn h2 hk cs b
        · exact hdrop _

theorem FrameShape.digiAccepted {n : Nat} (h : FrameShape s n) (hp : s.params.wf = true) (hn : s.hdr.naddr.toNat = n) :
    ∃ m, PathMutated s n (s.digiAccepted n) m := by
  have hkept := h.unmutated hn
  simp only [State.digiAccepted]
  split
  · exact ⟨n, { hkept with }⟩
  · split
    · exact ⟨n, { hkept with }⟩
    · split
      · exact ⟨n, { hkept with }⟩
      · have hs : FrameShape s.sweep n := { h with }
        obtain ⟨m, hm⟩ := hs.digiRules hp hn (crc (s.payload (payIdxOf n))) (startsWith (s.payload (payIdxOf n)) beaconPattern)
        exact ⟨m, { hm with }⟩

/-! ### The three commands -/

theorem opcode_pathMutation {i : Instr} (h : i.opcode ∈ [0x30#8, 0x31#8, 0x32#8]) :
    ∃ a b, i = .digiProcess a b ∨ i = .pathInsertNode a b ∨ i = .pathOverwriteNode a b := by
  cases i <;> simp [Instr.opcode] at h ⊢

/-- On a valid frame DIGI_PROCESS and the two path commands fail, or leave a mutated frame (R233 to R235). -/
theorem exec_pathMutation {i : Instr} {n : Nat} (h : FrameShape s n) (hp : s.params.wf = true)
    (hi : i.opcode ∈ [0x30#8, 0x31#8, 0x32#8]) (he : exec i s = .next t) :
    (∃ c, t = failed s c) ∨ ∃ m, PathMutated s n t m := by
  have hv := s.validate_eq_ok.mpr h
  obtain ⟨a, b, rfl | rfl | rfl⟩ := opcode_pathMutation hi
  · rw [exec, execDigiProcess_cases, hv, Host.Outcome.next.injEq] at he
    subst he
    split
    · exact .inl ⟨_, rfl⟩
    · have hs : FrameShape (s.clearMessage.digiCount n) n := { h with }
      obtain ⟨m, hm⟩ := hs.digiAccepted hp (toNat_naddr h.maxAddr)
      exact .inr ⟨m, { hm with }⟩
  · rw [exec, execPathInsertNode_cases, hv, Host.Outcome.next.injEq] at he
    dsimp only at he
    subst he
    split
    · exact .inl ⟨_, rfl⟩
    · split
      next => exact .inl ⟨_, rfl⟩
      next hk =>
        split
        next => exact .inl ⟨_, rfl⟩
        next hr => exact .inr ⟨n + 1, { h.grow hp hr (k := a.toNat) (by omega) (by omega) with }⟩
  · rw [exec, execPathOverwriteNode_cases, hv, Host.Outcome.next.injEq] at he
    dsimp only at he
    subst he
    split
    · exact .inl ⟨_, rfl⟩
    · split
      · exact .inl ⟨_, rfl⟩
      · exact .inr ⟨n, { h.overwriteNode (k := a.toNat) (by omega) with }⟩

/-- Settles O41: the mutated frame's last address byte has bit 0 set, and no other byte of its fields but a call byte of the node. -/
theorem pathMutationsKeepTheFrameInvariant : Obligations.PathMutationsKeepTheFrameInvariant := by
  intro i s t n hp h hi he hok
  rcases exec_pathMutation h hp hi he with ⟨c, rfl⟩ | ⟨m, hm⟩
  · cases hok
  · rw [hm.header]
    exact ⟨hm.lastOnly, hm.notLong, hm.grown, hm.frameShape⟩

end Sys2Proof.Spec
end

section
/-! PROOFS. The callsign codec: CALL_DECODE (O14), CALL_ENCODE (O15), and the round trip of a callsign text (O16). -/

namespace Sys2Proof.Machine

open Sys2Proof.Spec

variable {s : State}

/-! ### The commands with legal operands -/

theorem exec_callDecode (s : State) :
    exec (.callDecode 0#8 0#16) s =
      .next (completed { s with
        callTxt := decodeCall s.callp ++ List.replicate (9 - (decodeCall s.callp).length) 0x00#8
        callInfo := { s.callInfo with tlen := BitVec.ofNat 4 (decodeCall s.callp).length } }) :=
  execCallDecode_cases s 0#8 0#16

theorem exec_callEncode_badArg {cursor : BitVec 16} (h : 512 < s.tlen.toNat ∨ s.tlen.toNat < cursor.toNat) :
    exec (.callEncode 0#8 cursor) s = .next (failed s .badArg) := by
  rw [exec, execCallEncode_cases, if_pos (.inr h)]

theorem exec_callEncode {cursor : BitVec 16} (hl : s.tlen.toNat ≤ 512) (hc : cursor.toNat ≤ s.tlen.toNat) {A : Addr} {k : Nat}
    (he : encodeCall s.params.encRR (s.tbs cursor.toNat (s.tlen.toNat - cursor.toNat)) = (A, k)) :
    exec (.callEncode 0#8 cursor) s =
      .next (completed { s with
        callp := A
        callInfo := { s.callInfo with curOut := BitVec.ofNat 16 (cursor.toNat + k) } }) := by
  have hlegal : ¬ (0#8 ≠ 0#8 ∨ 512 < s.tlen.toNat ∨ s.tlen.toNat < cursor.toNat) := by simp; omega
  rw [exec, execCallEncode_cases, if_neg hlegal, State.drop_text, he]

/-! ### CALL_DECODE and CALL_ENCODE -/

/-- Settles O14: stripping the pads leaves the characters up to the last that is no space. -/
theorem callDecodeGivesTheCallText : Obligations.CallDecodeGivesTheCallText := by
  intro s n hn hpad hlast t ht
  have htext : decodeCall s.callp = t := (decodeCall_eq s.callp n hn hpad hlast).trans ht.symm
  rw [exec_callDecode, htext]

/-- The address ENCODE builds of the parts of a callsign text: call characters, SSID digits and whether `*` follows (R130). -/
def encodedAddr (q : BitVec 2) (call digits : List Byte) (star : Bool) : Addr :=
  ⟨callByte call 0, callByte call 1, callByte call 2, callByte call 3, callByte call 4, callByte call 5,
    encodedSsid q star (ssidOfDigits digits)⟩

theorem encodedAddr_call (q : BitVec 2) {call : List Byte} (digits : List Byte) (star : Bool) (hl : call.length ≤ 6) :
    (encodedAddr q call digits star).call =
      call.map (fun c : Byte => c <<< 1) ++ List.replicate (6 - call.length) 0x40#8 :=
  callBytes_eq hl

theorem encodedAddr_flags (q : BitVec 2) (call digits : List Byte) (star : Bool) :
    (encodedAddr q call digits star).h = star ∧ (encodedAddr q call digits star).rr = q ∧
      (encodedAddr q call digits star).e = false := by
  obtain ⟨hH, hrr, -, hE⟩ := encodedSsid_fields q star _ (ssidOfDigits_lt digits)
  exact ⟨hH, hrr, hE⟩

/-- Four bits hold the digits' value modulo 16 (R98). -/
theorem encodedAddr_ssid (q : BitVec 2) (call digits : List Byte) (star : Bool) :
    (encodedAddr q call digits star).ssid = BitVec.ofNat 4 (digitsValue digits) := by
  obtain ⟨-, -, hssid, -⟩ := encodedSsid_fields q star _ (ssidOfDigits_lt digits)
  rw [encodedAddr, Addr.ssid, hssid, ssidOfDigits_eq]
  exact BitVec.eq_of_toNat_eq (by simp)

/-- Settles O15: ENCODE reads the parts of the text one after another, each to its stop. -/
theorem callEncodeReadsTheLongestCall : Obligations.CallEncodeReadsTheLongestCall := by
  intro s cursor
  refine ⟨exec_callEncode_badArg, ?_⟩
  intro call digits rest dash star hl hc htext hcall halnum hdigit hnone hcallStop hdashStop hdigitStop hstarStop
  have hread := encodeCall_spec s.params.encRR call digits rest dash star hcall halnum hdigit hnone hcallStop hdashStop
    hdigitStop hstarStop
  rw [← htext] at hread
  obtain ⟨hH, hrr, hE⟩ := encodedAddr_flags s.params.encRR call digits star
  refine ⟨encodedAddr s.params.encRR call digits star, encodedAddr_call _ digits star hcall, hH, hrr,
    encodedAddr_ssid _ call digits star, hE, ?_⟩
  rw [exec_callEncode hl hc hread]
  simp only [encodedAddr, Nat.add_assoc]

end Sys2Proof.Machine

namespace Sys2Proof.Spec

open Sys2Proof.Machine

/-! ### The round trip -/

/-- The SSID digits of a callsign text: none for SSID 0. -/
def CallText.digits (c : CallText) : List Byte := if c.ssid = 0 then [] else decimal c.ssid

/-- A callsign text as the parts ENCODE reads: no `*`, and nothing after. -/
theorem CallText.chars_parts (c : CallText) :
    c.chars = c.call ++ (if decide (c.ssid ≠ 0) then 0x2D#8 :: c.digits else []) ++ (if false then [0x2A#8] else []) ++ [] := by
  by_cases h : c.ssid = 0 <;> simp [CallText.chars, CallText.digits, h]

theorem CallText.length_chars (c : CallText) :
    c.chars.length = c.call.length + (if decide (c.ssid ≠ 0) then 1 + c.digits.length else 0) := by
  rw [c.chars_parts]
  split <;> simp [Nat.add_comm]

theorem CallText.digits_isDigit {c : CallText} (h : c.ssid < 16) : ∀ x ∈ c.digits, isDigit x = true := by
  rw [CallText.digits]
  split
  · exact fun _ hx => nomatch hx
  · exact decimal_digits _ h

theorem CallText.digitsValue_digits {c : CallText} (h : c.ssid < 16) : digitsValue c.digits = c.ssid := by
  rw [CallText.digits]
  split
  next h0 => rw [h0]; rfl
  next => exact digitsValue_decimal _ h

/-- Settles O16: CALL_ENCODE reads the whole text (O15), and CALL_DECODE spells what it stored. -/
theorem callTextRoundTrips : Obligations.CallTextRoundTrips := by
  intro s cursor c hl hc hcall halnum hssid htext
  have hlen : s.tlen.toNat - cursor.toNat = c.chars.length := by rw [← htext, State.length_tbs]
  obtain ⟨A, hA, -, -, hAssid, -, hencode⟩ := (callEncodeReadsTheLongestCall s cursor).2 c.call c.digits []
    (decide (c.ssid ≠ 0)) false hl hc (htext.trans c.chars_parts) hcall halnum (CallText.digits_isDigit hssid)
    (fun h => if_pos (by simpa using h)) (by simp) (by simp) (by simp) (by simp)
  rw [CallText.digitsValue_digits hssid] at hAssid
  have hdecode : decodeCall A = c.chars := decodeCall_chars halnum hssid hA hAssid
  have hnine : c.chars.length ≤ 9 := hdecode ▸ length_decodeCall_le A
  refine ⟨_, _, hencode, exec_callDecode _, ?_, ?_⟩
  · have hend : cursor.toNat + c.call.length + (if decide (c.ssid ≠ 0) then 1 + c.digits.length else 0) = s.tlen.toNat := by
      have := c.length_chars
      omega
    simp only [completed, hend, Bool.false_eq_true, if_false, Nat.add_zero, BitVec.ofNat_toNat, BitVec.setWidth_eq]
  · have hcount : (BitVec.ofNat 4 c.chars.length).toNat = c.chars.length := by simp; omega
    simp only [completed, hdecode, hcount, List.take_left]

end Sys2Proof.Spec
end

section
/-! PROOFS. The frame parser: FRAME_VALIDATE decides every frame (O17, O19), and a malformed frame is refused or dropped (O18).

All three rest on VALIDATE accepting exactly the frames of `FrameShape` and refusing exactly those of `FrameError` (R150). -/

namespace Sys2Proof.Machine

open Sys2Proof.Spec

variable {s : State}

theorem exec_frameValidate_of_shape {n : Nat} (h : FrameShape s n) :
    exec (.frameValidate 0#8 0#16) s = .next (completed (described s n)) := by
  rw [exec, execFrameValidate_cases, s.validate_eq_ok.mpr h, ← s.setHeader_eq n h.whole]
  rfl

theorem exec_frameValidate_of_error {e : FrameErr} (h : FrameError s e) :
    exec (.frameValidate 0#8 0#16) s = .next (failed s (.frame e)) := by
  rw [exec, execFrameValidate_cases, s.validate_eq_error.mpr h]
  rfl

/-- Settles O17: VALIDATE accepts the frame with `n` fields, and `described` is what R151 writes of them. -/
theorem frameValidateReportsTheGeometry : Obligations.FrameValidateReportsTheGeometry :=
  fun _ _ h => exec_frameValidate_of_shape h

/-- Settles O18: after the argument check each command asks VALIDATE first, and ends with its error. -/
theorem malformedFramesAreRefusedOrDropped : Obligations.MalformedFramesAreRefusedOrDropped := by
  intro s e h
  have hv := s.validate_eq_error.mpr h
  refine ⟨exec_frameValidate_of_error h, ?_, fun k => ?_, fun k => ?_, ?_⟩
  · rw [exec, execFrameToText_cases, hv]
    rfl
  · rw [exec, execPathInsertNode_cases, hv]
    rfl
  · rw [exec, execPathOverwriteNode_cases, hv]
    rfl
  · rw [exec, execDigiProcess_cases, hv]
    rfl

/-! ### The outcomes of FRAME_VALIDATE exclude one another -/

/-- A frame is valid with some number of address fields, or it has an error of R150. -/
theorem frameShape_or_frameError (s : State) : (∃ n, FrameShape s n) ∨ ∃ e, FrameError s e := by
  cases h : s.validate with
  | ok n => exact .inl ⟨n, s.validate_eq_ok.mp h⟩
  | error e => exact .inr ⟨e, s.validate_eq_error.mp h⟩

theorem not_frameShape_of_frameError {e : FrameErr} {n : Nat} (he : FrameError s e) : ¬ FrameShape s n := fun hn => by
  have hv := s.validate_eq_error.mpr he
  rw [s.validate_eq_ok.mpr hn] at hv
  cases hv

theorem completed_ne_failed (s t : State) (c : ErrCode) : completed s ≠ failed t c := fun h =>
  Bool.false_ne_true (congrArg (fun u : State => u.status.err) h)

/-- The eight bits of HDR_INFO.NADDR tell the numbers of fields up to ten apart. -/
theorem completed_described_inj {m n : Nat} (hm : m ≤ 10) (hn : n ≤ 10)
    (h : completed (described s m) = completed (described s n)) : m = n := by
  have hb : BitVec.ofNat 8 m = BitVec.ofNat 8 n := congrArg (fun u : State => u.hdr.naddr) h
  rw [← toNat_naddr hm, hb, toNat_naddr hn]

theorem failed_frame_inj {e e' : FrameErr} (h : failed s (.frame e) = failed s (.frame e')) : e = e' :=
  ErrCode.frame.inj (congrArg (fun u : State => u.status.errcode) h)

/-- Settles O19: one of the two ends is there by VALIDATE, and the end tells which, with its number of fields or its error. -/
theorem everyFrameHasOneOutcome : Obligations.EveryFrameHasOneOutcome := by
  intro s
  rcases frameShape_or_frameError s with ⟨m, hm⟩ | ⟨e, he⟩
  · refine ⟨_, exec_frameValidate_of_shape hm, fun n hn => ⟨fun h => ?_, fun h => ?_⟩, fun e => ⟨fun h => ?_, fun h => ?_⟩,
      .inl ⟨m, hm.maxAddr, hm⟩⟩
    · exact Host.Outcome.next.inj ((exec_frameValidate_of_shape hm).symm.trans (exec_frameValidate_of_shape h))
    · exact completed_described_inj hm.maxAddr hn h ▸ hm
    · exact absurd hm (not_frameShape_of_frameError h)
    · exact absurd h (completed_ne_failed _ _ _)
  · refine ⟨_, exec_frameValidate_of_error he, fun n _ => ⟨fun h => ?_, fun h => ?_⟩, fun e' => ⟨fun h => ?_, fun h => ?_⟩,
      .inr ⟨e, he⟩⟩
    · exact absurd h (not_frameShape_of_frameError he)
    · exact absurd h.symm (completed_ne_failed _ _ _)
    · exact Host.Outcome.next.inj ((exec_frameValidate_of_error he).symm.trans (exec_frameValidate_of_error h))
    · exact failed_frame_inj h ▸ he

end Sys2Proof.Machine
end

section
/-! PROOFS. The codec between frame and monitor text: FRAME_TO_TEXT (O20), TEXT_TO_FRAME (O21, O22), and the round trip of
canonical text (O24). -/

namespace Sys2Proof.Machine

open Sys2Proof.Spec

variable {s : State}

/-! ### FRAME_TO_TEXT -/

/-- The model's monitor text in the form of R152: the fields from 2 on in their order. -/
theorem State.monitorText_eq (s : State) (n : Nat) :
    s.monitorText n = decodeCall (s.field 1) ++ [0x3E#8] ++ decodeCall (s.field 0) ++
      (List.range' 2 (n - 2)).flatMap
        (fun k => [0x2C#8] ++ decodeCall (s.field k) ++ (if (s.field k).h then [0x2A#8] else [])) ++
      [0x3A#8] ++ s.fbs (7 * n + 2) (s.flen.toNat - (7 * n + 2)) := by
  have hpath : ((List.range (n - 2)).map fun j => s.pathText (j + 2)).flatten = (List.range' 2 (n - 2)).flatMap s.pathText := by
    rw [List.range'_eq_map_range, List.flatMap_map, List.flatMap_def]
    simp only [Nat.add_comm]
  simp only [State.monitorText, hpath, State.payload, payIdxOf, List.append_assoc, List.cons_append, List.nil_append]
  rfl

/-- In a legal build the text of a valid frame fits, so FRAME_TO_TEXT writes it. -/
theorem exec_frameToText_of_shape (hp : s.params.wf = true) {n : Nat} (h : FrameShape s n) {x : List Byte}
    (hx : s.monitorText n = x) :
    exec (.frameToText 0#8 0#16) s =
      .next (completed (described { s.setTb 0 x with tlen := BitVec.ofNat 16 x.length } n)) := by
  have hfit := length_monitorText_le h hp
  rw [exec, execFrameToText_cases, s.validate_eq_ok.mpr h, if_neg (by simp)]
  simp only
  rw [if_neg (by omega), hx, State.setHeader_eq _ n (by exact h.whole)]

/-- Settles O20: the text is what was written to TBUF; above it TBUF is unchanged, and FBUF lies before it. -/
theorem frameToTextWritesTheMonitorText : Obligations.FrameToTextWritesTheMonitorText := by
  intro s n x hp h hx
  have hx : s.monitorText n = x := (s.monitorText_eq n).trans hx.symm
  have hfit := hx ▸ length_monitorText_le h hp
  have hlen : (BitVec.ofNat 16 x.length).toNat = x.length := by
    rw [BitVec.toNat_ofNat, Nat.mod_eq_of_lt (by omega)]
  refine ⟨_, exec_frameToText_of_shape hp h hx, ?_, fun j hj => ?_, fun j hj => s.fb_setTb 0 x hj, rfl⟩
  · exact (congrArg ((s.setTb 0 x).tbs 0) hlen).trans (s.tbs_setTb 0 x)
  · exact (s.tb_setTb 0 x j).trans (if_pos (by omega))

/-! ### TEXT_TO_FRAME -/

theorem exec_textToFrame_error (hl : s.tlen.toNat ≤ 512) {e : ErrCode}
    (h : frameOfText s.params.encRR s.params.maxFrameLen s.text = .error e) :
    exec (.textToFrame 0#8 0#16) s = .next (failed s e) := by
  rw [exec, execTextToFrame_cases, h, if_neg (by simp; omega)]

theorem exec_textToFrame_ok (hl : s.tlen.toNat ≤ 512) {n : Nat} {f : List Byte}
    (h : frameOfText s.params.encRR s.params.maxFrameLen s.text = .ok (n, f)) :
    exec (.textToFrame 0#8 0#16) s =
      .next (completed ({ s.setFb 0 f with flen := BitVec.ofNat 16 f.length }.setHeader n (payIdxOf n))) := by
  rw [exec, execTextToFrame_cases, h, if_neg (by simp; omega)]

theorem frameOfText_noGt (q : BitVec 2) (m : Nat) {x : List Byte} (h : 0x3E#8 ∉ x) :
    frameOfText q m x = .error .encNoGt := by
  have hnone : x.findIdx? (· == 0x3E#8) = none :=
    List.findIdx?_eq_none_iff.mpr fun c hc => beq_eq_false_iff_ne.mpr fun he => h (he ▸ hc)
  rw [frameOfText, hnone]

/-- Settles O22: no `>` ends T2F, and the other two failures are the path loop's. -/
theorem textToFrameFailures : Obligations.TextToFrameFailures := by
  intro s
  refine ⟨fun hl => by rw [exec, execTextToFrame_cases, if_pos (.inr hl)], fun hl => ⟨fun hgt => ?_, ?_⟩⟩
  · exact exec_textToFrame_error hl (frameOfText_noGt _ _ hgt)
  · intro src r htext hsrc
    refine ⟨fun hcolon hcount => ?_, fun r1 r2 hr hcolon hcount => ?_⟩
    · have hloop := fun as : List Addr => pathLoop_noColon s.params.encRR r as hcolon
      refine exec_textToFrame_error hl ?_
      rw [htext, frameOfText_eq _ _ _ _ hsrc, hloop _ (by simp; omega)]
    · have hloop := fun as : List Addr => pathLoop_tooMany s.params.encRR r2 r1 as hcolon
      refine exec_textToFrame_error hl ?_
      rw [htext, frameOfText_eq _ _ _ _ hsrc, hr, hloop _ (by simp; omega)]

/-! ### The frame of a text -/

/-- T2F's address fields before the last is marked: H is cleared in the destination and the source (R154). -/
def clearEnds (as : List Addr) : List Addr := as.mapIdx fun k A => if k < 2 then { A with sb := clearH A.sb } else A

@[simp] theorem length_clearEnds (as : List Addr) : (clearEnds as).length = as.length := by simp [clearEnds]

theorem clearEnds_cons_cons (A B : Addr) (as : List Addr) :
    clearEnds (A :: B :: as) = { A with sb := clearH A.sb } :: { B with sb := clearH B.sb } :: as := by
  have hid : as.mapIdx (fun _ A => A) = as := List.ext_getElem? fun k => by simp
  simp [clearEnds, List.mapIdx_cons, hid]

/-- T2F on a text given by its parts (R154). -/
theorem frameOfText_parts (q : BitVec 2) (m : Nat) {src dst payload : List Byte} {path : List (List Byte)} {as : List Addr}
    (hsrc : 0x3E#8 ∉ src) (hdst : 0x2C#8 ∉ dst ∧ 0x3A#8 ∉ dst) (hpath : ∀ p ∈ path, 0x2C#8 ∉ p ∧ 0x3A#8 ∉ p)
    (hl : path.length ≤ 8) (has : as = (dst :: src :: path).map fun p => (encodeCall q p).1) :
    frameOfText q m (src ++ 0x3E#8 :: dst ++ path.flatMap (fun p => 0x2C#8 :: p) ++ 0x3A#8 :: payload) =
      if m < 7 * as.length + 2 + payload.length then .error .encFrameOverflow
      else .ok (as.length, frameBytes (clearEnds as) payload) := by
  have hstop : (encodeCall q (dst ++ (path.flatMap (fun p => 0x2C#8 :: p) ++ 0x3A#8 :: payload))).1 = (encodeCall q dst).1 := by
    cases path with
    | nil => exact encodeCall_stop q dst payload (.inr (.inl rfl))
    | cons p path => exact encodeCall_stop q dst _ (.inl rfl)
  have hloop := fun A B => pathLoop_ok q payload path [A, B] hpath (by simp; omega)
  have hends : clearEnds as = [{ (encodeCall q dst).1 with sb := clearH (encodeCall q dst).1.sb },
      { (encodeCall q src).1 with sb := clearH (encodeCall q src).1.sb }] ++ path.map fun p => (encodeCall q p).1 := by
    rw [has, List.map_cons, List.map_cons, clearEnds_cons_cons]
    rfl
  rw [List.append_assoc, List.append_assoc, List.cons_append, frameOfText_eq q m src _ hsrc, hstop,
    pathLoop_skip q _ _ hdst.1 hdst.2, hloop, ← hends]
  simp only [length_frameBytes, length_clearEnds]

/-- Clearing H leaves the SSID and rr of an SSID byte. -/
theorem clearH_fields (b : Byte) : (clearH b).extractLsb' 1 4 = b.extractLsb' 1 4 ∧
    (clearH b).extractLsb' 5 2 = b.extractLsb' 5 2 ∧ (clearH b).getLsbD 7 = false := by
  revert b
  decide

/-- Setting E leaves the SSID, rr and H of an SSID byte. -/
theorem setE_fields (b : Byte) : (setE b).extractLsb' 1 4 = b.extractLsb' 1 4 ∧
    (setE b).extractLsb' 5 2 = b.extractLsb' 5 2 ∧ (setE b).getLsbD 7 = b.getLsbD 7 := by
  revert b
  decide

/-- Of field `k` as T2F writes it only H and E may differ from the encoded address (R154). -/
theorem frame_written_field (s : State) {as : List Addr} (pay : List Byte) {k : Nat} {A F : Addr} (hA : as[k]? = some A)
    (hE : A.e = false) (hF : (s.setFb 0 (frameBytes (clearEnds as) pay)).field k = F) :
    F.call = A.call ∧ F.ssid = A.ssid ∧ F.rr = A.rr ∧ F.h = (A.h && decide (2 ≤ k)) ∧ F.e = decide (k + 1 = as.length) := by
  obtain ⟨B, hB, hcall, hssid, hrr, hH, hE⟩ : ∃ B, (clearEnds as)[k]? = some B ∧ B.call = A.call ∧ B.ssid = A.ssid ∧
      B.rr = A.rr ∧ B.h = (A.h && decide (2 ≤ k)) ∧ B.e = false := by
    rw [clearEnds, List.getElem?_mapIdx, hA, Option.map_some]
    by_cases hk : k < 2
    · obtain ⟨hs, hr, hh⟩ := clearH_fields A.sb
      rw [if_pos hk, decide_eq_false (by omega), Bool.and_false]
      exact ⟨_, rfl, rfl, hs, hr, hh, (clearH_bit0 A.sb).trans hE⟩
    · rw [if_neg hk, decide_eq_true (by omega), Bool.and_true]
      exact ⟨A, rfl, rfl, rfl, rfl, rfl, hE⟩
  obtain ⟨hfield, -⟩ := s.frame_written (clearEnds as) pay
  rw [hfield k B hB, length_clearEnds] at hF
  subst hF
  split
  next hlast =>
    obtain ⟨hs, hr, hh⟩ := setE_fields B.sb
    exact ⟨hcall, hs.trans hssid, hr.trans hrr, hh.trans hH, (setE_bit0 B.sb).trans (decide_eq_true hlast).symm⟩
  next hlast => exact ⟨hcall, hssid, hrr, hH, hE.trans (decide_eq_false hlast).symm⟩

/-- Settles O21: the frame is what T2F builds of the parts, and nothing else of FBUF is written. -/
theorem textToFrameWritesTheFrame : Obligations.TextToFrameWritesTheFrame := by
  intro s src dst payload path as len hp hl htext hsrc hdst hpath hcount has hlen
  have hf := frameOfText_parts s.params.encRR s.params.maxFrameLen (payload := payload) hsrc hdst hpath hcount has
  rw [← htext, ← hlen] at hf
  refine ⟨fun hfit => ?_, fun hlong => exec_textToFrame_error hl (hf.trans (if_pos hlong))⟩
  have hmax := maxFrameLen_le hp
  have hbytes : (frameBytes (clearEnds as) payload).length = len := by rw [length_frameBytes, length_clearEnds, hlen]
  obtain ⟨-, hcontrol, hpid, hpayload, hrest⟩ := s.frame_written (clearEnds as) payload
  rw [length_clearEnds] at hcontrol hpid hpayload hrest
  have hexec := exec_textToFrame_ok hl (hf.trans (if_neg (Nat.not_lt.mpr hfit)))
  rw [hbytes, State.setHeader_eq _ _ (by simp; omega)] at hexec
  refine ⟨_, hexec, fun k A hA => ?_, hcontrol, hpid, hpayload, fun j hj => hrest j (by omega), rfl⟩
  have hE : A.e = false := by
    obtain ⟨p, -, rfl⟩ := List.mem_map.mp (has ▸ List.mem_of_getElem? hA)
    exact ((Addr.shifted_iff _).mp (encodeCall_shifted _ p)).2
  exact frame_written_field s payload hA hE rfl

end Sys2Proof.Machine

namespace Sys2Proof.Spec

open Sys2Proof.Machine

/-! ### The round trip -/

/-- A canonical callsign text as it stands in monitor text, with its `*` or without. -/
def CallText.entry (c : CallText) (star : Bool) : List Byte := c.chars ++ (if star then [0x2A#8] else [])

theorem CallText.entry_false (c : CallText) : c.entry false = c.chars := List.append_nil _

/-- No separator of monitor text occurs in an entry. -/
theorem CallText.not_mem_entry {c : CallText} (hc : c.canonical) (star : Bool) {x : Byte}
    (hx : x ∈ [0x2C#8, 0x3A#8, 0x3E#8]) : x ∉ c.entry star := by
  obtain ⟨-, hcall, hssid⟩ := hc
  have hsep : isUpperOrDigit x = false ∧ isDigit x = false ∧ x ≠ 0x2D#8 ∧ x ≠ 0x2A#8 := by
    revert x
    decide
  obtain ⟨halnum, hdigit, hdash, hstar⟩ := hsep
  have hcall : x ∉ c.call := fun h => Bool.false_ne_true (halnum.symm.trans (hcall x h))
  have hdigits : x ∉ decimal c.ssid := fun h => Bool.false_ne_true (hdigit.symm.trans (decimal_digits _ hssid x h))
  rw [CallText.entry, CallText.chars]
  split <;> split <;> simp [hcall, hdigits, hdash, hstar]

/-- ENCODE reads the whole entry. -/
theorem CallText.encodeCall_entry {c : CallText} (hc : c.canonical) (q : BitVec 2) (star : Bool) :
    (encodeCall q (c.entry star)).1 = encodedAddr q c.call c.digits star := by
  obtain ⟨hl, hcall, hssid⟩ := hc
  have hread := encodeCall_spec q c.call c.digits [] (decide (c.ssid ≠ 0)) star hl
    (fun x hx => isAlnum_of_isUpperOrDigit x (hcall x hx)) (CallText.digits_isDigit hssid) (fun h => if_pos (by simpa using h))
    (by simp) (by simp) (by simp) (by simp)
  have hparts : c.entry star = c.call ++ (if decide (c.ssid ≠ 0) then 0x2D#8 :: c.digits else []) ++
      (if star then [0x2A#8] else []) ++ [] := by
    rw [CallText.entry, c.chars_parts]
    simp
  rw [hparts, hread, encodedAddr]

/-- An address with the callsign and the SSID that ENCODE read decodes to the callsign text again. -/
theorem CallText.decodeCall_of_entry {c : CallText} (hc : c.canonical) {q : BitVec 2} {star : Bool} {A : Addr}
    (h1 : A.call = (encodeCall q (c.entry star)).1.call) (h2 : A.ssid = (encodeCall q (c.entry star)).1.ssid) :
    decodeCall A = c.chars := by
  rw [CallText.encodeCall_entry hc] at h1 h2
  obtain ⟨hl, hcall, hssid⟩ := hc
  rw [encodedAddr_call q _ _ hl] at h1
  rw [encodedAddr_ssid, CallText.digitsValue_digits hssid] at h2
  exact decodeCall_chars (fun x hx => isAlnum_of_isUpperOrDigit x (hcall x hx)) hssid h1 h2

theorem monitorText_entries (src dst : CallText) (path : List (CallText × Bool)) (payload : List Byte) :
    monitorText src dst path payload = src.entry false ++ 0x3E#8 :: dst.entry false ++
      (path.map fun p => p.1.entry p.2).flatMap (fun p => 0x2C#8 :: p) ++ 0x3A#8 :: payload := by
  rw [monitorText, src.entry_false, dst.entry_false, List.flatMap_map]
  rfl

/-- F2T gives a monitor text when the fields decode to its calls and H says which path entries have a `*` (R152). -/
theorem monitorText_of_fields {t : State} {src dst : CallText} {path : List (CallText × Bool)} {payload : List Byte}
    (hdst : decodeCall (t.field 0) = dst.chars) (hsrc : decodeCall (t.field 1) = src.chars)
    (hpath : ∀ i p, path[i]? = some p → decodeCall (t.field (i + 2)) = p.1.chars ∧ (t.field (i + 2)).h = p.2)
    (hpay : t.payload (payIdxOf (path.length + 2)) = payload) :
    t.monitorText (path.length + 2) = monitorText src dst path payload := by
  have htexts : (List.range path.length).map (fun j => t.pathText (j + 2)) =
      path.map fun p => 0x2C#8 :: p.1.chars ++ (if p.2 then [0x2A#8] else []) := by
    refine List.ext_getElem (by simp) fun i hi hi' => ?_
    obtain ⟨hchars, hH⟩ := hpath i _ (List.getElem?_eq_getElem (by simpa using hi'))
    simp only [List.getElem_map, List.getElem_range, State.pathText, hchars, hH]
  rw [State.monitorText, hdst, hsrc, hpay, Nat.add_sub_cancel, htexts, monitorText, List.flatMap_def]

/-- TEXT_TO_FRAME of canonical monitor text leaves a valid frame (O21, O23) whose monitor text is that text. -/
theorem textToFrame_monitorText {s : State} {src dst : CallText} {path : List (CallText × Bool)} {payload : List Byte}
    (hp : s.params.wf = true) (hl : s.tlen.toNat ≤ 512) (htext : s.text = monitorText src dst path payload)
    (hsrc : src.canonical) (hdst : dst.canonical) (hpath : ∀ p ∈ path, p.1.canonical) (hcount : path.length ≤ 8)
    (hfit : 7 * (path.length + 2) + 2 + payload.length ≤ s.params.maxFrameLen) :
    ∃ t, exec (.textToFrame 0#8 0#16) s = .next t ∧ t.status.err = false ∧ t.params = s.params ∧
      FrameShape t (path.length + 2) ∧ t.monitorText (path.length + 2) = monitorText src dst path payload := by
  have hmax := maxFrameLen_le hp
  obtain ⟨entries, hentries⟩ : ∃ e, e = path.map fun p => p.1.entry p.2 := ⟨_, rfl⟩
  obtain ⟨as, has⟩ : ∃ as, as = (dst.entry false :: src.entry false :: entries).map fun p => (encodeCall s.params.encRR p).1 :=
    ⟨_, rfl⟩
  have hn : as.length = path.length + 2 := by simp [has, hentries]
  have hseps : ∀ p ∈ entries, 0x2C#8 ∉ p ∧ 0x3A#8 ∉ p := fun e he => by
    obtain ⟨p, hmem, rfl⟩ := List.mem_map.mp (hentries ▸ he)
    exact ⟨CallText.not_mem_entry (hpath p hmem) _ (by simp), CallText.not_mem_entry (hpath p hmem) _ (by simp)⟩
  obtain ⟨t, ht, hfields, -, -, hpay, -, hframe⟩ := (textToFrameWritesTheFrame s _ _ payload entries as _ hp hl
    (htext.trans (hentries ▸ monitorText_entries src dst path payload)) (CallText.not_mem_entry hsrc _ (by simp))
    ⟨CallText.not_mem_entry hdst _ (by simp), CallText.not_mem_entry hdst _ (by simp)⟩ hseps
    (by simpa [hentries] using hcount) has rfl).1 (hn ▸ hfit)
  rw [hn] at hpay hframe
  have herr : t.status.err = false := congrArg (fun u : State => u.status.err) hframe
  have hflen : t.flen = BitVec.ofNat 16 (7 * (path.length + 2) + 2 + payload.length) :=
    congrArg (fun u : State => u.flen) hframe
  have hnaddr : t.hdr.naddr = BitVec.ofNat 8 (path.length + 2) := congrArg (fun u : State => u.hdr.naddr) hframe
  have hshape := (textToFrameLeavesAValidFrame s t hp ht herr).1
  rw [hnaddr, toNat_naddr (by omega)] at hshape
  have hread : ∀ k (c : CallText) star, c.canonical → (dst.entry false :: src.entry false :: entries)[k]? = some (c.entry star) →
      decodeCall (t.field k) = c.chars ∧ (t.field k).h = (star && decide (2 ≤ k)) := fun k c star hc hk => by
    obtain ⟨hcall, hssid, -, hH, -⟩ := hfields k _ (by rw [has, List.getElem?_map, hk, Option.map_some])
    rw [CallText.encodeCall_entry hc, (encodedAddr_flags _ _ _ _).1] at hH
    exact ⟨CallText.decodeCall_of_entry hc hcall hssid, hH⟩
  refine ⟨t, ht, herr, (congrArg (fun u : State => u.params) hframe :), hshape,
    monitorText_of_fields (hread 0 dst false hdst rfl).1 (hread 1 src false hsrc rfl).1 (fun i p hi => ?_) ?_⟩
  · obtain ⟨hchars, hH⟩ := hread (i + 2) p.1 p.2 (hpath p (List.mem_of_getElem? hi)) (by simp [hentries, hi])
    exact ⟨hchars, hH.trans (by simp)⟩
  · rw [State.payload, payIdxOf, hflen, BitVec.toNat_ofNat, Nat.mod_eq_of_lt (by omega), Nat.add_sub_cancel_left, hpay]

/-- Settles O24: FRAME_TO_TEXT writes the monitor text (O20) of the frame that TEXT_TO_FRAME leaves. -/
theorem monitorTextRoundTrips : Obligations.MonitorTextRoundTrips := by
  intro s src dst path payload hp hl htext hsrc hdst hpath hcount hfit
  obtain ⟨t, ht, herr, hparams, hshape, hmonitor⟩ :=
    textToFrame_monitorText hp hl htext hsrc hdst hpath hcount hfit
  obtain ⟨u, hu, hutext, -, -, hwritten⟩ := frameToTextWritesTheMonitorText t _ _ (hparams ▸ hp) hshape
    (hmonitor.symm.trans (t.monitorText_eq _))
  exact ⟨t, u, ht, herr, hu, congrArg (fun v : State => v.status.err) hwritten, hutext⟩

end Sys2Proof.Spec
end

section
/-! PROOFS. The duplicate-suppression cache: the checksum of a region (O25, O26), the three commands on the table (O27, O28, O29),
and what a second check (O30) and N + 1 records (O31) leave of the table. -/

namespace Sys2Proof.Machine

open Sys2Proof.Spec

variable {s : State}

/-! ### The commands on a legal region, and on an illegal one -/

theorem exec_crc16_of_legal (hr : s.regionLegal = true) :
    exec (.crc16 0#8 0#16) s = .next (completed { s with crcRes := crc s.region }) := by
  rw [exec, execCrc16_cases, if_neg (by simp [hr])]

/-- DUP_CHECK's table is the swept one, and DUP_RES is LOOKUP's answer in it (R187). -/
theorem exec_dupCheck_of_legal (hr : s.regionLegal = true) :
    exec (.dupCheck 0#8 0#16) s = .next (completed { s with
      table := swept s.tickSnap s.table
      dupRes := dupResOfLookup (lookupTable (crc s.region) (swept s.tickSnap s.table)) (crc s.region) }) := by
  rw [exec, execDupCheck_cases, if_neg (by simp [hr]), ← s.sweep_table_eq]
  rfl

/-- DUP_RECORD writes the slot that INSERT chooses in the swept table (R188). -/
theorem exec_dupRecord_of_insertsAt (hr : s.regionLegal = true) {i : Nat} {ev : Bool}
    (hi : InsertsAt (swept s.tickSnap s.table) s.tickSnap i ev) :
    exec (.dupRecord 0#8 0#16) s = .next (completed { s with
      table := (swept s.tickSnap s.table).set i ⟨crc s.region, s.tickSnap + s.dupWindow⟩
      dupRes := ⟨false, true, ev, BitVec.ofNat 4 i, crc s.region⟩ }) := by
  have hidx : insertIndex s.tickSnap s.sweep.table = (i, ev) := s.sweep_table_eq ▸ insertIndex_eq hi
  rw [exec, execDupRecord_cases, if_neg (by simp [hr]), State.now, hidx, State.insert, State.now, s.sweep_tickSnap, hidx,
    s.sweep_table_eq]
  rfl

/-- DUP_CHECK_RECORD is DUP_CHECK on a hit and DUP_RECORD on a miss (R189). -/
theorem exec_dupCheckRecord_eq (hr : s.regionLegal = true) :
    exec (.dupCheckRecord 0#8 0#16) s =
      if (lookupTable (crc s.region) (swept s.tickSnap s.table)).isSome then exec (.dupCheck 0#8 0#16) s
      else exec (.dupRecord 0#8 0#16) s := by
  simp only [exec, execDupCheckRecord_cases, execDupCheck_cases, execDupRecord_cases, s.sweep_table_eq,
    if_neg (show ¬ (argsUsed 0#8 0#16 = true ∨ ¬ s.regionLegal = true) by simp [hr])]
  cases lookupTable (crc s.region) (swept s.tickSnap s.table) <;> rfl

theorem exec_dupCheck_of_illegal (hr : s.regionLegal = false) : exec (.dupCheck 0#8 0#16) s = .next (failed s .badArg) := by
  rw [exec, execDupCheck_cases, if_pos (by simp [hr])]

/-- Settles O25: every command of the cache asks for a legal region first. -/
theorem crc16ChecksumsTheRegion : Obligations.Crc16ChecksumsTheRegion := by
  refine fun s => ⟨fun hr => exec_crc16_of_legal ((regionLegal_iff s).mpr hr), fun hl => ?_⟩
  have hr : s.regionLegal = false := Bool.eq_false_iff.mpr fun h => by have := (regionLegal_iff s).mp h; omega
  have hbad : argsUsed 0#8 0#16 = true ∨ ¬ s.regionLegal = true := .inr (by simp [hr])
  refine ⟨?_, exec_dupCheck_of_illegal hr, ?_, ?_⟩
  · rw [exec, execCrc16_cases, if_pos hbad]
  · rw [exec, execDupRecord_cases, if_pos hbad]
  · rw [exec, execDupCheckRecord_cases, if_pos hbad]

/-! ### The checksum, bit by bit -/

/-- A pass of the inner loop takes bit 0 of the byte and shifts the next one down to it (R180). -/
theorem crcBit_eq (c : Half) (b : Byte) : crcBit (c, b) = (crcStep c (b.getLsbD 0), b >>> 1) := by
  unfold crcBit crcStep
  cases c.getLsbD 0 <;> cases b.getLsbD 0 <;> rfl

/-- The eight passes take the bits of the byte from bit 0 up (R180). -/
theorem crcByte_eq_foldl (c : Half) (b : Byte) :
    crcByte c b = ((List.range 8).map fun k => b.getLsbD k).foldl crcStep c := by
  have hrange : List.range 8 = [0, 1, 2, 3, 4, 5, 6, 7] := rfl
  simp only [crcByte, crcBit_eq, BitVec.getLsbD_ushiftRight, hrange, List.map_cons, List.map_nil, List.foldl_cons,
    List.foldl_nil]

theorem foldl_crcByte_eq (l : List Byte) (c : Half) : l.foldl crcByte c = (bitsOf l).foldl crcStep c := by
  induction l generalizing c with
  | nil => rfl
  | cons b l ih => rw [List.foldl_cons, ih, crcByte_eq_foldl, ← List.foldl_append]; rfl

theorem foldl_crcByte_inj (l : List Byte) {c d : Half} (h : l.foldl crcByte c = l.foldl crcByte d) : c = d := by
  induction l generalizing c d with
  | nil => exact h
  | cons b l ih => exact crcByte_inj_left b c d (ih h)

/-- From one state, different bytes lead to different states: a byte is XORed into the low half of the state. -/
theorem crcByte_inj_right {c : Half} {b b' : Byte} (h : crcByte c b = crcByte c b') : b = b' := by
  rw [crcByte_xor c b, crcByte_xor c b'] at h
  have hext : b.zeroExtend 16 = b'.zeroExtend 16 := (BitVec.xor_right_inj c).mp (crcByte_inj_left 0#8 _ _ h)
  simpa using congrArg (BitVec.setWidth 8) hext

/-- Settles O26: the steps before the changed byte are the same, and those after it keep two states apart. -/
theorem crcTakesEveryBitInOrder : Obligations.CrcTakesEveryBitInOrder := by
  refine ⟨fun l => foldl_crcByte_eq l _, rfl, by decide +kernel, fun xs ys b c h => ?_⟩
  rw [crc, crc, List.foldl_append, List.foldl_append] at h
  exact crcByte_inj_right (foldl_crcByte_inj ys h)

/-! ### Checks and records -/

theorem exec_dupCheck_hit (hr : s.regionLegal = true) {i : Nat}
    (hi : LiveAt (swept s.tickSnap s.table) (crc s.region) i)
    (hleast : ∀ j, j < i → ¬ LiveAt (swept s.tickSnap s.table) (crc s.region) j) :
    exec (.dupCheck 0#8 0#16) s = .next (completed { s with
      table := swept s.tickSnap s.table
      dupRes := ⟨true, false, false, BitVec.ofNat 4 i, crc s.region⟩ }) := by
  rw [exec_dupCheck_of_legal hr, lookupTable_eq_some.mpr ⟨hi, hleast⟩]
  rfl

/-- Settles O27: LOOKUP finds the least live slot with the checksum, or none. -/
theorem dupCheckReportsTheFirstLiveMatch : Obligations.DupCheckReportsTheFirstLiveMatch := by
  rintro s _ _ hr rfl rfl
  have hr := (regionLegal_iff s).mpr hr
  refine ⟨fun i hi hleast => exec_dupCheck_hit hr hi hleast, fun hmiss => ?_⟩
  rw [exec_dupCheck_of_legal hr, State.region, lookupTable_eq_none.mpr hmiss]
  rfl

/-- Settles O28: INSERT has a slot to write in every table but the empty list, and writes it. -/
theorem dupRecordWritesOneSlot : Obligations.DupRecordWritesOneSlot := by
  rintro s _ _ hr rfl rfl
  refine ⟨fun hne => ⟨_, _, insertIndex_spec _ _ fun h => hne ?_⟩, fun i ev hi =>
    exec_dupRecord_of_insertsAt ((regionLegal_iff s).mpr hr) hi⟩
  exact List.length_eq_zero_iff.mp (length_swept s.tickSnap s.table ▸ List.length_eq_zero_iff.mpr h)

/-- Settles O29: the lookup decides which of the two commands it is. -/
theorem dupCheckRecordChecksThenRecords : Obligations.DupCheckRecordChecksThenRecords := by
  rintro s _ _ hr rfl rfl
  have hr := (regionLegal_iff s).mpr hr
  refine ⟨fun i hi hleast => ?_, fun hmiss i ev hi => ?_⟩
  · rw [exec_dupCheckRecord_eq hr, State.region, lookupTable_eq_some.mpr ⟨hi, hleast⟩]
    exact exec_dupCheck_hit hr hi hleast
  · rw [exec_dupCheckRecord_eq hr, State.region, lookupTable_eq_none.mpr hmiss]
    exact exec_dupRecord_of_insertsAt hr hi

/-- Settles O30: the second sweep finds nothing to expire, so the second lookup sees the same table. -/
theorem dupCheckIsIdempotent : Obligations.DupCheckIsIdempotent := by
  intro s t h
  cases hr : s.regionLegal
  case false =>
    obtain rfl := Host.Outcome.next.inj ((exec_dupCheck_of_illegal hr).symm.trans h)
    exact exec_dupCheck_of_illegal hr
  case true =>
    obtain rfl := Host.Outcome.next.inj ((exec_dupCheck_of_legal hr).symm.trans h)
    refine (exec_dupCheck_of_legal (by exact hr)).trans ?_
    simp only [completed_table, completed_tickSnap, swept_swept]
    rfl

/-! ### N + 1 records in N slots -/

/-- A table of `N` slots after the first `k` records, of checksum `cs j` and deadline `D j` for the `j`-th. -/
def recordedTable (N : Nat) (cs : Nat → Half) (D : Nat → Word) (k : Nat) : List Slot :=
  (List.range N).map fun j => if j < k then ⟨cs j, D j⟩ else ⟨0#16, 0#32⟩

section
variable {N k : Nat} {cs : Nat → Half} {D : Nat → Word} {now : Word}

theorem getElem?_recordedTable {j : Nat} {x : Slot} :
    (recordedTable N cs D k)[j]? = some x ↔ j < N ∧ (if j < k then ⟨cs j, D j⟩ else ⟨0#16, 0#32⟩) = x := by
  simp [recordedTable, List.getElem?_eq_some_iff]

theorem recordedTable_zero : recordedTable N cs D 0 = List.replicate N ⟨0#16, 0#32⟩ := by
  simp [recordedTable]

theorem recordedTable_set : (recordedTable N cs D k).set k ⟨cs k, D k⟩ = recordedTable N cs D (k + 1) := by
  refine List.ext_getElem (by simp [recordedTable]) fun j _ _ => ?_
  rw [List.getElem_set]
  simp only [recordedTable, List.getElem_map, List.getElem_range]
  split
  next h => rw [if_pos (by omega), h]
  next h => simp only [Nat.lt_succ_iff_lt_or_eq, Ne.symm h, or_false]

/-- A sweep before any recorded deadline has passed leaves the table (R182). -/
theorem swept_recordedTable (hlive : ∀ j, j < k → ¬ expired (D j) now) :
    swept now (recordedTable N cs D k) = recordedTable N cs D k := by
  rw [swept, recordedTable, List.map_map]
  refine List.map_congr_left fun j _ => ?_
  simp only [Function.comp]
  split
  next hj => exact if_neg fun h => hlive j hj h.2
  next => exact if_neg fun h => h.1 rfl

theorem firstEmpty_recordedTable (hk : k < N) (hD : ∀ j, j < N → D j ≠ 0#32) : FirstEmpty (recordedTable N cs D k) k := by
  refine ⟨⟨_, getElem?_recordedTable.mpr ⟨hk, if_neg (Nat.lt_irrefl k)⟩, rfl⟩, fun j x hj hx => ?_⟩
  obtain ⟨-, rfl⟩ := getElem?_recordedTable.mp hx
  rw [if_pos hj]
  exact hD j (hj.trans hk)

/-- In a full table with deadlines in the order of the records, the first record is the oldest (R191). -/
theorem oldest_recordedTable (hN : 0 < N) (hD : ∀ j, j < N → D j ≠ 0#32)
    (hkey : ∀ j, j < N → (D 0 - now).toInt ≤ (D j - now).toInt) : Oldest (recordedTable N cs D N) now 0 := by
  refine ⟨fun x hx => ?_, _, getElem?_recordedTable.mpr ⟨hN, if_pos hN⟩, fun j y hy => ?_⟩
  · obtain ⟨j, hj⟩ := List.getElem?_of_mem hx
    obtain ⟨hjN, rfl⟩ := getElem?_recordedTable.mp hj
    rw [if_pos hjN]
    exact hD j hjN
  · obtain ⟨hj, rfl⟩ := getElem?_recordedTable.mp hy
    rw [if_pos hj]
    exact ⟨hkey j hj, fun _ => Nat.zero_le j⟩

/-- A record over slot 0 of a full table leaves every checksum but the first live. -/
theorem liveAt_recordedTable_set (hN : 0 < N) (hD : ∀ j, j ≤ N → D j ≠ 0#32) (h1 : 1 ≤ k) (hk : k ≤ N) :
    ∃ i, LiveAt ((recordedTable N cs D N).set 0 ⟨cs N, D N⟩) (cs k) i := by
  rcases Nat.lt_or_eq_of_le hk with hlt | rfl
  · refine ⟨k, ⟨cs k, D k⟩, ?_, hD k hk, rfl⟩
    rw [List.getElem?_set_ne (by omega)]
    exact getElem?_recordedTable.mpr ⟨hlt, if_pos hlt⟩
  · exact ⟨0, ⟨cs k, D k⟩, List.getElem?_set_self (by simpa [recordedTable] using hN), hD k hk, rfl⟩

theorem not_liveAt_recordedTable_set (hN : 0 < N) (hcs : ∀ j, 0 < j → j ≤ N → cs j ≠ cs 0) (i : Nat) :
    ¬ LiveAt ((recordedTable N cs D N).set 0 ⟨cs N, D N⟩) (cs 0) i := by
  rintro ⟨x, hx, -, hcsum⟩
  cases i with
  | zero =>
    rw [List.getElem?_set_self (by simpa [recordedTable] using hN)] at hx
    cases hx
    exact hcs N hN le_rfl hcsum
  | succ i =>
    rw [List.getElem?_set_ne (by omega)] at hx
    obtain ⟨hi, rfl⟩ := getElem?_recordedTable.mp hx
    rw [if_pos hi] at hcsum
    exact hcs (i + 1) (by omega) hi.le hcsum

end

/-- The key (R184) of a record made at tick `T + a` with window `W`, seen from tick `T + b` within the window. -/
theorem toInt_deadline_sub {T W : Word} {a b : Nat} (hab : a ≤ b) (hb : b ≤ a + W.toNat) (hW : W.toNat < 2 ^ 31) :
    (T + BitVec.ofNat 32 a + W - (T + BitVec.ofNat 32 b)).toInt = ((a + W.toNat - b : Nat) : Int) := by
  obtain ⟨e, rfl⟩ := Nat.exists_eq_add_of_le hab
  obtain ⟨r, hr⟩ := Nat.exists_eq_add_of_le (show e ≤ W.toNat by omega)
  have hWr : W = BitVec.ofNat 32 e + BitVec.ofNat 32 r := by
    rw [← BitVec.ofNat_add, ← hr, BitVec.ofNat_toNat, BitVec.setWidth_eq]
  have hsub : T + BitVec.ofNat 32 a + W - (T + BitVec.ofNat 32 (a + e)) = BitVec.ofNat 32 r := by
    rw [BitVec.ofNat_add, hWr]
    ring
  rw [hsub, BitVec.toInt_eq_toNat_of_lt (by simp; omega), BitVec.toNat_ofNat, Nat.mod_eq_of_lt (by omega)]
  omega

/-- The deadline of the `j`-th record, made at tick `T + d j` (R184). -/
def deadline (T W : Word) (d : Nat → Nat) (j : Nat) : Word := T + BitVec.ofNat 32 (d j) + W

/-- What R191 assumes of N + 1 records: in state `st k`, at tick `T + d k`, the region's checksum is `cs k`; the ticks increase,
all within one window, which is short of half the tick's range; no deadline wraps to 0; the checksums are distinct. -/
structure RecordRun (N : Nat) (st : Nat → State) (cs : Nat → Half) (T W : Word) (d : Nat → Nat) : Prop where
  increasing : ∀ i j, i < j → j ≤ N → d i < d j
  inWindow : d N ≤ d 0 + W.toNat
  window_lt : W.toNat < 2 ^ 31
  distinct : ∀ i j, i ≤ N → j ≤ N → cs i = cs j → i = j
  now : ∀ k, k ≤ N → (st k).tickSnap = T + BitVec.ofNat 32 (d k)
  window : ∀ k, k ≤ N → (st k).dupWindow = W
  deadline_ne : ∀ k, k ≤ N → deadline T W d k ≠ 0#32
  legal : ∀ k, k ≤ N → (st k).regionLegal = true
  checksum : ∀ k, k ≤ N → crc (st k).region = cs k

section
variable {N i k : Nat} {st : Nat → State} {cs : Nat → Half} {T W : Word} {d : Nat → Nat}

theorem RecordRun.monotone (h : RecordRun N st cs T W d) (hik : i ≤ k) (hk : k ≤ N) : d i ≤ d k :=
  hik.lt_or_eq.elim (fun hlt => (h.increasing i k hlt hk).le) fun heq => heq ▸ le_rfl

theorem RecordRun.le_window (h : RecordRun N st cs T W d) (hik : i ≤ k) (hk : k ≤ N) : d k ≤ d i + W.toNat :=
  calc d k ≤ d N := h.monotone hk le_rfl
    _ ≤ d 0 + W.toNat := h.inWindow
    _ ≤ d i + W.toNat := Nat.add_le_add_right (h.monotone (Nat.zero_le i) (hik.trans hk)) _

theorem RecordRun.toInt_deadline_sub_now (h : RecordRun N st cs T W d) (hik : i ≤ k) (hk : k ≤ N) :
    (deadline T W d i - (st k).tickSnap).toInt = ((d i + W.toNat - d k : Nat) : Int) := by
  rw [h.now k hk]
  exact toInt_deadline_sub (h.monotone hik hk) (h.le_window hik hk) h.window_lt

/-- No record expires during the run (R181). -/
theorem RecordRun.not_expired (h : RecordRun N st cs T W d) (hik : i ≤ k) (hk : k ≤ N) :
    ¬ expired (deadline T W d i) (st k).tickSnap := by
  rw [← passed_iff, passed, h.toInt_deadline_sub_now hik hk, decide_eq_true_eq]
  omega

/-- The `k`-th record on the table that the records before it left. -/
theorem RecordRun.exec_dupRecord (h : RecordRun N st cs T W d) (hk : k ≤ N) {ev : Bool}
    (htab : (st k).table = recordedTable N cs (deadline T W d) k)
    (hi : InsertsAt (recordedTable N cs (deadline T W d) k) (st k).tickSnap i ev) :
    ∃ t, exec (.dupRecord 0#8 0#16) (st k) = .next t ∧ t.dupRes.evicted = ev ∧
      t.table = (recordedTable N cs (deadline T W d) k).set i ⟨cs k, deadline T W d k⟩ := by
  have hswept : swept (st k).tickSnap (st k).table = recordedTable N cs (deadline T W d) k := by
    rw [htab, swept_recordedTable fun j hj => h.not_expired hj.le hk]
  refine ⟨_, exec_dupRecord_of_insertsAt (h.legal k hk) (hswept.symm ▸ hi), rfl, ?_⟩
  rw [completed_table, hswept, h.checksum k hk, h.now k hk, h.window k hk, deadline]

/-- The first N records fill the slots in their order. -/
theorem RecordRun.table_eq (h : RecordRun N st cs T W d) (h0 : (st 0).table = List.replicate N ⟨0#16, 0#32⟩)
    (hrec : ∀ k, k < N → ∃ t, exec (.dupRecord 0#8 0#16) (st k) = .next t ∧ (st (k + 1)).table = t.table) :
    ∀ k, k ≤ N → (st k).table = recordedTable N cs (deadline T W d) k := fun k => by
  induction k with
  | zero => exact fun _ => h0.trans recordedTable_zero.symm
  | succ k ih =>
    intro hk
    obtain ⟨t, ht, htable⟩ := hrec k hk
    obtain ⟨u, hu, -, hutable⟩ := h.exec_dupRecord (Nat.le_of_succ_le hk) (ih (Nat.le_of_succ_le hk))
      (.inl ⟨rfl, firstEmpty_recordedTable hk fun j hj => h.deadline_ne j hj.le⟩)
    obtain rfl := Host.Outcome.next.inj (ht.symm.trans hu)
    rw [htable, hutable, recordedTable_set]

/-- At the last record the first one has the oldest deadline. -/
theorem RecordRun.oldest (h : RecordRun N st cs T W d) (hN : 0 < N) :
    Oldest (recordedTable N cs (deadline T W d) N) (st N).tickSnap 0 := by
  refine oldest_recordedTable hN (fun j hj => h.deadline_ne j hj.le) fun j hj => ?_
  rw [h.toInt_deadline_sub_now hN.le le_rfl, h.toInt_deadline_sub_now hj.le le_rfl]
  have := h.monotone (Nat.zero_le j) hj.le
  omega

end

/-- Settles O31: the first N records fill the empty slots in order, and the last takes the slot with the least key, the first's. -/
theorem evictionKeepsTheLatestRecords : Obligations.EvictionKeepsTheLatestRecords := by
  intro N st cs T W d hN hd hwin hW hcs hst h0 hrec
  have h : RecordRun N st cs T W d := {
    increasing := hd
    inWindow := hwin
    window_lt := hW
    distinct := hcs
    now := fun k hk => have ⟨hnow, _⟩ := hst k hk; hnow
    window := fun k hk => have ⟨_, hwindow, _⟩ := hst k hk; hwindow
    deadline_ne := fun k hk => have ⟨_, _, hdeadline, _⟩ := hst k hk; hdeadline
    legal := fun k hk => have ⟨_, _, _, hlegal, _⟩ := hst k hk; (regionLegal_iff _).mpr hlegal
    checksum := fun k hk => have ⟨_, _, _, _, hcrc⟩ := hst k hk; hcrc }
  obtain ⟨t, ht, hev, htable⟩ := h.exec_dupRecord le_rfl (h.table_eq h0 hrec N le_rfl) (.inr ⟨rfl, h.oldest hN⟩)
  refine ⟨t, ht, hev, fun k h1 hk => ?_, ?_⟩
  · rw [htable]
    exact liveAt_recordedTable_set hN h.deadline_ne h1 hk
  · rw [htable]
    exact not_liveAt_recordedTable_set hN fun j h1 hj he => h1.ne' (h.distinct j 0 hj (Nat.zero_le N) he)

end Sys2Proof.Machine
end

section
/-! PROOFS. The digipeat rule engine (O33 to O38) and the path mutator (O39, O40).

On a valid frame DIGI_PROCESS counts and describes it (`accepted`), and past step 2 it works on the swept state
`(accepted s n).sweep`. Each rule's end is one lemma about that state; the bytes a digipeat leaves are those of the path mutator,
with the one SSID byte that was lowered first (`insertedByte_of_set`). -/

namespace Sys2Proof.Machine

open Sys2Proof.Spec

variable {s u : State} {n k f i w : Nat} {ev b : Bool} {cs : Half} {r : Reason}

/-! ### The path mutator -/

theorem exec_pathInsertNode_of_shape {k : BitVec 8} (h : FrameShape s n) :
    exec (.pathInsertNode k 0#16) s = .next (
      if k.toNat < 2 ∨ n < k.toNat then failed s .badArg
      else match s.noRoom n with
        | some e => failed s e.errCode
        | none => completed (s.grow n k.toNat)) := by
  rw [exec, execPathInsertNode_cases, s.validate_eq_ok.mpr h]
  rfl

theorem exec_pathOverwriteNode_of_shape {k : BitVec 8} (h : FrameShape s n) :
    exec (.pathOverwriteNode k 0#16) s = .next (
      if k.toNat < 2 ∨ n - 1 < k.toNat then failed s .badArg
      else completed (described (s.overwriteNode k.toNat) n)) := by
  rw [exec, execPathOverwriteNode_cases, s.validate_eq_ok.mpr h, ← State.setHeader_eq (s.overwriteNode k.toNat) n h.whole]
  rfl

/-- OVERWRITE_NODE writes bytes and nothing else (R231). -/
theorem State.exists_mem_overwriteNode (s : State) (k : Nat) : ∃ m, s.overwriteNode k = { s with mem := m } := ⟨_, rfl⟩

theorem noRoom_of_full (h : n = 10) : s.noRoom n = some .pathFull :=
  (State.noRoom_eq_some _).mpr (.inl ⟨by omega, rfl⟩)

theorem noRoom_of_long (h : n < 10) (hl : s.params.maxFrameLen < s.flen.toNat + 7) : s.noRoom n = some .frameOverflow :=
  (State.noRoom_eq_some _).mpr (.inr ⟨by omega, hl, rfl⟩)

/-- Settles O39: the checks in their order, and what INSERT_NODE leaves of every byte and every other field. -/
theorem pathInsertSplicesTheNode : Obligations.PathInsertSplicesTheNode := by
  intro s n k hp h
  have hw := h.whole
  rw [exec_pathInsertNode_of_shape h]
  refine ⟨fun hk => ?_, fun h2 hk hn => ?_, fun h2 hk hn hl => ?_, fun h2 hk hroom => ?_⟩
  · rw [if_pos hk]
  · rw [if_neg (by omega), noRoom_of_full hn]
    rfl
  · rw [if_neg (by omega), noRoom_of_long hn hl]
    rfl
  · have hfb (j : Nat) : (completed (s.grow n k.toNat)).fb j = insertedByte s k.toNat j := by
      rw [completed_fb, State.grow_fb, s.fb_insertNode (by omega) (by omega)]
    rw [if_neg (by omega), (State.noRoom_eq_none h.maxAddr).mpr hroom]
    refine ⟨_, rfl, hfb, ?_⟩
    rw [State.grow_eq _ hp h.notLong hw]
    rfl

/-- Settles O40: the index check, and what OVERWRITE_NODE leaves of every byte; it writes nothing but bytes. -/
theorem pathOverwriteReplacesTheEntry : Obligations.PathOverwriteReplacesTheEntry := by
  intro s n k _ h
  rw [exec_pathOverwriteNode_of_shape h]
  refine ⟨fun hk => ?_, fun h2 hk => ?_⟩
  · rw [if_pos hk]
  · have hfb (j : Nat) : (completed (described (s.overwriteNode k.toNat) n)).fb j = overwrittenByte s k.toNat j := by
      rw [completed_fb, described_fb, s.fb_overwriteNode]
    rw [if_neg (by omega)]
    refine ⟨_, rfl, hfb, ?_⟩
    obtain ⟨m, hm⟩ := State.exists_mem_overwriteNode s k.toNat
    rw [hm]
    rfl

/-! ### Steps 2 to 4 -/

theorem sweep_accepted : (accepted s n).sweep = { accepted s n with table := swept s.tickSnap s.table } := by
  rw [← s.sweep_table_eq]
  rfl

theorem table_sweep_accepted : (accepted s n).sweep.table = swept s.tickSnap s.table := s.sweep_table_eq

theorem exec_digiProcess_self (h : FrameShape s n) (hself : ¬ NotSelf s) :
    exec (.digiProcess 0#8 0#16) s = .next (completed ((accepted s n).digiDrop false .selfFrame)) := by
  have hs : (accepted s n).isSelf = true := by
    rw [← Bool.not_eq_false, State.isSelf_eq_false]
    exact hself
  rw [exec, execDigiProcess_valid h, State.digiAccepted, if_pos hs]

theorem exec_digiProcess_duplicate (h : FrameShape s n) (hself : NotSelf s)
    (hlive : LiveAt (swept s.tickSnap s.table) (crc (payloadOf s n)) i) :
    exec (.digiProcess 0#8 0#16) s = .next (completed ((accepted s n).sweep.digiDrop false .duplicate)) := by
  have hs : (accepted s n).isSelf = false := State.isSelf_eq_false.mpr hself
  have hcs : (accepted s n).payload (payIdxOf n) = payloadOf s n := rfl
  obtain ⟨j, hj⟩ := Option.ne_none_iff_exists'.mp fun hnone => lookupTable_eq_none.mp hnone i hlive
  rw [exec, execDigiProcess_valid h, State.digiAccepted, hs, hcs]
  simp only [sweep_accepted, hj, Bool.false_eq_true, if_false]

/-- Settles O33: step 2 is decided on the accepted state, and step 3 by LOOKUP in the swept table. -/
theorem ownAndDuplicateFramesAreDropped : Obligations.OwnAndDuplicateFramesAreDropped := by
  refine fun s n h => ⟨fun hcall hsb => ?_, fun i hself hlive => ?_⟩
  · exact exec_digiProcess_self h fun hself => hself ⟨hcall, hsb⟩
  · rw [exec_digiProcess_duplicate h hself hlive, sweep_accepted]
    rfl

theorem State.fbs_drop (s : State) (a m d : Nat) : (s.fbs a m).drop d = s.fbs (a + d) (m - d) := by
  refine List.ext_getElem? fun j => ?_
  rw [List.getElem?_drop, State.getElem?_fbs, State.getElem?_fbs, Nat.add_assoc]
  exact if_congr (by omega) rfl rfl

/-- What follows the 11 bytes of MSGPFX is the remainder that step 4 scans (R218). -/
theorem payload_of_message {rem : List Byte} (h : payloadOf s n = msgPfx s.node ++ rem) :
    s.payload (payIdxOf n + 11) = rem := by
  calc s.payload (payIdxOf n + 11)
      = (payloadOf s n).drop 11 := by rw [payloadOf, State.fbs_drop, Nat.sub_sub]; rfl
    _ = rem := by rw [h, List.drop_left' (length_msgPfx s.node)]

/-- The end of a message whose remainder is known: MSG_INFO and the remainder's first ACK tag (R217 to R219). -/
theorem exec_digiProcess_message {rem : List Byte} (h : FrameShape s n) (hself : NotSelf s)
    (hfresh : ∀ i, ¬ LiveAt (swept s.tickSnap s.table) (crc (payloadOf s n)) i) (hpay : payloadOf s n = msgPfx s.node ++ rem) :
    exec (.digiProcess 0#8 0#16) s = .next (completed { accepted s n with
      table := swept s.tickSnap s.table
      msgInfo := ⟨BitVec.ofNat 16 (7 * n + 13), BitVec.ofNat 16 rem.length⟩
      digiRes := { DigiRes.zero with verdict := .message, ackFound := (ackTag rem).isSome }
      ackInfo := match ackTag rem with
        | some (j, m) => ⟨BitVec.ofNat 16 (7 * n + 13 + j + 1), BitVec.ofNat 8 m⟩
        | none => ⟨0#16, 0#8⟩ }) := by
  have hrem := payload_of_message hpay
  have hacc : (accepted s n).sweep.payload (payIdxOf n + 11) = rem := hrem
  have hlen : rem.length = s.flen.toNat - (payIdxOf n + 11) := by rw [← hrem, State.payload, State.length_fbs]
  rw [exec, execDigiProcess_valid h, digiAccepted_fresh hself hfresh, if_pos ((startsWith_iff _ _).mpr ⟨rem, hpay.symm⟩),
    State.digiMessage, hacc, sweep_accepted, hlen]
  rfl

/-- Settles O34: the remainder is what follows MSGPFX, and `ackTag` finds its first tag. -/
theorem directedMessageIsReported : Obligations.DirectedMessageIsReported := by
  intro s n rem base h hself hfresh hpay hbase
  subst hbase
  rw [exec_digiProcess_message h hself hfresh hpay]
  refine ⟨fun pre digits post hrem hne hdig hpost hfirst => ?_, fun hnone => ?_⟩
  · rw [ackTag_eq_some hrem hne hdig hpost hfirst]
    rfl
  · rw [ackTag_eq_none hnone]
    rfl

/-! ### Steps 6 to 8, up to the rule that applies -/

theorem State.digiRules_dest (hd : DestApplies s) : s.digiRules n cs b = s.digiDest n cs b :=
  if_pos ((destApplies_iff s).mp hd)

theorem State.digiRules_noPath (hd : ¬ DestApplies s) (hn : n = 2) : s.digiRules n cs b = s.digiDrop b .noPath := by
  rw [State.digiRules, if_neg ((destApplies_iff s).not.mp hd), if_pos hn]

theorem State.digiRules_noCandidate (hd : ¬ DestApplies s) (hn : 2 < n) (hc : ∀ k, 2 ≤ k → k < n → (s.field k).h = true) :
    s.digiRules n cs b = s.digiDrop b .noRule := by
  rw [State.digiRules, if_neg ((destApplies_iff s).not.mp hd), if_neg (by omega), State.candidate_eq_none.mpr hc]

/-- Step 8 on its candidate (R227, R228); a frame of two address fields has none. -/
theorem State.digiRules_candidate (hd : ¬ DestApplies s) (hc : Candidate s n k) :
    s.digiRules n cs b =
      if wideMatch s.cfg.widenMax (s.field k) then s.digiWide n k cs b else s.digiDrop b .noRule := by
  have ⟨h2, hk, _⟩ := hc
  rw [State.digiRules, if_neg ((destApplies_iff s).not.mp hd), if_neg (by omega), State.candidate_eq_some.mpr hc]

theorem State.digiRules_wide (h : FrameShape s n) (hd : ¬ DestApplies s) (hc : Candidate s n k)
    (hw : IsWide s.cfg.widenMax (s.field k) w) : s.digiRules n cs b = s.digiWide n k cs b := by
  have ⟨_, hk, _⟩ := hc
  rw [State.digiRules_candidate hd hc, if_pos ((wideMatch_iff _ _ (field_bit0 h hk)).mpr ⟨w, hw⟩)]

theorem State.digiRules_notWide (h : FrameShape s n) (hd : ¬ DestApplies s) (hc : Candidate s n k)
    (hw : ∀ w, ¬ IsWide s.cfg.widenMax (s.field k) w) : s.digiRules n cs b = s.digiDrop b .noRule := by
  have ⟨_, hk, _⟩ := hc
  rw [State.digiRules_candidate hd hc, if_neg fun hm => ?_]
  obtain ⟨w, hwide⟩ := (wideMatch_iff _ _ (field_bit0 h hk)).mp hm
  exact hw w hwide

theorem State.digiDest_noRoom {e : RoomErr} (hr : s.noRoom n = some e) : s.digiDest n cs b = s.digiDrop b e.reason := by
  rw [State.digiDest, hr]

theorem ssid_pred_ne_zero {N : BitVec 4} : N - 1#4 ≠ 0#4 ↔ N.toNat ≠ 1 := by
  revert N
  decide

theorem State.digiWide_noRoom (hN : 2 ≤ (s.field k).ssid.toNat) {e : RoomErr} (hr : s.noRoom n = some e) :
    s.digiWide n k cs b = s.digiDrop b e.reason := by
  rw [State.digiWide, if_pos (ssid_pred_ne_zero.mpr (by omega)), hr]

theorem State.digiWide_insert (hN : 2 ≤ (s.field k).ssid.toNat) (hr : s.noRoom n = none) :
    s.digiWide n k cs b =
      ((s.setSsid k ((s.field k).ssid - 1#4)).grow n k).digiRepeat cs b .wideInsert true k := by
  rw [State.digiWide, if_pos (ssid_pred_ne_zero.mpr (by omega)), hr]

theorem State.digiWide_overwrite (hN : (s.field k).ssid.toNat = 1) :
    s.digiWide n k cs b = (s.overwriteNode k).digiRepeat cs b .wideOverwrite false k :=
  if_neg (ssid_pred_ne_zero.not_left.mpr hN)

/-- Replacing the destination's SSID leaves the H bits, and so the insertion point (R223, R225). -/
theorem insertionPoint_setSsid (h : InsertionPoint s n k) (i : Nat) (v : BitVec 4) : InsertionPoint (s.setSsid i v) n k := by
  have hh (j : Nat) : ((s.setSsid i v).field j).h = (s.field j).h := by
    simp only [Addr.h, State.field, State.fb_setSsid]
    split
    next he => rw [he, (withSsid_bits _ v).2]
    next => rfl
  obtain ⟨h2, hk, hbefore, hat⟩ := h
  exact ⟨h2, hk, fun j hj hjk => (hh j).trans (hbefore j hj hjk), fun hkn => (hh k).trans (hat hkn)⟩

/-- Step 6 with room: the walk of R223 ends at the insertion point. -/
theorem State.digiDest_insert (h : FrameShape s n) (hr : s.noRoom n = none) (hk : InsertionPoint s n k) :
    s.digiDest n cs b = ((s.setSsid 0 ((s.field 0).ssid - 1#4)).grow n k).digiRepeat cs b .destSsid true k := by
  have hL := frameShape_lastOnly (h.setSsid 0 ((s.field 0).ssid - 1#4))
  have hspec := State.insertionPoint_spec hL n 2 le_rfl h.minAddr (by omega) fun j _ _ => by omega
  rw [State.digiDest, hr]
  dsimp only
  rw [insertionPoint_unique hspec (insertionPoint_setSsid hk _ _)]

/-! ### Which rule a frame that reaches the rules comes to -/

/-- The accepted and swept state holds the same frame and the same configuration. -/
theorem frameShape_sweep_accepted (h : FrameShape s n) : FrameShape (accepted s n).sweep n := { h with }

theorem exec_digiProcess_dest (h : ReachesRules s n) (hd : DestApplies s) :
    exec (.digiProcess 0#8 0#16) s =
      .next (completed ((accepted s n).sweep.digiDest n (crc (payloadOf s n)) (isQuery (payloadOf s n)))) := by
  have hd' : DestApplies (accepted s n).sweep := hd
  rw [exec, execDigiProcess_rules h, State.digiRules_dest hd']

theorem exec_digiProcess_wide (h : ReachesRules s n) (hd : ¬ DestApplies s) (hc : Candidate s n k)
    (hw : IsWide s.cfg.widenMax (s.field k) w) :
    exec (.digiProcess 0#8 0#16) s =
      .next (completed ((accepted s n).sweep.digiWide n k (crc (payloadOf s n)) (isQuery (payloadOf s n)))) := by
  have hd' : ¬ DestApplies (accepted s n).sweep := hd
  have hc' : Candidate (accepted s n).sweep n k := hc
  rw [exec, execDigiProcess_rules h, State.digiRules_wide (frameShape_sweep_accepted h.shape) hd' hc' hw]

/-! ### The drops -/

/-- Settles O38: on the swept state every rule but a digipeat ends in `digiDrop`, with its reason. -/
theorem ruleDropsAndTheBeaconTrigger : Obligations.RuleDropsAndTheBeaconTrigger := by
  intro s n q dropped h hq hdrop
  subst hq
  have hs := frameShape_sweep_accepted h.shape
  have hend {t : State} {r : Reason} (hexec : exec (.digiProcess 0#8 0#16) s = .next (completed t))
      (ht : t = (accepted s n).sweep.digiDrop (isQuery (payloadOf s n)) r) :
      exec (.digiProcess 0#8 0#16) s = .next (dropped r) := by
    rw [hexec, ht, hdrop, sweep_accepted]
    rfl
  have hrules := execDigiProcess_rules h
  refine ⟨fun hd hn => ?_, fun hd hn hl => ?_, fun hd hn => ?_, fun hd hn hc => ?_, fun k hd hc hw => ?_,
    fun k w hd hc hw hN hn => ?_, fun k w hd hc hw hN hn hl => ?_⟩
  · exact hend (exec_digiProcess_dest h hd) (State.digiDest_noRoom (s := (accepted s n).sweep) (noRoom_of_full hn))
  · exact hend (exec_digiProcess_dest h hd) (State.digiDest_noRoom (s := (accepted s n).sweep) (noRoom_of_long hn hl))
  · exact hend hrules (State.digiRules_noPath hd hn)
  · exact hend hrules (State.digiRules_noCandidate hd hn hc)
  · exact hend hrules (State.digiRules_notWide hs hd hc hw)
  · exact hend (exec_digiProcess_wide h hd hc hw) (State.digiWide_noRoom (s := (accepted s n).sweep) hN (noRoom_of_full hn))
  · exact hend (exec_digiProcess_wide h hd hc hw) (State.digiWide_noRoom (s := (accepted s n).sweep) hN (noRoom_of_long hn hl))

/-! ### The digipeats -/

/-- A byte `p` set before INSERT_NODE(K) is found at `p`, or 7 higher when it stands at or behind the insertion point; no other
byte of the spliced frame depends on it (R224). -/
theorem insertedByte_of_set {p q : Nat} {v : Byte} (hnode : u.node = s.node) (hflen : u.flen = s.flen)
    (hfb : ∀ j, u.fb j = if j = p then v else s.fb j) (hp : p ≠ 7 * k - 1) (hlen : p < s.flen.toNat)
    (hq : (p < 7 * k ∧ q = p) ∨ (7 * k ≤ p ∧ q = p + 7)) (j : Nat) :
    insertedByte u k j = if j = q then v else insertedByte s k j := by
  have hset : u.fb p = v := by rw [hfb, if_pos rfl]
  have hkept {l : Nat} (hl : l ≠ p) : u.fb l = s.fb l := by rw [hfb, if_neg hl]
  by_cases hj : j = q
  · rw [if_pos hj, insertedByte, if_neg (by omega)]
    rcases hq with ⟨hpk, rfl⟩ | ⟨hpk, rfl⟩
    · rw [if_pos (by omega), hj, hset]
    · rw [if_neg (by omega), if_neg (by omega), if_neg (by omega), hflen, if_pos (by omega), hj, Nat.add_sub_cancel, hset]
  · rw [if_neg hj, insertedByte, insertedByte, hnode, hflen, hkept hp.symm]
    split_ifs
    · rw [hkept (by omega)]
    · rw [hkept (by omega)]
    · rfl
    · rfl
    · rw [hkept (by omega)]
    · rw [hkept (by omega)]

/-- The end of a digipeat (R225, R229, R230), where INSERT's slot is known. -/
theorem State.digiRepeat_eq {g : Bool} (hi : InsertsAt s.table s.tickSnap i ev) :
    s.digiRepeat cs b r g k = { s with
      table := s.table.set i ⟨cs, s.tickSnap + s.dupWindow⟩
      digiRes := ⟨.digipeat, r, b, false, g, true, BitVec.ofNat 4 k⟩
      cnt := { s.cnt with digi := s.cnt.digi + 1#32 } } := by
  rw [State.digiRepeat, State.insert_eq cs hi]

theorem State.exists_mem_grow_setSsid {v : BitVec 4} (hp : s.params.wf = true) (h : FrameShape s n) : ∃ m,
    (s.setSsid f v).grow n k = { s with
      flen := BitVec.ofNat 16 (s.flen.toNat + 7)
      hdr := ⟨BitVec.ofNat 8 (n + 1), BitVec.ofNat 8 (n - 1), BitVec.ofNat 16 (7 * n + 9)⟩
      payLen := BitVec.ofNat 16 (s.flen.toNat - (7 * n + 2))
      mem := m } := by
  obtain ⟨m, hm⟩ : ∃ m, s.setSsid f v = { s with mem := m } := ⟨_, rfl⟩
  rw [hm]
  exact ⟨_, State.grow_eq k hp h.notLong h.whole⟩

/-- The answer of a digipeat that lowers the SSID of field `f` and inserts the node as field `k` (R225, R229). -/
def digiInserted (s : State) (n f k : Nat) (r : Reason) : State :=
  completed ((((accepted s n).sweep.setSsid f ((s.field f).ssid - 1#4)).grow n k).digiRepeat (crc (payloadOf s n))
    (isQuery (payloadOf s n)) r true k)

/-- The bytes are those of R224 on the frame whose field `f` has its SSID lowered. -/
theorem fb_digiInserted {q : Nat} (h : FrameShape s n) (hN : (s.field f).ssid ≠ 0#4) (hf : f < n) (hk1 : 1 ≤ k)
    (hkn : k ≤ n) (hq : (f + 1 < k ∧ q = 7 * f + 6) ∨ (k ≤ f ∧ q = 7 * f + 13)) (j : Nat) :
    (digiInserted s n f k r).fb j = if j = q then s.fb (7 * f + 6) - 2#8 else insertedByte s k j := by
  have hw := h.whole
  have hset := State.fb_setSsid_pred (s := s) (u := (accepted s n).sweep) (fun _ => rfl) hN
  have hflen : ((accepted s n).sweep.setSsid f ((s.field f).ssid - 1#4)).flen = s.flen := State.setSsid_flen _ _ _
  have hnode : ((accepted s n).sweep.setSsid f ((s.field f).ssid - 1#4)).node = s.node := State.setSsid_node _ _ _
  rw [digiInserted, completed_fb, State.digiRepeat_fb, State.grow_fb, State.fb_insertNode _ hk1 (by rw [hflen]; omega)]
  exact insertedByte_of_set hnode hflen hset (by omega) (by omega) (by omega) j

/-- Everything else such a digipeat changes. -/
theorem digiInserted_eq (hp : s.params.wf = true) (h : FrameShape s n)
    (hi : InsertsAt (swept s.tickSnap s.table) s.tickSnap i ev) :
    { digiInserted s n f k r with mem := s.mem } = completed { accepted s n with
      flen := BitVec.ofNat 16 (s.flen.toNat + 7)
      hdr := ⟨BitVec.ofNat 8 (n + 1), BitVec.ofNat 8 (n - 1), BitVec.ofNat 16 (7 * n + 9)⟩
      table := (swept s.tickSnap s.table).set i ⟨crc (payloadOf s n), s.tickSnap + s.dupWindow⟩
      digiRes := ⟨.digipeat, r, isQuery (payloadOf s n), false, true, true, BitVec.ofNat 4 k⟩
      cnt := { s.cnt with rx := s.cnt.rx + 1#32, digi := s.cnt.digi + 1#32 } } := by
  obtain ⟨m, hm⟩ := State.exists_mem_grow_setSsid (s := (accepted s n).sweep) (f := f) (k := k)
    (v := (s.field f).ssid - 1#4) hp (frameShape_sweep_accepted h)
  rw [digiInserted, hm, State.digiRepeat_eq (i := i) (ev := ev) (table_sweep_accepted.symm ▸ hi)]
  dsimp only
  rw [table_sweep_accepted]
  rfl

/-- Settles O35: step 6 lowers FB(6), which lies below every insertion point and stays where it is. -/
theorem destinationSsidDigipeats : Obligations.DestinationSsidDigipeats := by
  intro s n k i ev T hp h hd hroom hk hT hi
  subst hT
  have ⟨h2, hkn, _⟩ := hk
  have hr : (accepted s n).sweep.noRoom n = none := (State.noRoom_eq_none h.shape.maxAddr).mpr hroom
  have hk' : InsertionPoint (accepted s n).sweep n k := hk
  have hexec : exec (.digiProcess 0#8 0#16) s = .next (digiInserted s n 0 k .destSsid) := by
    rw [exec_digiProcess_dest h hd, State.digiDest_insert (frameShape_sweep_accepted h.shape) hr hk']
    rfl
  have hfb := fb_digiInserted (r := .destSsid) h.shape ((destApplies_iff s).mp hd).1 (by omega) (by omega) hkn
    (.inl ⟨by omega, rfl⟩)
  exact ⟨_, hexec, (hfb 6).trans (if_pos rfl), fun j hj => (hfb j).trans (if_neg hj), digiInserted_eq hp h.shape hi⟩

/-- Settles O36: step 8 lowers the candidate's SSID byte, and the insertion ahead of it moves that byte up by 7. -/
theorem wideHopInsertsTheNode : Obligations.WideHopInsertsTheNode := by
  intro s n k w i ev T hp h hd hc hwide hN hroom hT hi
  subst hT
  have ⟨h2, hkn, _⟩ := hc
  have hr : (accepted s n).sweep.noRoom n = none := (State.noRoom_eq_none h.shape.maxAddr).mpr hroom
  have hN' : 2 ≤ ((accepted s n).sweep.field k).ssid.toNat := hN
  have hN0 : (s.field k).ssid ≠ 0#4 := fun h0 => by simp [h0] at hN
  have hexec : exec (.digiProcess 0#8 0#16) s = .next (digiInserted s n k k .wideInsert) := by
    rw [exec_digiProcess_wide h hd hc hwide, State.digiWide_insert hN' hr]
    rfl
  have hfb := fb_digiInserted (r := .wideInsert) h.shape hN0 hkn (by omega) hkn.le (.inr ⟨le_rfl, rfl⟩)
  exact ⟨_, hexec, (hfb _).trans (if_pos rfl), fun j hj => (hfb j).trans (if_neg hj), digiInserted_eq hp h.shape hi⟩

/-- Settles O37: step 8 overwrites the candidate; R230 asks for no room. -/
theorem lastWideHopIsOverwritten : Obligations.LastWideHopIsOverwritten := by
  intro s n k w i ev T _ h hd hc hwide hN hT hi
  subst hT
  have hN' : ((accepted s n).sweep.field k).ssid.toNat = 1 := hN
  rw [exec_digiProcess_wide h hd hc hwide, State.digiWide_overwrite hN']
  refine ⟨_, rfl, fun j => ?_, ?_⟩
  · rw [completed_fb, State.digiRepeat_fb, State.fb_overwriteNode]
    rfl
  · obtain ⟨m, hm⟩ := State.exists_mem_overwriteNode (accepted s n).sweep k
    rw [hm, State.digiRepeat_eq (i := i) (ev := ev) (table_sweep_accepted.symm ▸ hi)]
    dsimp only
    rw [table_sweep_accepted]
    rfl

end Sys2Proof.Machine
end

section
/-! PROOFS. The channel-access arbiter (O42, O43, O45 to O48).

A sample event has one equation per case. From a wait a step takes a sample, leaves the arbiter alone, or is a reset (`WaitStep`):
what an arbitrary event does to a wait is read off that split, and what a run of samples does off `afterSamples`. -/

namespace Sys2Proof.Machine

open Sys2Proof.Spec

variable {s t : State} {b : Bool} {r : Byte} {past : List Bool}

/-- Settles O42: both argument fields are 0, so the command starts the wait. -/
theorem csmaAcquireStartsTheWait : Obligations.CsmaAcquireStartsTheWait := fun s => execCsmaAcquire_cases s 0#8 0#16

/-! ### Sample events, one equation per case -/

theorem State.sampleEvent_busy (hw : s.engine = .csmaWait) (r : Byte) :
    s.sampleEvent true r = { s with arb := { s.arb with idleCnt := 0#16 } } := by
  simp [State.sampleEvent, hw, State.sampleChannel]

theorem State.sampleEvent_count (hw : s.engine = .csmaWait) (hn : s.arb.idleCnt + 1#16 ≠ s.cfg.slotSamples) (r : Byte) :
    s.sampleEvent false r = { s with arb := { s.arb with idleCnt := s.arb.idleCnt + 1#16 } } := by
  simp [State.sampleEvent, hw, State.sampleChannel, hn]

/-- `s` after the grant of a draw that ends the slot (R253, R254). -/
def granted (s : State) : State :=
  completed { s with
    status := { s.status with grant := true }
    cnt := { s.cnt with grant := s.cnt.grant + 1#32 }
    arb := ⟨s.cfg.slotSamples, BitVec.ofNat 8 (min (s.arb.attempts.toNat + 1) 255), .idle⟩ }

theorem State.sampleEvent_grant (hw : s.engine = .csmaWait) (hn : s.arb.idleCnt + 1#16 = s.cfg.slotSamples)
    (hr : s.cfg.persist.toNat < r.toNat) : s.sampleEvent false r = granted s := by
  simp [State.sampleEvent, hw, State.sampleChannel, hn, State.drawChannel, hr, State.grant, satIncr_eq, granted]

theorem State.sampleEvent_newSlot (hw : s.engine = .csmaWait) (hn : s.arb.idleCnt + 1#16 = s.cfg.slotSamples)
    (hr : r.toNat ≤ s.cfg.persist.toNat) :
    s.sampleEvent false r = { s with
      arb := { s.arb with idleCnt := 0#16, attempts := BitVec.ofNat 8 (min (s.arb.attempts.toNat + 1) 255) } } := by
  simp [State.sampleEvent, hw, State.sampleChannel, hn, State.drawChannel, hr, satIncr_eq]

theorem step_before_sample (s : State) (b : Bool) (r : Byte) : step (before (.sample b r) s) = .next (s.sampleEvent b r) := rfl

/-- Settles O43: the next event is the sample event, which is one of the four cases. -/
theorem sampleEventsCountDrawAndGrant : Obligations.SampleEventsCountDrawAndGrant := by
  intro s r
  simp only [step_before_sample]
  refine ⟨fun hw b => ?_, fun hw => ⟨?_, fun hn => ?_, fun hn hr => ?_, fun hn hr => ?_⟩⟩
  · rw [State.sampleEvent_other hw]
  · rw [State.sampleEvent_busy hw]
  · rw [State.sampleEvent_count hw hn]
  · rw [State.sampleEvent_grant hw hn hr]
    rfl
  · rw [State.sampleEvent_newSlot hw hn hr]

/-! ### The history of a wait -/

/-- A sample event ends a wait only by a grant, with an idle sample that fills the slot and a draw above PERSIST. -/
theorem sampleEvent_ends (hw : s.engine = .csmaWait) (he : (s.sampleEvent b r).engine ≠ .csmaWait) :
    b = false ∧ s.arb.idleCnt + 1#16 = s.cfg.slotSamples ∧ s.cfg.persist.toNat < r.toNat ∧
      s.sampleEvent b r = granted s := by
  rcases State.sampleEvent_cases hw b r with ⟨-, ht⟩ | ⟨-, -, ht⟩ | ⟨rfl, hn, hr, -⟩ | ⟨-, -, -, ht⟩
  · exact absurd (by rw [ht]; exact hw) he
  · exact absurd (by rw [ht]; exact hw) he
  · exact ⟨rfl, hn, hr, State.sampleEvent_grant hw hn hr⟩
  · exact absurd (by rw [ht]; exact hw) he

theorem sampleEvent_cfg (s : State) (b : Bool) (r : Byte) : (s.sampleEvent b r).cfg = s.cfg := by
  by_cases hw : s.engine = .csmaWait
  · rcases State.sampleEvent_cases hw b r with ⟨-, ht⟩ | ⟨-, -, ht⟩ | ⟨-, -, -, ht⟩ | ⟨-, -, -, ht⟩ <;> simp [ht]
  · rw [State.sampleEvent_other hw]

theorem idleTrail_of_zero (h0 : t.arb.idleCnt = 0#16) (past : List Bool) : IdleTrail t past := by simp [IdleTrail, h0]

/-- One more idle sample than IDLE_CNT counts, modulo 2^16, so after the wrap the count is of none. -/
theorem idleTrail_cons_idle (hi : IdleTrail s past) {n : Half} (hn : s.arb.idleCnt + 1#16 = n) :
    n.toNat ≤ (false :: past).length ∧ ∀ x ∈ (false :: past).take n.toNat, x = false := by
  obtain ⟨hle, hall⟩ := hi
  have hcount : n.toNat = s.arb.idleCnt.toNat + 1 ∨ n.toNat = 0 := by bv_omega
  rcases hcount with h1 | h0
  · rw [h1]
    exact ⟨Nat.succ_le_succ hle, by simpa using hall⟩
  · simp [h0]

theorem idleTrail_sampleEvent (hi : IdleTrail s past) (hw : s.engine = .csmaWait)
    (he : (s.sampleEvent b r).engine = .csmaWait) : IdleTrail (s.sampleEvent b r) (b :: past) := by
  rcases State.sampleEvent_cases hw b r with ⟨-, ht⟩ | ⟨rfl, -, ht⟩ | ⟨-, -, -, ht⟩ | ⟨-, -, -, ht⟩ <;> rw [ht] at he ⊢
  · exact idleTrail_of_zero rfl _
  · exact idleTrail_cons_idle hi rfl
  · cases he
  · exact idleTrail_of_zero rfl _

/-- A run of samples that leaves the wait on: the arbiter waited all along, and the run is the history. -/
theorem idleTrail_afterSamples (h0 : s.arb.idleCnt = 0#16) (l : List (Bool × Byte))
    (he : (afterSamples s l).engine = .csmaWait) :
    IdleTrail (afterSamples s l) (l.reverse.map Prod.fst) ∧ (afterSamples s l).cfg = s.cfg := by
  induction l using List.reverseRecOn with
  | nil => exact ⟨idleTrail_of_zero h0 _, rfl⟩
  | append_singleton l x ih =>
    rw [afterSamples_append] at he ⊢
    have hw : (afterSamples s l).engine = .csmaWait := by
      by_contra hn
      rw [State.sampleEvent_other hn] at he
      exact hn he
    obtain ⟨hi, hc⟩ := ih hw
    rw [List.reverse_concat, List.map_cons]
    exact ⟨idleTrail_sampleEvent hi hw he, (sampleEvent_cfg _ _ _).trans hc⟩

theorem run_beforeSamples_concat (s : State) (l : List (Bool × Byte)) (x : Bool × Byte) :
    Host.Core.run Sys2Proof.core (l.length + 1) (beforeSamples (l ++ [x]) s) =
      .next ((afterSamples s l).sampleEvent x.1 x.2) := by
  rw [← afterSamples_append, ← run_beforeSamples, List.length_append, List.length_singleton]

/-! ### What a step does to a wait -/

/-- What a step from a wait can do. -/
inductive WaitStep (s : State) : State → Prop where
  /-- It takes a sample. -/
  | sample (b : Bool) (r : Byte) (q : List Event) (n : Nat) (hb : sampleTaken s = [b]) :
      WaitStep s (State.sampleEvent { s with schedule := q, samples := n } b r)
  /-- It is an event that leaves the arbiter and its configuration alone. -/
  | other (t : State) (hb : sampleTaken s = []) (he : t.engine = .csmaWait) (ha : t.arb = s.arb) (hc : t.cfg = s.cfg) :
      WaitStep s t
  /-- It is a soft or a hard reset, which ends the wait without a grant or DONE (R256). -/
  | reset (t : State) (he : t.engine = .idle) (hg : t.status.grant = false) (hd : t.status.done = false)
      (hs : (∃ v rest, s.schedule = .host (.write32 0x00C#10 v) :: rest ∧ v.getLsbD 1 = true) ∨
        ∃ rest, s.schedule = .hardReset :: rest) : WaitStep s t

theorem waitStep_host {a : Access} {rest : List Event} (hs : s.schedule = .host a :: rest) (hw : s.engine = .csmaWait)
    (hb : s.status.busy = true) : WaitStep s (State.hostAccess { s with schedule := rest } a) := by
  have hno : sampleTaken s = [] := by rw [sampleTaken, hs]
  rcases hostAccess_cases { s with schedule := rest } a with ⟨-, ht⟩ | ⟨u, x, he, ht⟩ <;> rw [ht]
  · exact .other _ hno hw rfl rfl
  · have hidle (hi : s.status.busy = false) : False := by simp [hb] at hi
    cases he with
    | reset v ha hv => exact .reset _ rfl rfl rfl (.inl ⟨v, rest, by rw [hs, ha], hv⟩)
    | config _ _ _ _ _ _ hi => exact (hidle hi).elim
    | issue _ hi => exact (hidle hi).elim
    | bytes _ _ hi => exact (hidle hi).elim
    | none => exact .other _ hno hw rfl rfl
    | callp => exact .other _ hno hw rfl rfl
    | ctrl => exact .other _ hno hw rfl rfl
    | status => exact .other _ hno hw rfl rfl
    | overrun => exact .other _ hno hw rfl rfl
    | dropped => exact .other _ hno hw rfl rfl

theorem waitStep_of_step (hw : s.engine = .csmaWait) (hb : s.status.busy = true) (hst : step s = .next t) : WaitStep s t := by
  rcases step_cases s with ⟨e, rest, hs, ht⟩ | ⟨-, hp, -⟩ | ⟨hs, -, ht⟩ | ⟨-, hi, -⟩
  · rw [hst] at ht
    cases e with
    | host a => cases ht; exact waitStep_host hs hw hb
    | engine =>
      rw [eventStep, engineStep_other { s with schedule := rest } (by simp [hw])] at ht
      cases ht
      exact .other _ (by rw [sampleTaken, hs]) hw rfl rfl
    | sample b r => cases ht; exact .sample b r rest s.samples (by rw [sampleTaken, hs])
    | tick n => cases ht; exact .other _ (by rw [sampleTaken, hs]) hw rfl rfl
    | hardReset => cases ht; exact .reset _ rfl rfl rfl (.inr ⟨rest, hs⟩)
  · simp [hw] at hp
  · rw [hst] at ht
    cases ht
    exact .sample _ _ s.schedule (s.samples + 1) (by rw [sampleTaken, hs])
  · simp [hw] at hi

/-- Settles O48: a step that leaves the arbiter alone keeps the wait, and a sample ends it only by the grant. -/
theorem waitEndsOnlyByGrantOrReset : Obligations.WaitEndsOnlyByGrantOrReset := by
  intro s t hw hb hst
  cases waitStep_of_step hw hb hst with
  | sample b r q n _ =>
    refine or_iff_not_imp_left.mpr fun he => .inl ?_
    obtain ⟨-, -, -, ht⟩ := sampleEvent_ends (s := { s with schedule := q, samples := n }) hw he
    rw [ht]
    exact ⟨rfl, rfl, rfl, rfl⟩
  | other _ _ he => exact .inl he
  | reset _ he hg hd hs => exact .inr (.inr ⟨he, hg, hd, hs⟩)

/-- Settles O45: the samples before the last one leave their count in IDLE_CNT, and no other step of the wait touches it. -/
theorem grantNeedsAFullIdleSlot : Obligations.GrantNeedsAFullIdleSlot := by
  constructor
  · intro s t u l x _ h0 _ hu huw ht hte
    rw [run_beforeSamples] at hu
    cases hu
    rw [run_beforeSamples_concat] at ht
    cases ht
    obtain ⟨hi, hc⟩ := idleTrail_afterSamples h0 l huw
    obtain ⟨hx, hn, hr, hg⟩ := sampleEvent_ends huw hte
    obtain ⟨hle, hall⟩ := idleTrail_cons_idle hi hn
    rw [hc] at hr hle hall
    refine ⟨by rw [hg]; rfl, hr, by simpa using hle, fun y hy => hall y.1 ?_⟩
    have hrev : false :: l.reverse.map Prod.fst = (l ++ [x]).reverse.map Prod.fst := by simp [hx]
    rw [hrev, ← List.map_take, List.take_reverse, List.length_append, List.length_singleton]
    exact List.mem_map_of_mem (List.mem_reverse.mpr hy)
  · intro s t past hw hb hi hst
    cases waitStep_of_step hw hb hst with
    | sample b r q n hsample =>
      have hi' : IdleTrail { s with schedule := q, samples := n } past := hi
      rw [hsample]
      refine ⟨fun he => ⟨idleTrail_sampleEvent hi' hw he, congrArg Cfg.slotSamples (sampleEvent_cfg _ b r)⟩,
        fun he _ => ?_⟩
      obtain ⟨rfl, hn, -, -⟩ := sampleEvent_ends (s := { s with schedule := q, samples := n }) hw he
      exact ⟨rfl, hn, idleTrail_cons_idle hi hn⟩
    | other _ hno he ha hc =>
      refine ⟨fun _ => ?_, fun hne => absurd he hne⟩
      rw [hno, List.nil_append, IdleTrail, ha, hc]
      exact ⟨hi, rfl⟩
    | reset _ he hg => exact ⟨fun hwt => by simp [he] at hwt, fun _ hgt => by simp [hg] at hgt⟩

/-! ### A full slot -/

/-- Idle samples that do not fill the slot only count, whatever draw they carry. -/
theorem afterSamples_counts {l : List (Bool × Byte)} : ∀ {s : State}, s.engine = .csmaWait → (∀ x ∈ l, x.1 = false) →
    s.arb.idleCnt.toNat + l.length < s.cfg.slotSamples.toNat →
    afterSamples s l = { s with arb := { s.arb with idleCnt := s.arb.idleCnt + BitVec.ofNat 16 l.length } } := by
  induction l with
  | nil => intro s _ _ _; simp
  | cons x l ih =>
    intro s hw hidle hlt
    obtain ⟨hx, hl⟩ := List.forall_mem_cons.mp hidle
    rw [List.length_cons] at hlt
    have hs := s.cfg.slotSamples.isLt
    have hcount : (s.arb.idleCnt + 1#16).toNat = s.arb.idleCnt.toNat + 1 := by bv_omega
    have hne : s.arb.idleCnt + 1#16 ≠ s.cfg.slotSamples := fun e => by rw [e] at hcount; omega
    have hlt' : (s.arb.idleCnt + 1#16).toNat + l.length < s.cfg.slotSamples.toNat := by omega
    rw [afterSamples_cons, hx, State.sampleEvent_count hw hne,
      ih (s := { s with arb := { s.arb with idleCnt := s.arb.idleCnt + 1#16 } }) hw hl hlt',
      List.length_cons, Nat.add_comm l.length, BitVec.ofNat_add, ← BitVec.add_assoc]

/-- Settles O46: the samples before the last one count up to the slot's end, where the last one draws. -/
theorem idleSlotAndDrawGrant : Obligations.IdleSlotAndDrawGrant := by
  intro s l r hw hn hidle hr
  have hlt := s.cfg.slotSamples.isLt
  have hcount := afterSamples_counts hw hidle (by omega)
  have hfull : s.arb.idleCnt + BitVec.ofNat 16 l.length + 1#16 = s.cfg.slotSamples := by
    apply BitVec.eq_of_toNat_eq
    simp only [BitVec.toNat_add, BitVec.toNat_ofNat]
    omega
  have hgrant : (afterSamples s l).sampleEvent false r = granted (afterSamples s l) := by
    rw [hcount]
    exact State.sampleEvent_grant hw hfull hr
  refine ⟨_, run_beforeSamples_concat s l (false, r), ?_⟩
  rw [hgrant, hcount]
  exact ⟨rfl, rfl, rfl, rfl⟩

/-! ### Counting draws -/

theorem grantedBy_draw (hw : s.engine = .csmaWait) (hn : s.arb.idleCnt + 1#16 = s.cfg.slotSamples) (r : Byte) :
    grantedBy s [(false, r)] = drawGrants s.cfg.persist r := by
  rw [grantedBy_eq, afterSamples_cons, afterSamples_nil]
  rcases Nat.lt_or_ge s.cfg.persist.toNat r.toNat with hr | hr
  · rw [State.sampleEvent_grant hw hn hr, drawGrants_iff.mpr hr]
    rfl
  · rw [State.sampleEvent_newSlot hw hn hr]
    simp [hw, drawGrants, hr]

/-- Pairs counted by a condition on each half. -/
theorem countP_flatMap_map {α β γ : Type} (f : α → β → γ) (m : List β) {q : γ → Bool} {a : α → Bool} {c : β → Bool}
    (hq : ∀ x, ∀ y ∈ m, q (f x y) = (a x && c y)) (l : List α) :
    (l.flatMap fun x => m.map (f x)).countP q = l.countP a * m.countP c := by
  induction l with
  | nil => simp
  | cons x l ih =>
    have hx : m.countP (q ∘ f x) = m.countP fun y => a x && c y :=
      List.countP_congr fun y hy => by rw [Function.comp_apply, hq x y hy]
    rw [List.flatMap_cons, List.countP_append, List.countP_map, ih, hx, List.countP_cons]
    cases a x <;> simp [Nat.add_mul, Nat.add_comm]

theorem length_drawSequences (k : Nat) : (drawSequences k).length = 256 ^ k := by
  induction k with
  | zero => rfl
  | succ k ih =>
    simp only [drawSequences, List.length_flatMap, List.length_map, ih, List.map_const', List.length_range,
      List.sum_replicate]
    exact (Nat.pow_succ' ..).symm

theorem ne_nil_of_mem_drawSequences {k : Nat} {rs : List Byte} (h : rs ∈ drawSequences (k + 1)) : rs ≠ [] := by
  rintro rfl
  simp [drawSequences] at h

/-- The last of these draws is the first that grants. -/
def grantsAtLast (p : Byte) (rs : List Byte) : Bool := rs.any (drawGrants p) && !rs.dropLast.any (drawGrants p)

theorem grantsAtLast_singleton (p r : Byte) : grantsAtLast p [r] = drawGrants p r := by simp [grantsAtLast]

theorem grantsAtLast_cons (p r : Byte) {rs : List Byte} (h : rs ≠ []) :
    grantsAtLast p (r :: rs) = (!drawGrants p r && grantsAtLast p rs) := by
  rw [grantsAtLast, grantsAtLast, List.dropLast_cons_of_ne_nil h, List.any_cons, List.any_cons]
  cases drawGrants p r <;> rfl

theorem countP_not_drawGrants (p : Byte) :
    (List.range 256).countP (fun r => !drawGrants p (BitVec.ofNat 8 r)) = p.toNat + 1 := by
  have hg := grantingDraws_eq p
  have hsum := List.length_eq_countP_add_countP (fun r => drawGrants p (BitVec.ofNat 8 r)) (l := List.range 256)
  rw [List.length_range] at hsum
  unfold grantingDraws at hg
  have := p.isLt
  simp only [Bool.not_eq_true, Bool.decide_eq_false] at hsum
  omega

/-- R258's geometric law: all draws but the last fail, and the last grants. -/
theorem countP_grantsAtLast (p : Byte) (k : Nat) :
    (drawSequences (k + 1)).countP (grantsAtLast p) = (p.toNat + 1) ^ k * (255 - p.toNat) := by
  induction k with
  | zero =>
    rw [drawSequences, countP_flatMap_map (a := fun r => drawGrants p (BitVec.ofNat 8 r)) (c := fun _ => true)]
    · rw [← grantingDraws_eq]
      simp [drawSequences, grantingDraws]
    · intro r rs hrs
      rw [List.mem_singleton.mp hrs, grantsAtLast_singleton, Bool.and_true]
  | succ k ih =>
    rw [drawSequences, countP_flatMap_map (fun r rs => BitVec.ofNat 8 r :: rs) _
        fun r _ hrs => grantsAtLast_cons p (BitVec.ofNat 8 r) (ne_nil_of_mem_drawSequences hrs),
      countP_not_drawGrants, ih, Nat.pow_succ', Nat.mul_assoc]

/-- Settles O47: a slot's end grants as its draw does, and a wait's slots grant as one of their draws does. -/
theorem drawsGrantInTheStatedProportion : Obligations.DrawsGrantInTheStatedProportion := by
  refine ⟨fun s hw hn => ?_, rfl, fun s k hw h0 hs hk => ⟨length_drawSequences k, ?_⟩⟩
  · simp only [grantedBy_draw hw hn]
    exact grantingDraws_eq s.cfg.persist
  · obtain ⟨m, rfl⟩ := Nat.exists_eq_add_of_le' hk
    simp only [grantedBy_slotsOf _ hw h0 hs]
    exact countP_grantsAtLast s.cfg.persist m

end Sys2Proof.Machine
end

section
/-! PROOFS. The control command NOP (O13), and the CTRL write and the two resets (O57). -/

namespace Sys2Proof.Machine

open Sys2Proof.Spec

variable {s : State}

/-! ### NOP -/

theorem exec_nop_of_used {a : BitVec 8} {b : BitVec 16} (h : a ≠ 0#8 ∨ b ≠ 0#16) :
    exec (.nop a b) s = .next (failed s .badArg) := by
  rw [exec, execNop_cases, if_pos ((argsUsed_iff a b).mpr h)]

theorem exec_nop_zero : exec (.nop 0#8 0#16) s = .next (completed s) := execNop_cases s 0#8 0#16

theorem decode_zero : decode 0x00000000#32 = .ok (.nop 0#8 0#16) := decode_encode (.nop 0#8 0#16)

/-- Settles O13: the engine's step on the word 0x00000000 is NOP on the state with the latched tick. -/
theorem nopOnlyCompletes : Obligations.NopOnlyCompletes := by
  refine fun s => ⟨fun a b => exec_nop_of_used, exec_nop_zero, fun hp hw => ?_⟩
  rw [step_before_engine hp, runPending_ok (hw ▸ decode_zero), exec_nop_zero]

/-! ### The CTRL write and the resets -/

theorem step_writeCtrl (v : Word) :
    step (before (.host (.write32 0x00C#10 v)) s) = .next { s.writeCtrl v with busResp := .ack } :=
  step_write32_reg rfl (by decide) v

theorem State.writeCtrl_srst {v : Word} (h : v.getLsbD 1 = true) : s.writeCtrl v = s.softReset := if_pos h

theorem State.writeCtrl_noSrst {v : Word} (h : v.getLsbD 1 = false) :
    s.writeCtrl v = { s with
      irqEn := v.getLsbD 0
      cnt := if v.getLsbD 2 then ⟨0#32, 0#32, 0#32⟩ else s.cnt } := if_neg (Bool.eq_false_iff.mp h)

theorem step_before_hardReset : step (before .hardReset s) = .next s.hardReset := rfl

/-- After a hard reset no byte of the buffers is listed, so each is the free value of the new reset count (R314). -/
theorem State.byteAt_hardReset (a : Nat) : s.hardReset.byteAt a = Config.unwrittenByte (s.resets + 1) a := rfl

/-- A hard reset differs from a soft reset in the buffers' bytes alone, which the reset count selects (R311, R312). -/
theorem State.hardReset_eq_softReset : { s.hardReset with mem := s.mem, resets := s.resets } = s.softReset := rfl

/-- Settles O57: the state both resets are compared with is the soft reset's. -/
theorem ctrlWritesAndResets : Obligations.CtrlWritesAndResets := by
  intro s v r hr
  obtain rfl : r = s.softReset := hr
  refine ⟨fun h => ?_, fun h => ?_, s.hardReset, step_before_hardReset, fun _ => State.byteAt_hardReset _,
    State.hardReset_eq_softReset⟩
  · rw [step_writeCtrl, State.writeCtrl_srst h]
  · rw [step_writeCtrl, State.writeCtrl_noSrst h]

end Sys2Proof.Machine
end

section
/-! PROOFS. How a command ends (O7, O8, O9), and that every step has a next state (O10). -/

namespace Sys2Proof.Machine

open Sys2Proof.Spec

variable {s t : State}

/-! ### The ends of a pending command -/

/-- `engineStep_cases` of the state that the engine's step gives: a failure, the start of a wait, or a completion. -/
theorem step_before_engine_ends (hp : s.engine = .pending) (h : step (before .engine s) = .next t) :
    (∃ c, c ∈ raises (opcField s.pend) ∧ c ≠ .noError ∧ t = failed s.latchTick c) ∨
      (s.pend = 0x00000040#32 ∧ t = s.latchTick.startWait) ∨
      (.noError ∈ raises (opcField s.pend) ∧ ∃ r, t = completed r ∧ Kept s.latchTick r) := by
  obtain ⟨u, hu, hend⟩ := engineStep_cases s hp
  cases h.symm.trans hu
  exact hend

/-- Settles O7: of the three ends only a failure has ERR = 1, and it is `failed` on the state with the latched tick. -/
theorem failureChangesOnlyStatus : Obligations.FailureChangesOnlyStatus := by
  intro s t hp he h ht
  rcases step_before_engine_ends hp h with ⟨c, -, hc, rfl⟩ | ⟨-, rfl⟩ | ⟨-, r, rfl, -⟩
  · exact ⟨rfl, hc⟩
  · simp [he] at ht
  · simp at ht

/-- Settles O8: a failure's code is in its opcode's row, and a completion or a started wait shows 0x00, which is there too. -/
theorem errorCodesFollowTheRaiseMatrix : Obligations.ErrorCodesFollowTheRaiseMatrix := by
  intro s t hp hc h
  rcases step_before_engine_ends hp h with ⟨c, hmem, -, rfl⟩ | ⟨hw, rfl⟩ | ⟨hmem, r, rfl, -⟩
  · exact hmem
  · have hcode : s.latchTick.startWait.status.errcode = .noError := hc
    rw [hcode, hw]
    decide
  · exact hmem

/-- Settles O9: a failure and a completion leave an idle engine with DONE = 1 and IRQ_EN kept; a started wait leaves STATUS. -/
theorem executedCommandCompletesOrFails : Obligations.ExecutedCommandCompletesOrFails := by
  intro s t hp h
  rcases step_before_engine_ends hp h with ⟨c, -, hc, rfl⟩ | ⟨hw, rfl⟩ | ⟨-, r, rfl, hk⟩
  · exact .inr ⟨rfl, rfl, rfl, Bool.and_true _, .inr ⟨rfl, hc⟩⟩
  · exact .inl ⟨hw, rfl, rfl⟩
  · exact .inr ⟨rfl, rfl, rfl, (Bool.and_true _).trans hk.irqEn, .inl ⟨rfl, rfl⟩⟩

/-! ### Every step has a next state -/

theorem engineStep_eq_next (s : State) : ∃ t, engineStep s = .next t := by
  by_cases hp : s.engine = .pending
  · obtain ⟨t, ht, -⟩ := engineStep_cases s hp
    exact ⟨t, ht⟩
  · exact ⟨s, engineStep_other s hp⟩

theorem eventStep_eq_next (e : Event) (s : State) : ∃ t, eventStep e s = .next t := by
  cases e with
  | engine => exact engineStep_eq_next s
  | host a | sample b r | tick n | hardReset => exact ⟨_, rfl⟩

/-- Settles O10: only the engine's step could stop, and each of its ends is a next state. -/
theorem everyStepHasANextState : Obligations.EveryStepHasANextState := by
  intro s
  rcases step_cases s with ⟨e, rest, -, ht⟩ | ⟨-, hp, ht⟩ | ⟨-, -, ht⟩ | ⟨-, -, ht⟩
  · rw [ht]
    exact eventStep_eq_next e _
  · rw [ht, ← engineStep_pending s hp]
    exact engineStep_eq_next s
  · exact ⟨_, ht⟩
  · exact ⟨_, ht⟩

end Sys2Proof.Machine
end

section
/-! PROOFS. What each command may write (O11).

Each operation of a command stays inside what the commands that use it may write (`Confined`), so each command does. What no
command writes is `exec_cases`. -/

namespace Sys2Proof.Machine

open Sys2Proof.Spec

/-- The commands that may write the duplicate table. -/
abbrev tableWriters : List Byte := [0x21#8, 0x22#8, 0x23#8, 0x30#8]

/-- The commands that may write FBUF. -/
abbrev frameWriters : List Byte := [0x12#8, 0x30#8, 0x31#8, 0x32#8]

/-- The commands that may write FLEN. -/
abbrev flenWriters : List Byte := [0x12#8, 0x30#8, 0x31#8]

/-- The commands that may write HDR_INFO and PAY_LEN. -/
abbrev headerWriters : List Byte := [0x10#8, 0x11#8, 0x12#8, 0x30#8, 0x31#8, 0x32#8]

/-- The commands that may write DUP_RES. -/
abbrev dupResWriters : List Byte := [0x21#8, 0x22#8, 0x23#8]

/-- Of the state that some command writes, `t` differs from `s` only where the command with this opcode may write (R58). -/
structure Confined (opc : Byte) (s t : State) : Prop where
  table : opc ∉ tableWriters → t.table = s.table
  tlen : opc ≠ 0x11#8 → t.tlen = s.tlen
  text : opc ≠ 0x11#8 → ∀ j, t.tb j = s.tb j
  frame : opc ∉ frameWriters → ∀ j, j < 256 → t.fb j = s.fb j
  flen : opc ∉ flenWriters → t.flen = s.flen
  encoded : opc ≠ 0x02#8 → t.callp = s.callp ∧ t.callInfo.curOut = s.callInfo.curOut
  decoded : opc ≠ 0x01#8 → t.callTxt = s.callTxt ∧ t.callInfo.tlen = s.callInfo.tlen
  header : opc ∉ headerWriters → t.hdr = s.hdr ∧ t.payLen = s.payLen
  crcRes : opc ≠ 0x20#8 → t.crcRes = s.crcRes
  dupRes : opc ∉ dupResWriters → t.dupRes = s.dupRes
  digi : opc ≠ 0x30#8 → t.digiRes = s.digiRes ∧ t.msgInfo = s.msgInfo ∧ t.ackInfo = s.ackInfo ∧ t.cnt = s.cnt
  arb : opc ≠ 0x40#8 → t.arb = s.arb

variable {opc : Byte} {s t : State} {n k : Nat}

theorem Confined.refl (opc : Byte) (s : State) : Confined opc s s where
  table _ := rfl
  tlen _ := rfl
  text _ _ := rfl
  frame _ _ _ := rfl
  flen _ := rfl
  encoded _ := ⟨rfl, rfl⟩
  decoded _ := ⟨rfl, rfl⟩
  header _ := ⟨rfl, rfl⟩
  crcRes _ := rfl
  dupRes _ := rfl
  digi _ := ⟨rfl, rfl, rfl, rfl⟩
  arb _ := rfl

/-! ### The ends of a command -/

theorem Confined.completed (h : Confined opc s t) : Confined opc s (completed t) := { h with }

theorem confined_failed (opc : Byte) (s : State) (c : ErrCode) : Confined opc s (failed s c) := { Confined.refl opc s with }

/-! ### The operations of a command -/

theorem Confined.setHeader (h : Confined opc s t) (ho : opc ∈ headerWriters) (p : Nat) : Confined opc s (t.setHeader n p) :=
  { h with header := absurd ho }

/-- FBUF lies before TBUF, so a write inside it leaves TBUF. -/
theorem Confined.setFb (h : Confined opc s t) (ho : opc ∈ frameWriters) {i : Nat} {bs : List Byte} (hb : i + bs.length ≤ 256) :
    Confined opc s (t.setFb i bs) :=
  { h with
    text := fun hn j => (t.tb_setFb hb j).trans (h.text hn j)
    frame := absurd ho }

theorem Confined.setTb (h : Confined 0x11#8 s t) (i : Nat) (bs : List Byte) : Confined 0x11#8 s (t.setTb i bs) :=
  { h with
    text := absurd rfl
    frame := fun hn j hj => (t.fb_setTb i bs hj).trans (h.frame hn j hj) }

theorem Confined.setTlen (h : Confined 0x11#8 s t) (x : Half) : Confined 0x11#8 s { t with tlen := x } :=
  { h with tlen := absurd rfl }

theorem Confined.setFlen (h : Confined opc s t) (ho : opc ∈ flenWriters) (x : Half) : Confined opc s { t with flen := x } :=
  { h with flen := absurd ho }

theorem Confined.setSsid (h : Confined opc s t) (ho : opc ∈ frameWriters) (hk : k ≤ 10) (x : BitVec 4) :
    Confined opc s (t.setSsid k x) :=
  h.setFb ho (by simp; omega)

theorem Confined.overwriteNode (h : Confined opc s t) (ho : opc ∈ frameWriters) (hk : k ≤ 10) :
    Confined opc s (t.overwriteNode k) :=
  h.setFb ho (by simp; omega)

theorem flenWriters_subset : flenWriters ⊆ frameWriters := by decide

theorem frameWriters_subset : frameWriters ⊆ headerWriters := by decide

theorem Confined.grow (h : Confined opc s t) (ho : opc ∈ flenWriters) (hk : k ≤ 12) (hf : t.flen.toNat + 7 ≤ 256) :
    Confined opc s (t.grow n k) := by
  have hframe := flenWriters_subset ho
  have hcleared := h.setFb hframe (i := 7 * k - 1) (bs := [clearE (t.fb (7 * k - 1))]) (by simp; omega)
  have hshifted := hcleared.setFb hframe (i := 7 * k + 7) (bs := t.fbs (7 * k) (t.flen.toNat - 7 * k)) (by simp; omega)
  have hwritten := hshifted.setFb hframe (i := 7 * k) (bs := (nodeEntry t.node ((t.fb (7 * k - 1)).getLsbD 0)).bytes)
    (by simp; omega)
  exact (hwritten.setFlen ho (t.flen + 7#16)).setHeader (frameWriters_subset hframe) _

/-- A grown frame still fits in FBUF (R222). -/
theorem flen_add_seven_le (hp : s.params.wf = true) (hs : FrameShape s n) (hr : s.noRoom n = none) :
    s.flen.toNat + 7 ≤ 256 := by
  have hroom := ((State.noRoom_eq_none hs.maxAddr).mp hr).2
  have hmax := maxFrameLen_le hp
  omega

/-! ### The rule engine -/

theorem Confined.sweep (h : Confined opc s t) (ho : opc ∈ tableWriters) : Confined opc s t.sweep :=
  { h with table := absurd ho }

theorem Confined.insert (h : Confined opc s t) (ho : opc ∈ tableWriters) (cs : Half) : Confined opc s (t.insert cs) :=
  { h with table := absurd ho }

theorem Confined.setDupRes (h : Confined opc s t) (ho : opc ∈ dupResWriters) (x : DupRes) :
    Confined opc s { t with dupRes := x } :=
  { h with dupRes := absurd ho }

theorem Confined.digiDrop (h : Confined 0x30#8 s t) (b : Bool) (r : Reason) : Confined 0x30#8 s (t.digiDrop b r) :=
  { h with digi := absurd rfl }

theorem Confined.digiMessage (h : Confined 0x30#8 s t) (p : Nat) : Confined 0x30#8 s (t.digiMessage p) :=
  { h with digi := absurd rfl }

theorem Confined.digiRepeat (h : Confined 0x30#8 s t) (cs : Half) (b : Bool) (r : Reason) (g : Bool) (k : Nat) :
    Confined 0x30#8 s (t.digiRepeat cs b r g k) :=
  { h.insert (by decide) cs with digi := absurd rfl }

theorem Confined.clearMessage (h : Confined 0x30#8 s t) : Confined 0x30#8 s t.clearMessage := { h with digi := absurd rfl }

theorem Confined.digiCount (h : Confined 0x30#8 s t) (n : Nat) : Confined 0x30#8 s (t.digiCount n) :=
  { h with
    header := absurd (by decide)
    digi := absurd rfl }

section
variable (h : Confined 0x30#8 s t) (hp : t.params.wf = true) (hs : FrameShape t n) (cs : Half) (b : Bool)
include h hp hs

/-- Both insertions of the rule engine, after an SSID was lowered (R225, R229). -/
theorem Confined.digiInsert (hr : t.noRoom n = none) {j : Nat} (hj : j ≤ 10) (hk : k ≤ 12) (x : BitVec 4) (r : Reason) :
    Confined 0x30#8 s (((t.setSsid j x).grow n k).digiRepeat cs b r true k) :=
  ((h.setSsid (by decide) hj x).grow (by decide) hk (flen_add_seven_le hp (hs.setSsid j x) hr)).digiRepeat _ _ _ _ _

theorem Confined.digiDest : Confined 0x30#8 s (t.digiDest n cs b) := by
  simp only [State.digiDest]
  split
  next => exact h.digiDrop _ _
  next hr =>
    have hk := State.insertionPoint_le (t.setSsid 0 ((t.field 0).ssid - 1#4)) n 2
    have h10 := hs.maxAddr
    exact h.digiInsert hp hs cs b hr (by omega) (by omega) _ _

theorem Confined.digiWide (hk : k < n) : Confined 0x30#8 s (t.digiWide n k cs b) := by
  have h10 := hs.maxAddr
  simp only [State.digiWide]
  split
  · split
    next => exact h.digiDrop _ _
    next hr => exact h.digiInsert hp hs cs b hr (by omega) (by omega) _ _
  · exact (h.overwriteNode (by decide) (by omega)).digiRepeat _ _ _ _ _

theorem Confined.digiRules : Confined 0x30#8 s (t.digiRules n cs b) := by
  simp only [State.digiRules]
  split
  · exact h.digiDest hp hs cs b
  · split
    · exact h.digiDrop _ _
    · split
      next => exact h.digiDrop _ _
      next k hc =>
        split
        · exact h.digiWide hp hs cs b (State.candidate_eq_some.mp hc).2.1
        · exact h.digiDrop _ _

theorem Confined.digiAccepted : Confined 0x30#8 s (t.digiAccepted n) := by
  simp only [State.digiAccepted]
  split
  · exact h.digiDrop _ _
  · have hsweep := h.sweep (by decide)
    split
    · exact hsweep.digiDrop _ _
    · split
      · exact hsweep.digiMessage _
      · exact hsweep.digiRules hp { hs with } _ _

end

/-! ### Commands -/

/-- Every command keeps to what its opcode may write. The build is legal, so a frame fits in FBUF and its bytes miss TBUF. -/
theorem exec_confined (hp : s.params.wf = true) (i : Instr) : ∃ t, exec i s = .next t ∧ Confined i.opcode s t := by
  have hfail := confined_failed i.opcode s
  cases i with
  | nop a b =>
    have hrefl := Confined.refl 0x00#8 s
    refine ⟨_, execNop_cases s a b, ?_⟩
    split
    exacts [hfail _, hrefl.completed]
  | csmaAcquire a b =>
    have hrefl := Confined.refl 0x40#8 s
    refine ⟨_, execCsmaAcquire_cases s a b, ?_⟩
    split
    exacts [hfail _, { hrefl with arb := absurd rfl }]
  | callDecode a b =>
    have hrefl := Confined.refl 0x01#8 s
    refine ⟨_, execCallDecode_cases s a b, ?_⟩
    split
    exacts [hfail _, { hrefl with decoded := absurd rfl }]
  | callEncode a c =>
    have hrefl := Confined.refl 0x02#8 s
    refine ⟨_, execCallEncode_cases s a c, ?_⟩
    split
    exacts [hfail _, { hrefl with encoded := absurd rfl }]
  | frameValidate a b =>
    have hrefl := Confined.refl 0x10#8 s
    refine ⟨_, execFrameValidate_cases s a b, ?_⟩
    split
    · exact hfail _
    · split
      exacts [hfail _, (hrefl.setHeader (by decide) _).completed]
  | frameToText a b =>
    have hrefl := Confined.refl 0x11#8 s
    refine ⟨_, execFrameToText_cases s a b, ?_⟩
    split
    · exact hfail _
    · split
      · exact hfail _
      next n _ =>
        split
        · exact hfail _
        · exact (((hrefl.setTb 0 (s.monitorText n)).setTlen _).setHeader (by decide) _).completed
  | textToFrame a b =>
    have hrefl := Confined.refl 0x12#8 s
    refine ⟨_, execTextToFrame_cases s a b, ?_⟩
    split
    · exact hfail _
    · split
      · exact hfail _
      next n f hf =>
        obtain ⟨-, -, hl⟩ := frameOfText_bounds hf
        have hmax := maxFrameLen_le hp
        have hbytes := hrefl.setFb (by decide) (i := 0) (bs := f) (by omega)
        exact ((hbytes.setFlen (by decide) _).setHeader (by decide) _).completed
  | crc16 a b =>
    have hrefl := Confined.refl 0x20#8 s
    refine ⟨_, execCrc16_cases s a b, ?_⟩
    split
    exacts [hfail _, { hrefl with crcRes := absurd rfl }]
  | dupCheck a b =>
    have hrefl := Confined.refl 0x21#8 s
    refine ⟨_, execDupCheck_cases s a b, ?_⟩
    split
    exacts [hfail _, ((hrefl.sweep (by decide)).setDupRes (by decide) _).completed]
  | dupRecord a b =>
    have hrefl := Confined.refl 0x22#8 s
    refine ⟨_, execDupRecord_cases s a b, ?_⟩
    split
    exacts [hfail _, (((hrefl.sweep (by decide)).insert (by decide) _).setDupRes (by decide) _).completed]
  | dupCheckRecord a b =>
    have hrefl := Confined.refl 0x23#8 s
    have hsweep := hrefl.sweep (by decide)
    refine ⟨_, execDupCheckRecord_cases s a b, ?_⟩
    split
    · exact hfail _
    · split
      exacts [(hsweep.setDupRes (by decide) _).completed, ((hsweep.insert (by decide) _).setDupRes (by decide) _).completed]
  | digiProcess a b =>
    have hrefl := Confined.refl 0x30#8 s
    have hclear := hrefl.clearMessage
    refine ⟨_, execDigiProcess_cases s a b, ?_⟩
    split
    · exact hfail _
    · split
      · exact (hclear.digiDrop _ _).completed
      next n hv =>
        have hs := s.validate_eq_ok.mp hv
        exact ((hclear.digiCount n).digiAccepted hp { hs with }).completed
  | pathInsertNode k b =>
    have hrefl := Confined.refl 0x31#8 s
    refine ⟨_, execPathInsertNode_cases s k b, ?_⟩
    split
    · exact hfail _
    · split
      · exact hfail _
      next n hv =>
        have hs := s.validate_eq_ok.mp hv
        have h10 := hs.maxAddr
        split
        next => exact hfail _
        next hk =>
          split
          next => exact hfail _
          next hr => exact (hrefl.grow (by decide) (by omega) (flen_add_seven_le hp hs hr)).completed
  | pathOverwriteNode k b =>
    have hrefl := Confined.refl 0x32#8 s
    refine ⟨_, execPathOverwriteNode_cases s k b, ?_⟩
    split
    · exact hfail _
    · split
      · exact hfail _
      next n hv =>
        have h10 := (s.validate_eq_ok.mp hv).maxAddr
        split
        · exact hfail _
        · exact ((hrefl.overwriteNode (by decide) (by omega)).setHeader (by decide) _).completed

/-- Settles O11: each end of a command keeps what no command writes, and each command is confined to its own part of the rest. -/
theorem commandsWriteOnlyTheirOwnState : Obligations.CommandsWriteOnlyTheirOwnState := by
  intro i s t hp h
  refine ⟨?_, ?_⟩
  · obtain ⟨u, hu, hend⟩ := exec_cases s i
    cases hu.symm.trans h
    rcases hend with ⟨c, -, -, rfl⟩ | ⟨-, rfl⟩ | ⟨-, r, rfl, hk⟩
    · simp
    · simp
    · simp [hk.params, hk.irqEn, hk.rgn, hk.node, hk.cfg, hk.dupWindow, hk.tick, hk.tickSnap, hk.pend, hk.schedule, hk.busResp,
        hk.resets, hk.samples, hk.status]
  · obtain ⟨u, hu, hc⟩ := exec_confined hp i
    cases hu.symm.trans h
    exact ⟨hc.table, fun hn => ⟨hc.tlen hn, fun j _ => hc.text hn j⟩, hc.frame, hc.flen, hc.encoded, hc.decoded, hc.header,
      hc.crcRes, hc.dupRes, hc.digi, hc.arb⟩

end Sys2Proof.Machine
end

section
/-! PROOFS. The hazards of R325 to R327: a deadline that wraps to 0 (O32), and a wait that no sample ends (O44). -/

namespace Sys2Proof.Machine

open Sys2Proof.Spec

variable {s : State} {T : List Slot} {now : Word} {cs c : Half} {i j : Nat} {ev : Bool}

/-! ### A deadline that wraps to 0 -/

/-- A record with the deadline 0 is an empty slot, so it adds no live one (R49). -/
theorem not_liveAt_set_empty (h : ¬ LiveAt T cs j) : ¬ LiveAt (T.set i ⟨c, 0#32⟩) cs j := by
  rintro ⟨x, hx, hlive, hcs⟩
  rw [List.getElem?_set] at hx
  split at hx
  · split at hx
    · cases hx
      exact hlive rfl
    · cases hx
  · exact h ⟨x, hx, hlive, hcs⟩

/-- A sweep leaves an empty slot as it is (R182). -/
theorem swept_set_empty : swept now ((swept now T).set i ⟨c, 0#32⟩) = (swept now T).set i ⟨c, 0#32⟩ := by
  have hset : swept now ((swept now T).set i ⟨c, 0#32⟩) = (swept now (swept now T)).set i ⟨c, 0#32⟩ := by
    simp [swept, List.map_set]
  rw [hset, swept_swept]

theorem lt_length_of_insertsAt (h : InsertsAt T now i ev) : i < T.length := by
  rcases h with ⟨-, ⟨x, hx, -⟩, -⟩ | ⟨-, -, x, hx, -⟩ <;> exact (List.getElem?_eq_some_iff.mp hx).1

/-- INSERT evicts nothing while the table has an empty slot (R184). -/
theorem exists_insertsAt_of_mem_empty (now : Word) (h : ⟨c, 0#32⟩ ∈ T) : ∃ i, InsertsAt T now i false := by
  rcases insertIndex_spec now T (List.ne_nil_of_mem h) with ⟨-, hi⟩ | ⟨-, hfull, -⟩
  · exact ⟨_, .inl ⟨rfl, hi⟩⟩
  · exact absurd rfl (hfull _ h)

/-- Settles O32: the record is an empty slot, which DUP_CHECK passes over (O27) and DUP_RECORD takes before it evicts (O28). -/
theorem deadlineThatWrapsToZeroIsEmpty : Obligations.DeadlineThatWrapsToZeroIsEmpty := by
  intro s t hr hne hwrap hfresh h
  obtain ⟨hslot, hrecord⟩ := dupRecordWritesOneSlot s _ _ hr rfl rfl
  obtain ⟨i, ev, hi⟩ := hslot hne
  have ht := hrecord i ev hi
  rw [hwrap] at ht
  cases ht.symm.trans h
  have hmem := List.mem_set (lt_length_of_insertsAt hi) ⟨crc s.region, 0#32⟩
  have hmiss := fun j => not_liveAt_set_empty (i := i) (c := crc s.region) (hfresh j)
  obtain ⟨k, hnext⟩ := exists_insertsAt_of_mem_empty s.tickSnap hmem
  rw [← swept_set_empty] at hmiss hnext
  exact ⟨_, _, (dupCheckReportsTheFirstLiveMatch _ _ _ (by exact hr) rfl rfl).2 hmiss, rfl,
    (dupRecordWritesOneSlot _ _ _ (by exact hr) rfl rfl).2 _ _ hnext, rfl, rfl⟩

/-! ### A wait that no sample ends -/

/-- The samples of a wait from `s` have not ended it in `t`, and have touched neither STATUS nor a counter. -/
structure StillWaiting (s t : State) : Prop where
  engine : t.engine = .csmaWait
  status : t.status = s.status
  cnt : t.cnt = s.cnt
  cfg : t.cfg = s.cfg

/-- With PERSIST = 255 no draw grants, for none exceeds 255 (R326). -/
theorem stillWaiting_sampleEvent (hw : s.engine = .csmaWait) (hp : s.cfg.persist = 0xFF#8) (b : Bool) (r : Byte) :
    StillWaiting s (s.sampleEvent b r) := by
  rcases State.sampleEvent_cases hw b r with ⟨-, ht⟩ | ⟨-, -, ht⟩ | ⟨-, -, hr, -⟩ | ⟨-, -, -, ht⟩
  · rw [ht]
    exact ⟨hw, rfl, rfl, rfl⟩
  · rw [ht]
    exact ⟨hw, rfl, rfl, rfl⟩
  · rw [hp] at hr
    exact absurd (Nat.le_of_lt_succ r.isLt) (Nat.not_le.mpr hr)
  · rw [ht]
    exact ⟨hw, rfl, rfl, rfl⟩

theorem stillWaiting_afterSamples (l : List (Bool × Byte)) (hw : s.engine = .csmaWait) (hp : s.cfg.persist = 0xFF#8) :
    StillWaiting s (afterSamples s l) := by
  induction l using List.reverseRecOn with
  | nil => exact ⟨hw, rfl, rfl, rfl⟩
  | append_singleton l x ih =>
    rw [afterSamples_append]
    obtain ⟨he, hs, hc, hg⟩ := stillWaiting_sampleEvent ih.engine (ih.cfg ▸ hp) x.1 x.2
    exact ⟨he, hs.trans ih.status, hc.trans ih.cnt, hg.trans ih.cfg⟩

/-- One busy sample or many, all they do is to set IDLE_CNT to 0 (R252, R327). -/
theorem afterSamples_busy {l : List (Bool × Byte)} : ∀ {s : State} {x : Bool × Byte}, s.engine = .csmaWait →
    (∀ y ∈ x :: l, y.1 = true) → afterSamples s (x :: l) = { s with arb := { s.arb with idleCnt := 0#16 } } := by
  induction l with
  | nil =>
    intro s x hw hbusy
    rw [afterSamples_cons, hbusy x (List.mem_singleton_self x), State.sampleEvent_busy hw, afterSamples_nil]
  | cons y l ih =>
    intro s x hw hbusy
    obtain ⟨hx, hl⟩ := List.forall_mem_cons.mp hbusy
    rw [afterSamples_cons, hx, State.sampleEvent_busy hw, ih (by exact hw) hl]

/-- Settles O44: with PERSIST = 255 every sample leaves the wait on, and busy samples reach no draw. -/
theorem waitCanLastForever : Obligations.WaitCanLastForever := by
  intro s l hw
  refine ⟨_, run_beforeSamples l s, fun hp => ?_, fun hbusy => ?_⟩
  · obtain ⟨he, hs, hc, -⟩ := stillWaiting_afterSamples l hw hp
    exact ⟨he, hs, hc⟩
  · cases l with
    | nil => exact ⟨hw, rfl, rfl, rfl, fun h => h.resolve_right (absurd rfl)⟩
    | cons x l =>
      rw [afterSamples_busy hw hbusy]
      exact ⟨hw, rfl, rfl, rfl, fun _ => rfl⟩

end Sys2Proof.Machine
end
